-- ==== Sys2Proof/Word.lean ====
section
/-! DEFINITION. The word and byte types: every value, stream word and register is 32 bits (spec/00_scope.md R6). -/

namespace Sys2Proof

/-- A value, a stream word or a register: `WORD` = 32 bits (R6). -/
abbrev Word := BitVec 32

/-- One byte of data memory (R81). -/
abbrev Byte := BitVec 8

end Sys2Proof
end

