-- ==== Sys2Proof/Syntax.lean ====
section
/-! DEFINITION. The command set: one constructor per row of spec/opcode_table.json (30_encoding.md R112). -/

namespace Sys2Proof

/-- The nine commands of R112. `b` is the 6-bit operand `cmd.B` (R111, R114) of the three commands that use it. -/
inductive Instr where
  /-- NOP, opcode 0x00 (R150). -/
  | nop
  /-- CONFIG, opcode 0x01 (R151). -/
  | config
  /-- PACK b, opcode 0x10 (R164). -/
  | pack (b : BitVec 6)
  /-- UNPACK b, opcode 0x11 (R165). -/
  | unpack (b : BitVec 6)
  /-- EXC_EXTRACT b, opcode 0x20 (R190). -/
  | excExtract (b : BitVec 6)
  /-- EXC_PATCH, opcode 0x21 (R195). -/
  | excPatch
  /-- HDR_PARSE, opcode 0x30 (R230). -/
  | hdrParse
  /-- ENCODE, opcode 0x40 (R232). -/
  | encode
  /-- DECODE, opcode 0x41 (R236). -/
  | decode
deriving DecidableEq, Repr

end Sys2Proof
end

