-- ==== Sys2Proof/WellFormed.lean ====
section
/-! DEFINITION. Which commands are legal: a bit width is 0..32 (30_encoding.md R114). -/

namespace Sys2Proof

/-- R114: "an unsigned 6-bit field with legal range 0..32". -/
def legalWidth (b : BitVec 6) : Bool := b.toNat ≤ 32

/-- A command the engine accepts: its bit width, where it has one, is legal (R113, R114). -/
def Instr.wf : Instr → Bool
  | .nop => true
  | .config => true
  | .pack b => legalWidth b
  | .unpack b => legalWidth b
  | .excExtract b => legalWidth b
  | .excPatch => true
  | .hdrParse => true
  | .encode => true
  | .decode => true

end Sys2Proof
end

