-- ==== Sys2Proof/Decode.lean ====
section
/-! DEFINITION. The command decoder, total on every word and rejecting by name (30_encoding.md R111 to R115), and after it
the encoder written from the same tables. -/

namespace Sys2Proof

/-- Why a command word is illegal, in the order R113 checks. -/
inductive Illegal where
  /-- R113 check 1: `cmd.OPCODE` is unassigned. -/
  | unassignedOpcode
  /-- R113 check 2: the opcode uses B and `cmd.B > 32`. -/
  | widthAbove32
  /-- R113 check 3: `cmd.RSV != 0`, or `cmd.B != 0` for an opcode that does not use B. -/
  | reservedNonzero
deriving DecidableEq, Repr

/-- The detail number R113 gives each rejection. -/
def illegalDetail : Illegal → Nat
  | .unassignedOpcode => 1
  | .widthAbove32 => 2
  | .reservedNonzero => 3

/-- R111: `cmd.OPCODE = w[7:0]`. -/
def cmdOpcode (w : Word) : BitVec 8 := w.extractLsb' 0 8

/-- R111: `cmd.B = w[13:8]`. -/
def cmdB (w : Word) : BitVec 6 := w.extractLsb' 8 6

/-- R111: `cmd.RSV = w[31:14]`. -/
def cmdRsv (w : Word) : BitVec 18 := w.extractLsb' 14 18

/-- R113 for an opcode that does not use B: check 3. -/
def decodePlain (w : Word) (i : Instr) : Except Illegal Instr :=
  if cmdRsv w ≠ 0#18 ∨ cmdB w ≠ 0#6 then .error .reservedNonzero else .ok i

/-- R113 for an opcode that uses B: check 2, then check 3. -/
def decodeWidth (w : Word) (mk : BitVec 6 → Instr) : Except Illegal Instr :=
  if 32 < (cmdB w).toNat then .error .widthAbove32
  else if cmdRsv w ≠ 0#18 then .error .reservedNonzero
  else .ok (mk (cmdB w))

/-- The command decoder: the opcode map of R112 with the checks of R113 in their order. -/
def decode (w : Word) : Except Illegal Instr :=
  match (cmdOpcode w).toNat with
  | 0x00 => decodePlain w .nop
  | 0x01 => decodePlain w .config
  | 0x10 => decodeWidth w .pack
  | 0x11 => decodeWidth w .unpack
  | 0x20 => decodeWidth w .excExtract
  | 0x21 => decodePlain w .excPatch
  | 0x30 => decodePlain w .hdrParse
  | 0x40 => decodePlain w .encode
  | 0x41 => decodePlain w .decode
  | _ => .error .unassignedOpcode

/-- R116: a command without an operand is the word `OPCODE`. -/
def encodePlain (op : BitVec 8) : Word := op.setWidth 32

/-- R116: `MNEMONIC b=<n>` is the word `OPCODE | (n << 8)`. -/
def encodeWidth (op : BitVec 8) (b : BitVec 6) : Word := op.setWidth 32 ||| (b.setWidth 32 <<< 8)

/-- The encoder, from the opcode map of R112 and the fields of R111. -/
def encode : Instr → Word
  | .nop => encodePlain 0x00#8
  | .config => encodePlain 0x01#8
  | .pack b => encodeWidth 0x10#8 b
  | .unpack b => encodeWidth 0x11#8 b
  | .excExtract b => encodeWidth 0x20#8 b
  | .excPatch => encodePlain 0x21#8
  | .hdrParse => encodePlain 0x30#8
  | .encode => encodePlain 0x40#8
  | .decode => encodePlain 0x41#8

/-- The host's question: the instruction this decoder reads from a word whose bits are `w`, numbered from the least
significant. Every command is one 32-bit word (R110), so bits at and above `nbits` are zero and only 32 bits count. -/
def decodeTableWord (nbits w : Nat) : Option Instr :=
  match decode (BitVec.ofNat 32 (w % 2 ^ nbits)) with
  | .ok i => some i
  | .error _ => none

end Sys2Proof
end

