-- ==== Sys2Proof/Config.lean ====
section
/-! DEFINITION. What the spec fixes once for every engine (00_scope.md R6, 10_state.md R33, R34), and the free values
the spec leaves open. The platform's own parameters `AW`, `REG_BASE` and `BUS_ERR` are plain data and stand in
`Machine.State.plat`, so that a statement about every state is a statement about every platform. -/

namespace Sys2Proof.Config

/-- R33: ID, the ASCII letters "PFOR". -/
def idWord : Word := 0x50464F52#32

/-- R34: VERSION, major 1 in bits 31:16 and minor 0 in bits 15:0. -/
def versionWord : Word := 0x00010000#32

/-- R6 `BS_SET`: the legal block sizes. -/
def blockSizes : List Nat := [128, 256, 512]

/-- R6 `MAX_PAGE_BLOCKS`: 2^24 - 1. -/
def maxPageBlocks : Nat := 16777215

/-- R6 `BS_RESET`. -/
def resetBlockSize : Word := 128#32

/-- R6 `PS_RESET`. -/
def resetPageSize : Word := 65536#32

/-- R6: the default of the OPEN parameter `AW`. -/
def defaultAw : Nat := 32

/-- The value `State.reset` gives the OPEN parameter `REG_BASE`. DESIGN CHOICE, unsafe (notes/assumptions/3.md). -/
def defaultRegBase : Nat := 0

/-- What a byte of data memory that no one has written reads as. The spec gives data memory no contents.
DESIGN CHOICE, unsafe (notes/assumptions/2.md). -/
def unlistedByte : Byte := 0#8

/-- A FREE VALUE (R89, R259, R291): the word drawn at draw number `d` for byte address `a`. It has no body: nothing can
be proved of the value itself. Safe (notes/assumptions/5.md). -/
opaque freeWord (d a : Nat) : Word

/-- Which way a data-memory access goes. -/
inductive BusSide where
  | read
  | write
deriving DecidableEq, Repr

/-- A candidate for outcome (b) of R260: a direction and a byte address. -/
structure BusPick where
  side : BusSide
  addr : Nat
deriving DecidableEq, Repr

/-- A FREE VALUE (R260): at draw number `d`, the candidate for outcome (b), or none for outcome (a). It has no body. Safe
(notes/assumptions/6.md). -/
opaque busPick (d : Nat) : Option BusPick

end Sys2Proof.Config
end

