-- ==== Sys2Proof/Machine/State.lean ====
section
/-! DEFINITION. The machine's state as plain data: the register file (10_state.md), data memory (20_memory.md), the
engine's scratch (R54), the platform's parameters (R6), the host as the second agent (R89), and the reset state (R290). -/

namespace Sys2Proof.Machine

/-- Data memory: address and byte pairs in the canonical form of `Memory.wf` (in Machine/Ops.lean). -/
abbrev Memory := List Host.Cell

/-- A half-open range of byte addresses `[lo, hi)`. -/
structure AddrRange where
  lo : Nat
  hi : Nat
deriving DecidableEq, Repr

/-- The windows of a command or of one of its units (R84), as byte ranges: input, output, bit-width table. -/
structure Windows where
  inWin  : AddrRange
  outWin : AddrRange
  tabWin : AddrRange
deriving DecidableEq, Repr

/-- The platform's OPEN parameters (R6), fixed for one machine: no step changes them. `BUS_ERR`, a predicate on byte
addresses, is the list of the ranges where it is true. -/
structure Platform where
  aw      : Nat
  regBase : Nat
  busErr  : List AddrRange
deriving DecidableEq, Repr

/-- The error kinds of R250. -/
inductive ErrKind where
  | invalidConfiguration
  | invalidInput
  | insufficientOutputSpace
  | invalidOffset
  | corruptStream
  | illegalCommand
  | busError
deriving DecidableEq, Repr

/-- STATUS (R36). The reserved fields read 0 and are not stored. ERR_CODE is stored as the error kind it encodes. -/
structure Status where
  busy    : Bool
  done    : Bool
  err     : Bool
  wbusy   : Bool
  errKind : Option ErrKind
  lastOp  : Byte
deriving DecidableEq, Repr

/-- IRQ_EN (R38). The reserved bits read 0 and are not stored. -/
structure IrqEn where
  doneIe : Bool
  errIe  : Bool
deriving DecidableEq, Repr

/-- The register file of R31. ID, VERSION and CTRL store nothing (R33, R34, R35). -/
structure Regs where
  status       : Status
  irqEn        : IrqEn
  cmd          : Word
  cfgBlockSize : Word
  cfgPageSize  : Word
  actBlockSize : Word
  actPageSize  : Word
  inBase       : Word
  inBound      : Word
  inLen        : Word
  inCur        : Word
  outBase      : Word
  outBound     : Word
  outCur       : Word
  argCount     : Word
  bwBase       : Word
  errDetail    : Byte
  errIndex     : Word
  cntRd        : Word
  cntWr        : Word
  cntExc       : Word
deriving DecidableEq, Repr

/-- The running copies of a started command (R52, R54): the cursors at issue, the running cursors `icur` and `ocur`,
and `k`, the blocks ENCODE has committed (R232), or the units any other command has committed. -/
structure Run where
  icur0 : Nat
  ocur0 : Nat
  icur  : Nat
  ocur  : Nat
  k     : Nat
deriving DecidableEq, Repr

/-- One bucket word's fields (R122): extra width `e` and count `c`. -/
structure BucketInfo where
  e : Nat
  c : Nat
deriving DecidableEq, Repr

/-- One block's descriptor group as parsed or built (R188): the word D, its width `b` and its buckets. -/
structure Group where
  d       : Word
  b       : Nat
  buckets : List BucketInfo
deriving DecidableEq, Repr

/-- One exception bucket (R183): extra width, positions in increasing order, high-bits values. -/
structure Bucket where
  e   : Nat
  pos : List Nat
  hi  : List Word
deriving DecidableEq, Repr

/-- The engine's scratch (R54), not readable by the host: the running command's cursors (none until its prologue has
passed and again once it has ended), the page's descriptor list and a block's exception buckets. -/
structure Scratch where
  run     : Option Run
  groups  : List Group
  buckets : List Bucket
deriving DecidableEq, Repr

/-- How the last host transaction was answered (R30, R32): with data, an acknowledgement, a slave error, or the level of `irq`. `none`: no
transaction yet, or the address belongs to no one this model knows. -/
inductive Reply where
  | none
  | ack
  | data (w : Word)
  | slaveError
  | level (b : Bool)
deriving DecidableEq, Repr

/-- The width of a host access on the register port (R32). -/
inductive AccessWidth where
  | byte
  | half
  | word
deriving DecidableEq, Repr

/-- What the host, the second agent (R89), can do between two moves of the engine. -/
inductive HostEvent where
  /-- A register-port read at an address of the host's space (R31, R32). -/
  | regRead (addr : Nat) (width : AccessWidth)
  /-- A register-port write at an address of the host's space (R31, R32). -/
  | regWrite (addr : Nat) (width : AccessWidth) (v : Word)
  /-- `MRD`: a word read of data memory (R116). -/
  | memRead (addr : Nat)
  /-- `MWR`: a word write of data memory (R116). -/
  | memWrite (addr : Nat) (v : Word)
  /-- `rst_n` driven low and released (R290, R292). -/
  | rstN
  /-- The host lets the engine make one move. -/
  | quiet
  /-- `WAIT` (R117): the host polls STATUS until BUSY reads 0; the engine moves meanwhile. -/
  | await
  /-- The host looks at the interrupt line (R30, R262). -/
  | irqSample
deriving DecidableEq, Repr

/-- R89: the windows of a command whose end the host has not observed, and whether the host has broken its duty to keep away from
them. -/
structure Held where
  windows : Windows
  broken  : Bool
deriving DecidableEq, Repr

/-- The whole machine. `host` is what the host still does, first event first; it says which agent moves next. `held` is the
windows of every command whose end the host has not observed (R89), the last issued first, and `draws` counts the free values taken:
the two are the model's own (notes/assumptions/5.md, 7.md). -/
structure State where
  plat    : Platform
  regs    : Regs
  scratch : Scratch
  mem     : Memory
  host    : List HostEvent
  reply   : Reply
  held    : List Held
  draws   : Nat
deriving DecidableEq, Repr

/-- The engine never stops: "The engine has no traps" (60_exceptions.md), every error is a report in STATUS, ERR_DETAIL and
ERR_INDEX after which the machine goes on (R252, R253). So no fault exists, and the type has no constructor. -/
inductive Fault where
deriving DecidableEq, Repr

/-- Why a step has no meaning. Safe: nothing is claimed of a refused step. -/
inductive Refusal where
  /-- Raised only by an arm of `exec` whose command has no meaning yet. Every command has one, so none raises it. Safe. -/
  | notModelled (mnemonic : String)
deriving DecidableEq, Repr

/-- R290: the register file after reset. -/
def Regs.reset : Regs where
  status := { busy := false, done := false, err := false, wbusy := false, errKind := none, lastOp := 0#8 }
  irqEn := { doneIe := false, errIe := false }
  cmd := 0#32
  cfgBlockSize := Config.resetBlockSize
  cfgPageSize := Config.resetPageSize
  actBlockSize := Config.resetBlockSize
  actPageSize := Config.resetPageSize
  inBase := 0#32
  inBound := 0#32
  inLen := 0#32
  inCur := 0#32
  outBase := 0#32
  outBound := 0#32
  outCur := 0#32
  argCount := 0#32
  bwBase := 0#32
  errDetail := 0#8
  errIndex := 0#32
  cntRd := 0#32
  cntWr := 0#32
  cntExc := 0#32

/-- R290: "scratch: empty, and no command is running". -/
def Scratch.empty : Scratch := { run := none, groups := [], buckets := [] }

/-- The platform `State.reset` stands on: `AW` at its default (R6); the other two OPEN parameters are DESIGN CHOICES, unsafe
(notes/assumptions/3.md, 4.md). -/
def Platform.default : Platform := { aw := Config.defaultAw, regBase := Config.defaultRegBase, busErr := [] }

/-- R290: the machine right after reset, with no host transaction pending and no byte of data memory listed. -/
def State.reset : State where
  plat := Platform.default
  regs := Regs.reset
  scratch := Scratch.empty
  mem := []
  host := []
  reply := .none
  held := []
  draws := 0

end Sys2Proof.Machine
end

