-- ==== Sys2Proof/Machine/Operands.lean ====
section
/-! DEFINITION. The pure functions the commands share: the value functions of 00_scope.md R12 to R15, the packing law of
41_packing.md, the exception buckets of 42_exceptions.md and the stream words of 30_encoding.md. -/

namespace Sys2Proof.Machine

/-! ### Fields, widths and lengths (R7, R12 to R14) -/

/-- R7: `v[lo + len - 1 : lo]` as an unsigned number. -/
def field (w : Word) (lo len : Nat) : Nat := (w.toNat >>> lo) % 2 ^ len

/-- R12: the number of significant bits of a value. -/
def bits (v : Word) : Nat := if v.toNat = 0 then 0 else v.toNat.log2 + 1

/-- R13: `trunc(v, w) = v mod 2^w`. -/
def trunc (v : Word) (w : Nat) : Nat := v.toNat % 2 ^ w

/-- R14: `PL(n, w) = ceil(n*w / 32)`, the words that `n` values take at width `w`. -/
def packedLen (n w : Nat) : Nat := (n * w + 31) / 32

/-! ### The packing law (R160, R161) -/

/-- R160's `S`: the sum over `i` of `trunc(vals[i], w) << (i*w)`, value 0 lowest. -/
def packStream (w : Nat) : List Word → Nat
  | [] => 0
  | v :: vs => trunc v w + packStream w vs <<< w

/-- R160: `Pack(vals, w)[k] = (S >> (32*k)) mod 2^32` for `k` in `[0, PL(n, w))`. -/
def pack (vals : List Word) (w : Nat) : List Word :=
  (List.range (packedLen vals.length w)).map fun k => BitVec.ofNat 32 (packStream w vals >>> (32 * k))

/-- R161's `S`: the sum over `k` of `words[k] << (32*k)`. -/
def wordStream : List Word → Nat
  | [] => 0
  | x :: xs => x.toNat + wordStream xs <<< 32

/-- R161: `Unpack(words, n, w)[i] = (S >> (i*w)) mod 2^w`; only the first `PL(n, w)` words are read. -/
def unpack (words : List Word) (n w : Nat) : List Word :=
  (List.range n).map fun i =>
    BitVec.ofNat 32 ((wordStream (words.take (packedLen n w)) >>> (i * w)) % 2 ^ w)

/-! ### Exceptions and buckets (R180 to R187) -/

/-- R180: position `p` is an exception of extra width `e` when `bits(vals[p]) = b + e`, for `e >= 1`; the positions in
increasing order. -/
def positions (vals : List Word) (b e : Nat) : List Nat :=
  (vals.zipIdx.filter fun p => bits p.1 == b + e).map (·.2)

/-- R180: the values of extra width `e`, by increasing position, shifted down to their high bits `hi(p) = vals[p] >> b`. -/
def highBits (vals : List Word) (b e : Nat) : List Word :=
  (vals.filter fun v => bits v == b + e).map fun v : Word => v >>> b

/-- R183: the bucket of extra width `e`, if some position has it. -/
def bucketOf (vals : List Word) (b e : Nat) : Option Bucket :=
  if (positions vals b e).isEmpty then none
  else some { e := e, pos := positions vals b e, hi := highBits vals b e }

/-- R183: the nonempty buckets, `e` from 1 up to `32 - b`. -/
def buckets (vals : List Word) (b : Nat) : List Bucket :=
  (List.range' 1 (32 - b)).filterMap (bucketOf vals b)

/-- R184: differences of neighbours, the first from `prev`. -/
def deltasFrom (prev : Nat) : List Nat → List Nat
  | [] => []
  | p :: ps => (p - prev) :: deltasFrom p ps

/-- R184: `deltas(P)[0] = P[0]` and `deltas(P)[k] = P[k] - P[k-1]`. -/
def deltas (pos : List Nat) : List Nat := deltasFrom 0 pos

/-- R185: a bucket's two runs, position deltas at width `pw` and then high bits at width `e`. -/
def bucketRuns (pw : Nat) (k : Bucket) : List Word :=
  pack ((deltas k.pos).map (BitVec.ofNat 32)) pw ++ pack k.hi k.e

/-- The exceptions of a list of buckets: the sum of `c_j`. -/
def exceptionCount (ks : List Bucket) : Nat := (ks.map (·.pos.length)).sum

/-! ### Stream words (R121 to R125) -/

/-- R121: `mkD(b, nb) = b | (nb << 8)`. -/
def mkD (b nb : Nat) : Word := BitVec.ofNat 32 (b ||| nb <<< 8)

/-- R121: `validD(d)`. -/
def validD (d : Word) : Bool :=
  field d 6 2 == 0 && field d 14 18 == 0 && decide (field d 0 6 ≤ 32) && decide (field d 8 6 ≤ 32 - field d 0 6)

/-- R122: `mkB(e, c) = e | (c << 8)`. -/
def mkB (e c : Nat) : Word := BitVec.ofNat 32 (e ||| c <<< 8)

/-- R122: `validB(w, b)` under block size `bs`. -/
def validB (bs : Nat) (w : Word) (b : Nat) : Bool :=
  field w 6 2 == 0 && field w 18 14 == 0 && decide (1 ≤ field w 0 6) && decide (field w 0 6 ≤ 32 - b) &&
    decide (1 ≤ field w 8 10) && decide (field w 8 10 ≤ bs)

/-- R123: `mkH0(n) = log2(act.BS) | (n << 8)`. -/
def mkH0 (bs n : Nat) : Word := BitVec.ofNat 32 (bs.log2 ||| n <<< 8)

/-- R123: `validH0(h)` under block size `bs` and page size `ps`. -/
def validH0 (bs ps : Nat) (h : Word) : Bool :=
  field h 4 4 == 0 && field h 0 4 == bs.log2 && decide (1 ≤ field h 8 24) && decide (field h 8 24 ≤ ps / bs)

/-- R125: `validBW(w)`. -/
def validBW (w : Word) : Bool := field w 6 26 == 0 && decide (field w 0 6 ≤ 32)

/-! ### A block's side-stream and body (R186, R187, R211, R212) -/

/-- The descriptor group of a block of width `b` with these buckets. -/
def groupOf (b : Nat) (ks : List Bucket) : Group :=
  { d := mkD b ks.length, b := b, buckets := ks.map fun k => { e := k.e, c := k.pos.length } }

/-- A descriptor group's words: D, then one word B per bucket (R124). -/
def groupWords (g : Group) : List Word := g.d :: g.buckets.map fun k => mkB k.e k.c

/-- R186: `meta(vals, b)`. -/
def metaWords (vals : List Word) (b : Nat) : List Word := groupWords (groupOf b (buckets vals b))

/-- R186: `xruns(vals, b)`. -/
def xruns (pw : Nat) (vals : List Word) (b : Nat) : List Word := (buckets vals b).flatMap (bucketRuns pw)

/-- R187: an exception record. -/
def record (pw : Nat) (vals : List Word) (b : Nat) : List Word := metaWords vals b ++ xruns pw vals b

/-- R211: a block's body, its main run and then its exception runs. -/
def body (pw : Nat) (vals : List Word) (b : Nat) : List Word := pack vals b ++ xruns pw vals b

/-- R212: a page of blocks with their widths: H0, every block's descriptor group, every block's body. -/
def encPage (bs : Nat) (blks : List (List Word × Nat)) : List Word :=
  mkH0 bs blks.length :: (blks.flatMap fun x => metaWords x.1 x.2) ++ blks.flatMap fun x => body bs.log2 x.1 x.2

/-! ### A parsed group's extent (R188, R222) -/

/-- R188: `XLEN`, the words of a group's exception runs. -/
def xlen (pw : Nat) (ks : List BucketInfo) : Nat :=
  (ks.map fun k => packedLen k.c pw + packedLen k.c k.e).sum

/-- R222: `BLEN_i = act.BS*b_i/32 + XLEN_i`. -/
def blen (bs : Nat) (g : Group) : Nat := bs * g.b / 32 + xlen bs.log2 g.buckets

/-- R222: the offsets `OFF_i`, the first one given. -/
def bodyOffsets (bs : Nat) : Nat → List Group → List Nat
  | _, [] => []
  | off, g :: gs => off :: bodyOffsets bs (off + blen bs g) gs

/-- R188: the exceptions of a group, the sum of its counts. -/
def groupExceptions (ks : List BucketInfo) : Nat := (ks.map (·.c)).sum

/-- R210: cut a list into `n` blocks of `bs` values. -/
def blocksOf (bs : Nat) : Nat → List Word → List (List Word)
  | 0, _ => []
  | n + 1, vals => vals.take bs :: blocksOf bs n (vals.drop bs)

end Sys2Proof.Machine
end

