-- ==== Sys2Proof/Machine/Flags.lean ====
section
/-! DEFINITION. STATUS, IRQ_EN and the interrupt line: every way a flag is set, cleared or read (10_state.md R36 to R39, R55;
60_exceptions.md R250, R252, R257, R262). -/

namespace Sys2Proof.Machine

/-- R250: the error codes. -/
def ErrKind.code : ErrKind → Nat
  | .invalidConfiguration => 1
  | .invalidInput => 2
  | .insufficientOutputSpace => 3
  | .invalidOffset => 4
  | .corruptStream => 5
  | .illegalCommand => 6
  | .busError => 7

/-- R36: STATUS.ERR_CODE, 0 when there is no error (R250). -/
def Status.errCode (t : Status) : Nat :=
  match t.errKind with
  | none => 0
  | some k => k.code

/-- R36: STATUS as the host reads it. -/
def Status.word (t : Status) : Word :=
  BitVec.ofNat 32 (t.busy.toNat + 2 * t.done.toNat + 4 * t.err.toNat + 8 * t.wbusy.toNat + 2 ^ 8 * t.errCode +
    2 ^ 16 * t.lastOp.toNat)

/-- R37: a write of `v` to STATUS clears DONE, ERR and WBUSY where `v` has a 1, and nothing else. -/
def Status.ackWrite (t : Status) (v : Word) : Status :=
  { t with done := t.done && !v.getLsbD 1, err := t.err && !v.getLsbD 2, wbusy := t.wbusy && !v.getLsbD 3 }

/-- R39: what an accepted CMD write of `w` does to STATUS. -/
def Status.issue (t : Status) (w : Word) : Status :=
  { t with busy := true, done := false, err := false, errKind := none, lastOp := w.extractLsb' 0 8 }

/-- R252: what a raise of kind `k` does to STATUS. -/
def Status.raised (t : Status) (k : ErrKind) : Status :=
  { t with busy := false, err := true, errKind := some k }

/-- R257: what `finish()` does to STATUS. -/
def Status.finished (t : Status) : Status := { t with busy := false, done := true }

/-- R53: what a register write ignored because BUSY=1 does to STATUS. -/
def Status.dropped (t : Status) : Status := { t with wbusy := true }

/-- R38: IRQ_EN as the host reads it. -/
def IrqEn.word (q : IrqEn) : Word := BitVec.ofNat 32 (q.doneIe.toNat + 2 * q.errIe.toNat)

/-- R38: IRQ_EN as a write of `v` leaves it. -/
def IrqEn.ofWord (v : Word) : IrqEn := { doneIe := v.getLsbD 0, errIe := v.getLsbD 1 }

/-- R262: the interrupt line, a level. -/
def State.irq (s : State) : Bool :=
  (s.regs.status.done && s.regs.irqEn.doneIe) || (s.regs.status.err && s.regs.irqEn.errIe)

/-- R256: `sat32(x) = min(x, 0xFFFFFFFF)`. -/
def sat32 (x : Nat) : Word := BitVec.ofNat 32 (min x 0xFFFFFFFF)

end Sys2Proof.Machine
end

