-- ==== Sys2Proof/Machine/Ops.lean ====
section
/-! DEFINITION. The shared operations: data memory (20_memory.md), the engine's accesses (R10), ending a command with an error
or with success (R252, R257), the command windows (R84), issue (R39), `prologue` (R85, R254), bus errors (R260), commit (R258), and
`turn`, one move of the engine for a memory command. -/

namespace Sys2Proof.Machine

/-! ### Data memory: canonical lists of bytes, little-endian words (R81) -/

/-- The canonical form: addresses strictly rising and no entry equal to what an unlisted address reads as. -/
abbrev Memory.wf (m : Memory) : Prop :=
  m.Pairwise (fun x y => x.1 < y.1) ∧ ∀ x ∈ m, x.2 ≠ Config.unlistedByte

/-- The byte at an address. -/
def Memory.byte : Memory → Nat → Byte
  | [], _ => Config.unlistedByte
  | (k, x) :: m, a => if k = a then x else Memory.byte m a

/-- Store one byte, keeping the canonical form. -/
def Memory.setByte : Memory → Nat → Byte → Memory
  | [], a, v => if v = Config.unlistedByte then [] else [(a, v)]
  | (k, x) :: m, a, v =>
    if k < a then (k, x) :: Memory.setByte m a v
    else if k = a then (if v = Config.unlistedByte then m else (a, v) :: m)
    else if v = Config.unlistedByte then (k, x) :: m
    else (a, v) :: (k, x) :: m

/-- R81: the little-endian word at a byte address. -/
def Memory.word (m : Memory) (a : Nat) : Word :=
  m.byte (a + 3) ++ m.byte (a + 2) ++ m.byte (a + 1) ++ m.byte a

/-- R81: store a word, `v[7:0]` at `a` up to `v[31:24]` at `a + 3`. -/
def Memory.setWord (m : Memory) (a : Nat) (v : Word) : Memory :=
  (((m.setByte a (v.extractLsb' 0 8)).setByte (a + 1) (v.extractLsb' 8 8)).setByte (a + 2)
    (v.extractLsb' 16 8)).setByte (a + 3) (v.extractLsb' 24 8)

/-- Store consecutive words upward from byte address `a`. -/
def Memory.setWords (m : Memory) (a : Nat) : List Word → Memory
  | [] => m
  | v :: vs => Memory.setWords (m.setWord a v) (a + 4) vs

/-! ### Address ranges -/

/-- The byte range of the words `[lo, lo + n)` of a buffer. -/
def wordRange (base lo n : Nat) : AddrRange := { lo := base + 4 * lo, hi := base + 4 * (lo + n) }

/-- Whether a range holds an address. -/
def AddrRange.has (r : AddrRange) (a : Nat) : Bool := decide (r.lo ≤ a) && decide (a < r.hi)

/-- R85: whether two ranges share a byte; an empty range shares none. -/
def AddrRange.overlaps (r t : AddrRange) : Bool :=
  decide (r.lo < r.hi) && decide (t.lo < t.hi) && decide (r.lo < t.hi) && decide (t.lo < r.hi)

/-- Whether a range holds a byte of the word at an address. Where a misaligned base makes words straddle a window's end (the command is
then refused, R83), a word that shares any byte with the window counts as one of its words: DESIGN CHOICE, safe
(notes/assumptions/7.md). -/
def AddrRange.hasWord (r : AddrRange) (a : Nat) : Bool := r.overlaps { lo := a, hi := a + 4 }

/-- The aligned words of the address space that share a byte with a range: the address of the first and how many. -/
def AddrRange.words (p : Platform) (r : AddrRange) : Nat × Nat :=
  (r.lo / 4 * 4, if r.lo < r.hi then min (r.hi + 3) (2 ^ p.aw) / 4 - r.lo / 4 else 0)

/-- R6, R260: the platform parameter `BUS_ERR`. -/
def Platform.errs (p : Platform) (a : Nat) : Bool := p.busErr.any (·.has a)

/-! ### Errors and success -/

/-- `raise E(detail, index)` (R11). `dirty` is the index and length of the output words the raise leaves unspecified: none
for an error raised before the unit's first write (R259). -/
structure Raise where
  kind   : ErrKind
  detail : Nat
  index  : Nat
  dirty  : Option (Nat × Nat) := none
deriving DecidableEq, Repr

/-- R250 code 7: detail 1 for a read, 2 for a write, and the byte address. -/
def busRaise (side : Config.BusSide) (a : Nat) : Raise :=
  match side with
  | .read => { kind := .busError, detail := 1, index := a }
  | .write => { kind := .busError, detail := 2, index := a }

/-- R252: the report of an error, the engine's whole "trap entry". The command has ended, so its running cursors are gone. -/
def raiseError (r : Raise) (s : State) : State :=
  { s with
    regs := { s.regs with
      status := s.regs.status.raised r.kind
      errDetail := BitVec.ofNat 8 r.detail
      errIndex := sat32 r.index }
    scratch := { s.scratch with run := none } }

/-- R257: `finish()`. -/
def finish (s : State) : State :=
  { s with
    regs := { s.regs with status := s.regs.status.finished }
    scratch := { s.scratch with run := none } }

/-! ### The engine's accesses (R10) -/

/-- R89: whether the host has broken its duty towards the running command, the last one issued. Then every value the engine reads
and every word it writes is a draw, whichever word the host touched (notes/assumptions/7.md). -/
def dutyBroken (s : State) : Bool := s.held.head?.any (·.broken)

/-- `MemRead(addr, 4)` (R10). Where the host broke its duty (R89) it reads a free value. -/
def memRead (s : State) (a : Nat) : Except Raise Word :=
  if s.plat.errs a then .error (busRaise .read a)
  else .ok (if dutyBroken s then Config.freeWord s.draws a else s.mem.word a)

/-- What an access that errs would have read: the contents of an unreadable word are a free value. It only serves to say how far a
unit's output and windows reach (R259, R260; notes/assumptions/9.md). -/
def quietRead (s : State) (a : Nat) : Except Raise Word :=
  .ok (if s.plat.errs a || dutyBroken s then Config.freeWord s.draws a else s.mem.word a)

/-- `InRd(i)` (R10). -/
def inRd (s : State) (i : Nat) : Except Raise Word := memRead s (s.regs.inBase.toNat + 4 * i)

/-- `OutRd(i)` (R10). -/
def outRd (s : State) (i : Nat) : Except Raise Word := memRead s (s.regs.outBase.toNat + 4 * i)

/-- `BwRd(k)` (R10). -/
def bwRd (s : State) (k : Nat) : Except Raise Word := memRead s (s.regs.bwBase.toNat + 4 * k)

/-- `InRd(i)` with no bus error. -/
def quietIn (s : State) (i : Nat) : Except Raise Word := quietRead s (s.regs.inBase.toNat + 4 * i)

/-- `BwRd(k)` with no bus error. -/
def quietBw (s : State) (k : Nat) : Except Raise Word := quietRead s (s.regs.bwBase.toNat + 4 * k)

/-- Reads of `n` consecutive words from index `i`, in order; the first error ends them. -/
def readRun (rd : Nat → Except Raise Word) (i : Nat) : Nat → Except Raise (List Word)
  | 0 => .ok []
  | n + 1 =>
    match rd i with
    | .error r => .error r
    | .ok w =>
      match readRun rd (i + 1) n with
      | .error r => .error r
      | .ok ws => .ok (w :: ws)

/-- The first of the `n` writes upward from byte address `a` that the platform answers with an error (R10). -/
def writeFault (p : Platform) (a : Nat) : Nat → Option Raise
  | 0 => none
  | n + 1 => if p.errs a then some (busRaise .write a) else writeFault p (a + 4) n

/-- `n` free words for the addresses upward from `a`, all of draw `d`. -/
def freeWords (d a : Nat) : Nat → List Word
  | 0 => []
  | n + 1 => Config.freeWord d a :: freeWords d (a + 4) n

/-- `OutWr` of consecutive words (R10): what each word ends as. Where the host broke its duty (R89) each ends as a free value. -/
def writtenWords (s : State) (a : Nat) (vs : List Word) : List Word :=
  if dutyBroken s then freeWords (s.draws + 1) a vs.length else vs

/-- The byte address of output index `i` (R46). -/
def outAddr (s : State) (i : Nat) : Nat := s.regs.outBase.toNat + 4 * i

/-- R259: the `n` output words from index `lo` become unspecified. -/
def scramble (lo n : Nat) (s : State) : State :=
  { s with mem := s.mem.setWords (outAddr s lo) (freeWords (s.draws + 1) (outAddr s lo) n) }

/-! ### Windows and issue (R39, R84) -/

/-- R40: `act.BS`. -/
def actBS (s : State) : Nat := s.regs.actBlockSize.toNat

/-- R40: `act.PS`. -/
def actPS (s : State) : Nat := s.regs.actPageSize.toNat

/-- R6: `PW = log2(act.BS)`. -/
def posWidth (s : State) : Nat := (actBS s).log2

/-- R210: `NB = floor(IN_LEN / act.BS)`. -/
def blockCount (s : State) : Nat := s.regs.inLen.toNat / actBS s

/-- The running cursors at issue (R52): IN_CUR and OUT_CUR. -/
def issueRun (s : State) : Run :=
  { icur0 := s.regs.inCur.toNat, ocur0 := s.regs.outCur.toNat,
    icur := s.regs.inCur.toNat, ocur := s.regs.outCur.toNat, k := 0 }

/-- The running command's cursors: those of scratch once started, those at issue before (R52). -/
def currentRun (s : State) : Run := s.scratch.run.getD (issueRun s)

/-- The range that holds no byte. -/
def AddrRange.empty : AddrRange := { lo := 0, hi := 0 }

/-- A command without windows (R80). -/
def noWindows : Windows := { inWin := .empty, outWin := .empty, tabWin := .empty }

/-- R84: the input window `[icur0, icur0 + IN_LEN)` and the output window `[ocur0, OUT_BOUND)`, and no table. -/
def baseWindows (s : State) : Windows where
  inWin := wordRange s.regs.inBase.toNat (currentRun s).icur0 s.regs.inLen.toNat
  outWin := wordRange s.regs.outBase.toNat (currentRun s).ocur0 (s.regs.outBound.toNat - (currentRun s).ocur0)
  tabWin := .empty

/-- R84: EXC_PATCH's output window is `[ocur0, ocur0 + ARG_COUNT)`. -/
def patchWindows (s : State) : Windows :=
  { baseWindows s with outWin := wordRange s.regs.outBase.toNat (currentRun s).ocur0 s.regs.argCount.toNat }

/-- R84: ENCODE's windows, the entries `[0, NB)` of the bit-width table among them. -/
def encodeWindows (s : State) : Windows :=
  { baseWindows s with tabWin := wordRange s.regs.bwBase.toNat 0 (blockCount s) }

/-- R80, R84: a command's windows. -/
def windowsOf (i : Instr) (s : State) : Windows :=
  match i with
  | .nop => noWindows
  | .config => noWindows
  | .pack _ => baseWindows s
  | .unpack _ => baseWindows s
  | .excExtract _ => baseWindows s
  | .excPatch => patchWindows s
  | .hdrParse => baseWindows s
  | .encode => encodeWindows s
  | .decode => baseWindows s

/-- The windows of the command in CMD; an illegal word has none (R113). -/
def commandWindows (s : State) : Option Windows :=
  match decode s.regs.cmd with
  | .error _ => none
  | .ok i => some (windowsOf i s)

/-- From here on the host must keep away from the windows of the command in CMD, and still from those of every earlier command whose end
it has not observed: R89 names no other end of a span than an observation, so a second issue ends none
(notes/assumptions/7.md). -/
def holdWindows (s : State) : State :=
  { s with held := (commandWindows s).toList.map (Held.mk · false) ++ s.held }

/-- R39: an accepted CMD write of `w`. Scratch is reset at the start of every command (R54), and R89's span begins. -/
def issue (w : Word) (s : State) : State :=
  holdWindows { s with
    regs := { s.regs with
      cmd := w
      status := s.regs.status.issue w
      errDetail := 0#8
      errIndex := 0#32 }
    scratch := Scratch.empty }

/-! ### The prologue (R85, R254) -/

/-- A memory command's windows and what its prologue checks. `table` is ENCODE's `NB` (none for the others), `count` the value
held against `act.BS` (InvalidInput detail 3), and `readsOut` says that the output window is also read (EXC_PATCH). -/
structure Plan extends Windows where
  table    : Option Nat
  count    : Option Nat
  readsOut : Bool
deriving DecidableEq, Repr

/-- The plan of a command with the windows of R84 and no further check. -/
def basePlan (s : State) : Plan := { baseWindows s with table := none, count := none, readsOut := false }

/-- R83: a buffer of `n` words at `base` is refused when misaligned or passing `2^AW`. -/
def badBuffer (p : Platform) (base n : Nat) : Bool := base % 4 != 0 || decide (2 ^ p.aw < base + 4 * n)

/-- R254: `prologue(bw, count)`, the first failing check. -/
def prologue (s : State) (p : Plan) : Option Raise :=
  let r := s.regs
  if r.inBound.toNat < r.inCur.toNat then
    some { kind := .invalidOffset, detail := 1, index := r.inCur.toNat }
  else if r.outBound.toNat < r.outCur.toNat then
    some { kind := .invalidOffset, detail := 2, index := r.outCur.toNat }
  else if badBuffer s.plat r.inBase.toNat r.inBound.toNat then
    some { kind := .invalidOffset, detail := 3, index := r.inBase.toNat }
  else if badBuffer s.plat r.outBase.toNat r.outBound.toNat then
    some { kind := .invalidOffset, detail := 4, index := r.outBase.toNat }
  else if p.table.any (badBuffer s.plat r.bwBase.toNat) then
    some { kind := .invalidOffset, detail := 5, index := r.bwBase.toNat }
  else if r.inBound.toNat - r.inCur.toNat < r.inLen.toNat then
    some { kind := .invalidInput, detail := 1, index := r.inLen.toNat }
  else if p.count.any (fun n => decide (r.actBlockSize.toNat < n)) then
    some { kind := .invalidInput, detail := 3, index := p.count.getD 0 }
  else if p.inWin.overlaps p.outWin then
    some { kind := .invalidInput, detail := 2, index := 0 }
  else if p.table.isSome && p.tabWin.overlaps p.outWin then
    some { kind := .invalidInput, detail := 5, index := 0 }
  else none

/-- The command's cursors, its prologue run first if it has not started (R254, R52). -/
def started (s : State) (p : Plan) : Except Raise Run :=
  match s.scratch.run with
  | some run => .ok run
  | none =>
    match prologue s p with
    | some r => .error r
    | none => .ok (issueRun s)

/-! ### One unit of a command (R258) -/

/-- What a unit that succeeds leaves: the words it writes from its output cursor upward, the input words and the counter
amounts of its commit, how far `k` moves, and the scratch it used. -/
structure UnitDone where
  words   : List Word
  used    : Nat
  rd      : Nat
  exc     : Nat
  units   : Nat
  groups  : List Group := []
  buckets : List Bucket := []
deriving DecidableEq, Repr

/-- The running cursors after a unit's commit (R258). -/
def Run.after (run : Run) (d : UnitDone) : Run :=
  { run with icur := run.icur + d.used, ocur := run.ocur + d.words.length, k := run.k + d.units }

/-- R258: the unit's writes, then `commit(in, out, rd, wr, exc)` with `out = wr` = the words written. -/
def commitUnit (run : Run) (d : UnitDone) (s : State) : State :=
  { s with
    mem := s.mem.setWords (outAddr s run.ocur) (writtenWords s (outAddr s run.ocur) d.words)
    regs := { s.regs with
      inCur := BitVec.ofNat 32 (run.icur + d.used)
      outCur := BitVec.ofNat 32 (run.ocur + d.words.length)
      cntRd := s.regs.cntRd + BitVec.ofNat 32 d.rd
      cntWr := s.regs.cntWr + BitVec.ofNat 32 d.words.length
      cntExc := s.regs.cntExc + BitVec.ofNat 32 d.exc }
    scratch := { run := some (run.after d), groups := d.groups, buckets := d.buckets }
    draws := s.draws + 2 }

/-- How many words a unit's output range takes (R259): its output's length `n` inside the buffer (R86), and all that is left of the
buffer where the words that give the length are invalid, so that the unit has none (notes/assumptions/9.md). -/
def outputExtent (s : State) (run : Run) (n : Option Nat) : Nat :=
  let room := s.regs.outBound.toNat - run.ocur
  match n with
  | none => room
  | some n => min n room

/-- A command's units (R258) at given cursors: whether one is left, what it does, the length of its output (none where the words that
give it are invalid), and its windows (R260). -/
structure Units where
  more   : Run → Bool
  unit   : Run → Except Raise UnitDone
  extent : Run → Option Nat
  win    : Run → Windows

/-- A unit's output range (R259), as index and length: its output from the running cursor on. -/
def unitRange (s : State) (u : Units) (run : Run) : Nat × Nat := (run.ocur, outputExtent s run (u.extent run))

/-- R259, R260: end the command with an error met in a unit. A bus error leaves the unit's output range unspecified, any
other error what it says itself. -/
def abortUnit (u : Units) (run : Run) (r : Raise) (s : State) : State :=
  let dirty := if r.kind = .busError then some (unitRange s u run) else r.dirty
  let s1 :=
    match dirty with
    | none => s
    | some (lo, n) => scramble lo n s
  raiseError r { s1 with draws := s.draws + 2 }

/-! ### Bus errors (R260) -/

/-- Whether some erroring range shares a byte with these windows. -/
def touchesBusErr (s : State) (w : Windows) : Bool :=
  s.plat.busErr.any fun r => r.overlaps w.inWin || r.overlaps w.tabWin || r.overlaps w.outWin

/-- R260 (b): an erroring word of the unit's windows, on the side on which the unit may access it. -/
def admitsPick (s : State) (readsOut : Bool) (w : Windows) (k : Config.BusPick) : Bool :=
  k.addr % 4 == 0 && s.plat.errs k.addr &&
    match k.side with
    | .read => w.inWin.has k.addr || w.tabWin.has k.addr || (readsOut && w.outWin.has k.addr)
    | .write => w.outWin.has k.addr

/-- R260: none for outcome (a), an error for outcome (b). Which one is a free value where the unit's windows touch an erroring
address, and (a) elsewhere. -/
def busOutcome (s : State) (readsOut : Bool) (w : Windows) : Option Raise :=
  if touchesBusErr s w then
    match Config.busPick s.draws with
    | none => none
    | some k => if admitsPick s readsOut w k then some (busRaise k.side k.addr) else none
  else none

/-- One move of the engine for a memory command: the prologue if the command has not started, then its next unit with the bus
outcome of R260, then `finish()` when no unit is left. -/
def turn (p : Plan) (u : Units) (s : State) : State :=
  match started s p with
  | .error r => raiseError r s
  | .ok run =>
    if u.more run then
      match busOutcome s p.readsOut (u.win run) with
      | some r => abortUnit u run r s
      | none =>
        match u.unit run with
        | .error r => abortUnit u run r s
        | .ok d =>
          match writeFault s.plat (outAddr s run.ocur) d.words.length with
          | some r => abortUnit u run r s
          | none =>
            if u.more (run.after d) then commitUnit run d s else finish (commitUnit run d s)
    else finish s

/-- The commands that are one unit (R258): the unit is left until it has committed, and its windows are the command's. -/
def oneUnit (p : Plan) (extent : Run → Option Nat) (unit : Run → Except Raise UnitDone) : Units :=
  { more := fun run => run.k == 0, unit := unit, extent := extent, win := fun _ => p.toWindows }

/-- R250 code 3: the unit's output does not fit; the bound that would suffice. -/
def noSpace (bound : Nat) : Raise := { kind := .insufficientOutputSpace, detail := 0, index := bound }

/-- R250 code 5. -/
def corrupt (detail index : Nat) : Raise := { kind := .corruptStream, detail := detail, index := index }

end Sys2Proof.Machine
end

