-- ==== Sys2Proof/Machine/Control.lean ====
section
/-! DEFINITION. The control commands NOP and CONFIG (40_control.md). -/

namespace Sys2Proof.Machine

/-- NOP (R150): `finish()` and nothing else. -/
def execNop (s : State) : Host.Outcome State Fault Refusal := .next (finish s)

/-- R151: the first failing check of CONFIG. -/
def configError (bs ps : Nat) : Option Raise :=
  if !Config.blockSizes.contains bs then some { kind := .invalidConfiguration, detail := 1, index := bs }
  else if ps == 0 || ps % bs != 0 then some { kind := .invalidConfiguration, detail := 2, index := ps }
  else if Config.maxPageBlocks < ps / bs then some { kind := .invalidConfiguration, detail := 3, index := ps }
  else none

/-- R151: install the staged pair. -/
def installConfig (s : State) : State :=
  { s with regs := { s.regs with actBlockSize := s.regs.cfgBlockSize, actPageSize := s.regs.cfgPageSize } }

/-- CONFIG (R151). -/
def execConfig (s : State) : Host.Outcome State Fault Refusal :=
  match configError s.regs.cfgBlockSize.toNat s.regs.cfgPageSize.toNat with
  | some r => .next (raiseError r s)
  | none => .next (finish (installConfig s))

end Sys2Proof.Machine
end

