-- ==== Sys2Proof/Machine/Exceptions.lean ====
section
/-! DEFINITION. The exception commands EXC_EXTRACT and EXC_PATCH, and the parse and patch procedures they share with the
frame decoder (42_exceptions.md R188 to R195). Reads go through an index reader `rd`, which is `InRd` in the commands. -/

namespace Sys2Proof.Machine

/-! ### Parsing a descriptor group (R188) -/

/-- R188: the `nb` bucket words from index `j`, checked in stream order. -/
def readBuckets (rd : Nat → Except Raise Word) (bs wend b j : Nat) : Nat → Except Raise (List BucketInfo)
  | 0 => .ok []
  | nb + 1 =>
    if wend ≤ j then .error (corrupt 1 wend)
    else
      match rd j with
      | .error r => .error r
      | .ok w =>
        if !validB bs w b then .error (corrupt 4 j)
        else
          match readBuckets rd bs wend b (j + 1) nb with
          | .error r => .error r
          | .ok ks => .ok ({ e := field w 0 6, c := field w 8 10 } :: ks)

/-- R188: `readGroup(j, wend)`. -/
def readGroup (rd : Nat → Except Raise Word) (bs wend j : Nat) : Except Raise Group :=
  if wend ≤ j then .error (corrupt 1 wend)
  else
    match rd j with
    | .error r => .error r
    | .ok d =>
      if !validD d then .error (corrupt 3 j)
      else
        match readBuckets rd bs wend (field d 0 6) (j + 1) (field d 8 6) with
        | .error r => .error r
        | .ok ks => .ok { d := d, b := field d 0 6, buckets := ks }

/-- R188: the words of a descriptor group, so that `next = j + 1 + nb`. -/
def groupLen (g : Group) : Nat := 1 + g.buckets.length

/-! ### Patching (R189) -/

/-- R189: one bucket's exceptions, from number `k` on and position `pos` before its delta; `q` is the IN index of the delta
run. The OR happens at each rebuilt position. -/
def patchBucket (n b pw q : Nat) (k pos : Nat) : List (Word × Word) → List Word → Except Raise (List Word)
  | [], x => .ok x
  | (d, h) :: es, x =>
    if n ≤ pos + d.toNat then .error (corrupt 5 (q + k * pw / 32))
    else patchBucket n b pw q (k + 1) (pos + d.toNat) es (x.modify (pos + d.toNat) (· ||| h <<< b))

/-- R189: `patch`, bucket by bucket: the delta run, the high-bit run, then the exceptions. -/
def patch (rd : Nat → Except Raise Word) (n b pw : Nat) (q : Nat) :
    List BucketInfo → List Word → Except Raise (List Word)
  | [], x => .ok x
  | t :: ts, x =>
    match readRun rd q (packedLen t.c pw) with
    | .error r => .error r
    | .ok dw =>
      match readRun rd (q + packedLen t.c pw) (packedLen t.c t.e) with
      | .error r => .error r
      | .ok hw =>
        match patchBucket n b pw q 0 0 ((unpack dw t.c pw).zip (unpack hw t.c t.e)) x with
        | .error r => .error r
        | .ok x' => patch rd n b pw (q + packedLen t.c pw + packedLen t.c t.e) ts x'

/-! ### EXC_EXTRACT (R190) -/

/-- EXC_EXTRACT's windows and its count check on IN_LEN. -/
def extractPlan (s : State) : Plan := { basePlan s with count := some s.regs.inLen.toNat }

/-- R190: EXC_EXTRACT's unit. -/
def extractUnit (b : Nat) (s : State) (run : Run) : Except Raise UnitDone :=
  let n := s.regs.inLen.toNat
  match readRun (inRd s) run.icur n with
  | .error r => .error r
  | .ok vals =>
    let rec' := record (posWidth s) vals b
    if s.regs.outBound.toNat < run.ocur + rec'.length then .error (noSpace (run.ocur + rec'.length))
    else
      .ok { words := rec', used := n, rd := n, exc := exceptionCount (buckets vals b), units := 1,
            groups := [groupOf b (buckets vals b)], buckets := buckets vals b }

/-- R190: the record's length, from the values. -/
def extractExtent (b : Nat) (s : State) (run : Run) : Option Nat :=
  match readRun (quietIn s) run.icur s.regs.inLen.toNat with
  | .error _ => none
  | .ok vals => some (record (posWidth s) vals b).length

/-- R190: EXC_EXTRACT is one unit, the record its output. -/
def extractUnits (b : Nat) (s : State) : Units := oneUnit (extractPlan s) (extractExtent b s) (extractUnit b s)

/-- EXC_EXTRACT b (R190). -/
def execExcExtract (b : BitVec 6) (s : State) : Host.Outcome State Fault Refusal :=
  .next (turn (extractPlan s) (extractUnits b.toNat s) s)

/-! ### EXC_PATCH (R195) -/

/-- EXC_PATCH's windows, the output window read and written (R84), and its count check on ARG_COUNT. -/
def patchPlan (s : State) : Plan :=
  { patchWindows s with table := none, count := some s.regs.argCount.toNat, readsOut := true }

/-- R195: EXC_PATCH's unit. -/
def patchUnit (s : State) (run : Run) : Except Raise UnitDone :=
  let n := s.regs.argCount.toNat
  let wend := run.icur + s.regs.inLen.toNat
  if s.regs.outBound.toNat < run.ocur + n then .error (noSpace (run.ocur + n))
  else
    match readGroup (inRd s) (actBS s) wend run.icur with
    | .error r => .error r
    | .ok g =>
      let r := run.icur + groupLen g
      if wend < r + xlen (posWidth s) g.buckets then .error (corrupt 1 wend)
      else
        match readRun (outRd s) run.ocur n with
        | .error e => .error e
        | .ok x =>
          match patch (inRd s) n g.b (posWidth s) r g.buckets x with
          | .error e => .error e
          | .ok x' =>
            .ok { words := x', used := groupLen g + xlen (posWidth s) g.buckets,
                  rd := groupLen g + xlen (posWidth s) g.buckets, exc := groupExceptions g.buckets, units := 1,
                  groups := [g] }

/-- R195: EXC_PATCH is one unit of ARG_COUNT output words. -/
def patchUnits (s : State) : Units := oneUnit (patchPlan s) (fun _ => some s.regs.argCount.toNat) (patchUnit s)

/-- EXC_PATCH (R195). -/
def execExcPatch (s : State) : Host.Outcome State Fault Refusal :=
  .next (turn (patchPlan s) (patchUnits s) s)

end Sys2Proof.Machine
end

