-- ==== Sys2Proof/Machine/Frame.lean ====
section
/-! DEFINITION. The page and frame commands HDR_PARSE, ENCODE and DECODE (43_frame.md). -/

namespace Sys2Proof.Machine

/-! ### The header parser (R221, R222) -/

/-- R221: `n` descriptor groups from index `j`. -/
def readGroups (rd : Nat → Except Raise Word) (bs wend j : Nat) : Nat → Except Raise (List Group)
  | 0 => .ok []
  | n + 1 =>
    match readGroup rd bs wend j with
    | .error r => .error r
    | .ok g =>
      match readGroups rd bs wend (j + groupLen g) n with
      | .error r => .error r
      | .ok gs => .ok (g :: gs)

/-- A parsed page header: H0 and its descriptor groups. -/
structure Header where
  h      : Word
  groups : List Group
deriving DecidableEq, Repr

/-- R124: `HLEN`. -/
def Header.hlen (p : Header) : Nat := 1 + (p.groups.map groupLen).sum

/-- R222: `PLEN`. -/
def Header.plen (bs : Nat) (p : Header) : Nat := p.hlen + (p.groups.map (blen bs)).sum

/-- R222: `OFF_i` for every block. -/
def Header.offsets (bs : Nat) (p : Header) : List Nat := bodyOffsets bs p.hlen p.groups

/-- R221: `readHeader(j0, wend)`. -/
def readHeader (rd : Nat → Except Raise Word) (bs ps wend j0 : Nat) : Except Raise Header :=
  if wend ≤ j0 then .error (corrupt 1 wend)
  else
    match rd j0 with
    | .error r => .error r
    | .ok h =>
      if !validH0 bs ps h then .error (corrupt 2 j0)
      else
        match readGroups rd bs wend (j0 + 1) (field h 8 24) with
        | .error r => .error r
        | .ok gs =>
          let p : Header := { h := h, groups := gs }
          if wend < j0 + p.plen bs then .error (corrupt 1 wend) else .ok p

/-- R123, R221: the block count of the page at IN index `j0`, from its H0 alone; none where the window ends before it or it is
invalid. -/
def pageBlockCount (s : State) (wend j0 : Nat) : Option Nat :=
  if wend ≤ j0 then none
  else
    match quietIn s j0 with
    | .error _ => none
    | .ok h => if validH0 (actBS s) (actPS s) h then some (field h 8 24) else none

/-! ### HDR_PARSE (R230) -/

/-- R126: the metadata table of a page. -/
def metaTable (bs : Nat) (p : Header) : List Word :=
  p.h :: BitVec.ofNat 32 p.hlen :: BitVec.ofNat 32 (p.plen bs) ::
    (p.groups.zip (p.offsets bs)).flatMap fun x =>
      [x.1.d, BitVec.ofNat 32 x.2, BitVec.ofNat 32 (blen bs x.1)]

/-- HDR_PARSE's windows. -/
def parsePlan (s : State) : Plan := basePlan s

/-- R230: HDR_PARSE's unit. -/
def parseUnit (s : State) (run : Run) : Except Raise UnitDone :=
  match readHeader (inRd s) (actBS s) (actPS s) (run.icur + s.regs.inLen.toNat) run.icur with
  | .error r => .error r
  | .ok p =>
    let t := metaTable (actBS s) p
    if s.regs.outBound.toNat < run.ocur + t.length then .error (noSpace (run.ocur + t.length))
    else .ok { words := t, used := p.hlen, rd := p.hlen, exc := 0, units := 1, groups := p.groups }

/-- R126, R230: the table's length, from H0's block count. -/
def parseExtent (s : State) (run : Run) : Option Nat :=
  (pageBlockCount s (run.icur + s.regs.inLen.toNat) run.icur).map fun n => 3 + 3 * n

/-- R230: HDR_PARSE is one unit, the table its output. -/
def parseUnits (s : State) : Units := oneUnit (parsePlan s) (parseExtent s) (parseUnit s)

/-- HDR_PARSE (R230). -/
def execHdrParse (s : State) : Host.Outcome State Fault Refusal :=
  .next (turn (parsePlan s) (parseUnits s) s)

/-! ### ENCODE (R210, R232) -/

/-- R210: `BPP = act.PS / act.BS`. -/
def pageBlocks (s : State) : Nat := actPS s / actBS s

/-- ENCODE's windows and its checks on the bit-width table (R83, R84). -/
def encodePlan (s : State) : Plan :=
  { encodeWindows s with table := some (blockCount s), count := none, readsOut := false }

/-- R232: the `n` bit-width table entries from entry `k`, each checked as it is read. -/
def readWidths (rd : Nat → Except Raise Word) (k : Nat) : Nat → Except Raise (List Nat)
  | 0 => .ok []
  | n + 1 =>
    match rd k with
    | .error r => .error r
    | .ok w =>
      if !validBW w then .error { kind := .invalidInput, detail := 4, index := k }
      else
        match readWidths rd (k + 1) n with
        | .error r => .error r
        | .ok bs => .ok (field w 0 6 :: bs)

/-- R232: the blocks of ENCODE's next page, `n = min(BPP, NB - k)`. -/
def pageCount (s : State) (run : Run) : Nat := min (pageBlocks s) (blockCount s - run.k)

/-- R232: ENCODE's next page as read, the table's entries first: each block with its width. -/
def readPage (bw rd : Nat → Except Raise Word) (s : State) (run : Run) : Except Raise (List (List Word × Nat)) :=
  match readWidths bw run.k (pageCount s run) with
  | .error r => .error r
  | .ok ws =>
    match readRun rd run.icur (pageCount s run * actBS s) with
    | .error r => .error r
    | .ok vals => .ok ((blocksOf (actBS s) (pageCount s run) vals).zip ws)

/-- R232: ENCODE's unit, its next page. -/
def encodeUnit (s : State) (run : Run) : Except Raise UnitDone :=
  match readPage (bwRd s) (inRd s) s run with
  | .error r => .error r
  | .ok blks =>
    let page := encPage (actBS s) blks
    let ks := blks.map fun x => buckets x.1 x.2
    if s.regs.outBound.toNat < run.ocur + page.length then .error (noSpace (run.ocur + page.length))
    else
      .ok { words := page, used := pageCount s run * actBS s, rd := pageCount s run * actBS s + pageCount s run,
            exc := (ks.map exceptionCount).sum, units := pageCount s run,
            groups := blks.map fun x => groupOf x.2 (buckets x.1 x.2), buckets := ks.getLastD [] }

/-- R212, R232: the page's length, from its values and widths; none where a table entry is invalid. -/
def encodeExtent (s : State) (run : Run) : Option Nat :=
  match readPage (quietBw s) (quietIn s) s run with
  | .error _ => none
  | .ok blks => some (encPage (actBS s) blks).length

/-- R232: a page's own part of ENCODE's windows: its values, its table entries, its output, which is all that is left of the output
window where a table entry is invalid (notes/assumptions/6.md). -/
def encodeUnitWindows (s : State) (run : Run) : Windows where
  inWin := wordRange s.regs.inBase.toNat run.icur (pageCount s run * actBS s)
  outWin := wordRange s.regs.outBase.toNat run.ocur (outputExtent s run (encodeExtent s run))
  tabWin := wordRange s.regs.bwBase.toNat run.k (pageCount s run)

/-- R232: a page is left while `k < NB`. -/
def encodeUnits (s : State) : Units where
  more run := decide (run.k < blockCount s)
  unit := encodeUnit s
  extent := encodeExtent s
  win := encodeUnitWindows s

/-- ENCODE (R232): one page per move of the engine (R258). -/
def execEncode (s : State) : Host.Outcome State Fault Refusal :=
  .next (turn (encodePlan s) (encodeUnits s) s)

/-! ### DECODE (R223, R236) -/

/-- R223: the values of one block whose body is at IN index `a`: the main run, then its exceptions. -/
def decodeBlock (rd : Nat → Except Raise Word) (bs a : Nat) (g : Group) : Except Raise (List Word) :=
  match readRun rd a (bs * g.b / 32) with
  | .error r => .error r
  | .ok ws => patch rd bs g.b bs.log2 (a + bs * g.b / 32) g.buckets (unpack ws bs g.b)

/-- R223: the blocks from number `i` on, with the index of each body and the byte address `o` each is written at. An error
after the first write of the page leaves the page's output range `dirty` unspecified (R259). -/
def decodeBlocks (rd : Nat → Except Raise Word) (p : Platform) (bs : Nat) (dirty : Nat × Nat) (i o : Nat) :
    List (Group × Nat) → Except Raise (List Word)
  | [] => .ok []
  | (g, a) :: gs =>
    match decodeBlock rd bs a g with
    | .error r => .error { r with dirty := if i = 0 then none else some dirty }
    | .ok x =>
      match writeFault p o bs with
      | some r => .error r
      | none =>
        match decodeBlocks rd p bs dirty (i + 1) (o + 4 * bs) gs with
        | .error r => .error r
        | .ok xs => .ok (x ++ xs)

/-- R223: `decodePage(j0, wend, o0)`, DECODE's unit. -/
def decodeUnit (s : State) (run : Run) : Except Raise UnitDone :=
  let bs := actBS s
  match readHeader (inRd s) bs (actPS s) (run.icur0 + s.regs.inLen.toNat) run.icur with
  | .error r => .error r
  | .ok p =>
    let len := p.groups.length * bs
    if s.regs.outBound.toNat < run.ocur + len then .error (noSpace (run.ocur + len))
    else
      match decodeBlocks (inRd s) s.plat bs (run.ocur, len) 0 (outAddr s run.ocur)
          (p.groups.zip ((p.offsets bs).map (run.icur + ·))) with
      | .error r => .error r
      | .ok xs =>
        .ok { words := xs, used := p.plen bs, rd := p.plen bs, exc := (p.groups.map fun g => groupExceptions g.buckets).sum,
              units := 1, groups := p.groups }

/-- DECODE's windows. -/
def decodePlan (s : State) : Plan := basePlan s

/-- R223: the page's header as it stands, read with no bus error. -/
def quietHeader (s : State) (run : Run) : Except Raise Header :=
  readHeader (quietIn s) (actBS s) (actPS s) (run.icur0 + s.regs.inLen.toNat) run.icur

/-- R223: `n*act.BS`, from H0's block count. -/
def decodeExtent (s : State) (run : Run) : Option Nat :=
  (pageBlockCount s (run.icur0 + s.regs.inLen.toNat) run.icur).map (· * actBS s)

/-- R222, R223: a page's own part of DECODE's windows: its `PLEN` words, or all that is left of the input window where the header is
corrupt, and its `n*act.BS` output words, or all that is left of the output window where H0 is invalid
(notes/assumptions/6.md). -/
def decodeUnitWindows (s : State) (run : Run) : Windows where
  inWin := wordRange s.regs.inBase.toNat run.icur <|
    match quietHeader s run with
    | .error _ => run.icur0 + s.regs.inLen.toNat - run.icur
    | .ok p => p.plen (actBS s)
  outWin := wordRange s.regs.outBase.toNat run.ocur (outputExtent s run (decodeExtent s run))
  tabWin := .empty

/-- R236: a page is left while `icur < wend`. -/
def decodeUnits (s : State) : Units where
  more run := decide (run.icur < run.icur0 + s.regs.inLen.toNat)
  unit := decodeUnit s
  extent := decodeExtent s
  win := decodeUnitWindows s

/-- DECODE (R236): one page per move of the engine (R258). -/
def execDecode (s : State) : Host.Outcome State Fault Refusal :=
  .next (turn (decodePlan s) (decodeUnits s) s)

end Sys2Proof.Machine
end

