-- ==== Sys2Proof/Machine/Packing.lean ====
section
/-! DEFINITION. The bit-packing commands PACK and UNPACK (41_packing.md R164, R165). -/

namespace Sys2Proof.Machine

/-- PACK's windows. -/
def packPlan (s : State) : Plan := basePlan s

/-- R164: PACK's unit. -/
def packUnit (b : Nat) (s : State) (run : Run) : Except Raise UnitDone :=
  let n := s.regs.inLen.toNat
  if s.regs.outBound.toNat < run.ocur + packedLen n b then .error (noSpace (run.ocur + packedLen n b))
  else
    match readRun (inRd s) run.icur n with
    | .error r => .error r
    | .ok vals => .ok { words := pack vals b, used := n, rd := n, exc := 0, units := 1 }

/-- R164: PACK is one unit of `PL(IN_LEN, b)` output words. -/
def packUnits (b : Nat) (s : State) : Units :=
  oneUnit (packPlan s) (fun _ => some (packedLen s.regs.inLen.toNat b)) (packUnit b s)

/-- PACK b (R164). -/
def execPack (b : BitVec 6) (s : State) : Host.Outcome State Fault Refusal :=
  .next (turn (packPlan s) (packUnits b.toNat s) s)

/-- UNPACK's windows. -/
def unpackPlan (s : State) : Plan := basePlan s

/-- R165: UNPACK's unit. -/
def unpackUnit (b : Nat) (s : State) (run : Run) : Except Raise UnitDone :=
  let n := s.regs.argCount.toNat
  let m := packedLen n b
  if s.regs.inLen.toNat < m then .error (corrupt 1 (run.icur + s.regs.inLen.toNat))
  else if s.regs.outBound.toNat < run.ocur + n then .error (noSpace (run.ocur + n))
  else
    match readRun (inRd s) run.icur m with
    | .error r => .error r
    | .ok words => .ok { words := unpack words n b, used := m, rd := m, exc := 0, units := 1 }

/-- R165: UNPACK is one unit of ARG_COUNT output words. -/
def unpackUnits (b : Nat) (s : State) : Units :=
  oneUnit (unpackPlan s) (fun _ => some s.regs.argCount.toNat) (unpackUnit b s)

/-- UNPACK b (R165). -/
def execUnpack (b : BitVec 6) (s : State) : Host.Outcome State Fault Refusal :=
  .next (turn (unpackPlan s) (unpackUnits b.toNat s) s)

end Sys2Proof.Machine
end

