-- ==== Sys2Proof/Machine/Dispatch.lean ====
section
/-! DEFINITION. One arm per command: the command map of 30_encoding.md R112. -/

namespace Sys2Proof.Machine

def exec (i : Instr) (s : State) : Host.Outcome State Fault Refusal :=
  match i with
  | .nop => Sys2Proof.Machine.execNop s
  | .config => Sys2Proof.Machine.execConfig s
  | .pack b => Sys2Proof.Machine.execPack b s
  | .unpack b => Sys2Proof.Machine.execUnpack b s
  | .excExtract b => Sys2Proof.Machine.execExcExtract b s
  | .excPatch => Sys2Proof.Machine.execExcPatch s
  | .hdrParse => Sys2Proof.Machine.execHdrParse s
  | .encode => Sys2Proof.Machine.execEncode s
  | .decode => Sys2Proof.Machine.execDecode s

end Sys2Proof.Machine
end

