-- ==== Sys2Proof/Machine/HostPort.lean ====
section
/-! DEFINITION. What the host does to the engine: register reads and writes (10_state.md R31 to R53), data-memory accesses
(20_memory.md R89), soft reset and `rst_n` (70_reset_and_hazards.md R290 to R292), and the notation of host programs
(30_encoding.md R116, R117). -/

namespace Sys2Proof.Machine

/-! ### The unit in flight -/

/-- The windows and units of a memory command; NOP and CONFIG have none (R80). -/
def commandOf (i : Instr) (s : State) : Option (Plan × Units) :=
  match i with
  | .nop => none
  | .config => none
  | .pack b => some (packPlan s, packUnits b.toNat s)
  | .unpack b => some (unpackPlan s, unpackUnits b.toNat s)
  | .excExtract b => some (extractPlan s, extractUnits b.toNat s)
  | .excPatch => some (patchPlan s, patchUnits s)
  | .hdrParse => some (parsePlan s, parseUnits s)
  | .encode => some (encodePlan s, encodeUnits s)
  | .decode => some (decodePlan s, decodeUnits s)

/-- The unit in flight while BUSY=1: its command's units and its cursors. None where the command raises before its first
access (an illegal word, a failing prologue) or has no unit left. -/
def unitInFlight (s : State) : Option (Units × Run) :=
  if s.regs.status.busy then
    match decode s.regs.cmd with
    | .error _ => none
    | .ok i =>
      match commandOf i s with
      | none => none
      | some (p, u) =>
        match started s p with
        | .error _ => none
        | .ok run => if u.more run then some (u, run) else none
  else none

/-! ### Reset (R290 to R292) -/

/-- R291, R292: the output range of a unit in flight becomes unspecified. -/
def dropUnit (s : State) : State :=
  match unitInFlight s with
  | none => s
  | some (u, run) =>
    { scramble (unitRange s u run).1 (unitRange s u run).2 s with draws := s.draws + 2 }

/-- R290: every register and the scratch at its reset value. Data memory, the platform and the host stay, and so does R89's span,
which ends only when the host observes BUSY=0 (notes/assumptions/7.md). -/
def resetRegisters (s : State) : State := { s with regs := Regs.reset, scratch := Scratch.empty }

/-- R291 and R292: soft reset and `rst_n` have one effect. -/
def resetEngine (s : State) : State := resetRegisters (dropUnit s)

/-! ### The register map (R31) -/

/-- The registers of R31. -/
inductive Reg where
  | id
  | version
  | ctrl
  | status
  | irqEn
  | cmd
  | cfgBlockSize
  | cfgPageSize
  | actBlockSize
  | actPageSize
  | inBase
  | inBound
  | inLen
  | inCur
  | outBase
  | outBound
  | outCur
  | argCount
  | bwBase
  | errDetail
  | errIndex
  | cntRd
  | cntWr
  | cntExc
deriving DecidableEq, Repr

/-- R31: a register's offset in the window. -/
def Reg.offset : Reg → Nat
  | .id => 0x00
  | .version => 0x04
  | .ctrl => 0x08
  | .status => 0x0C
  | .irqEn => 0x10
  | .cmd => 0x14
  | .cfgBlockSize => 0x18
  | .cfgPageSize => 0x1C
  | .actBlockSize => 0x20
  | .actPageSize => 0x24
  | .inBase => 0x28
  | .inBound => 0x2C
  | .inLen => 0x30
  | .inCur => 0x34
  | .outBase => 0x38
  | .outBound => 0x3C
  | .outCur => 0x40
  | .argCount => 0x44
  | .bwBase => 0x48
  | .errDetail => 0x4C
  | .errIndex => 0x50
  | .cntRd => 0x54
  | .cntWr => 0x58
  | .cntExc => 0x5C

/-- R31, in the table's order. -/
def Reg.all : List Reg :=
  [.id, .version, .ctrl, .status, .irqEn, .cmd, .cfgBlockSize, .cfgPageSize, .actBlockSize, .actPageSize, .inBase, .inBound,
   .inLen, .inCur, .outBase, .outBound, .outCur, .argCount, .bwBase, .errDetail, .errIndex, .cntRd, .cntWr, .cntExc]

/-- The register at an offset; none at a reserved offset (R31). -/
def Reg.at (off : Nat) : Option Reg := Reg.all.find? fun r => r.offset == off

/-- What a register reads (R33 to R51). A read has no side effect (R32). -/
def Reg.read (s : State) : Reg → Word
  | .id => Config.idWord
  | .version => Config.versionWord
  | .ctrl => 0#32
  | .status => s.regs.status.word
  | .irqEn => s.regs.irqEn.word
  | .cmd => s.regs.cmd
  | .cfgBlockSize => s.regs.cfgBlockSize
  | .cfgPageSize => s.regs.cfgPageSize
  | .actBlockSize => s.regs.actBlockSize
  | .actPageSize => s.regs.actPageSize
  | .inBase => s.regs.inBase
  | .inBound => s.regs.inBound
  | .inLen => s.regs.inLen
  | .inCur => s.regs.inCur
  | .outBase => s.regs.outBase
  | .outBound => s.regs.outBound
  | .outCur => s.regs.outCur
  | .argCount => s.regs.argCount
  | .bwBase => s.regs.bwBase
  | .errDetail => s.regs.errDetail.setWidth 32
  | .errIndex => s.regs.errIndex
  | .cntRd => s.regs.cntRd
  | .cntWr => s.regs.cntWr
  | .cntExc => s.regs.cntExc

/-- R43, R46, R48: bits 31:AW of a base register read 0 and ignore writes. At AW = 1 that and R43's "Bits 1:0 are stored as
written" disagree on bit 1 (of IN_BASE, and of OUT_BASE by R46); the model clears the bit: DESIGN CHOICE, unsafe (log 20). -/
def baseBits (p : Platform) (v : Word) : Word := BitVec.ofNat 32 (v.toNat % 2 ^ p.aw)

/-- An accepted register write (R33 to R51): RO registers ignore it (R32), CTRL.SOFT_RESET resets (R35), STATUS is W1C (R37),
CMD issues (R39). -/
def Reg.write (v : Word) (s : State) : Reg → State
  | .id => s
  | .version => s
  | .ctrl => if v.getLsbD 0 then resetEngine s else s
  | .status => { s with regs := { s.regs with status := s.regs.status.ackWrite v } }
  | .irqEn => { s with regs := { s.regs with irqEn := IrqEn.ofWord v } }
  | .cmd => issue v s
  | .cfgBlockSize => { s with regs := { s.regs with cfgBlockSize := v } }
  | .cfgPageSize => { s with regs := { s.regs with cfgPageSize := v } }
  | .actBlockSize => s
  | .actPageSize => s
  | .inBase => { s with regs := { s.regs with inBase := baseBits s.plat v } }
  | .inBound => { s with regs := { s.regs with inBound := v } }
  | .inLen => { s with regs := { s.regs with inLen := v } }
  | .inCur => { s with regs := { s.regs with inCur := v } }
  | .outBase => { s with regs := { s.regs with outBase := baseBits s.plat v } }
  | .outBound => { s with regs := { s.regs with outBound := v } }
  | .outCur => { s with regs := { s.regs with outCur := v } }
  | .argCount => { s with regs := { s.regs with argCount := v } }
  | .bwBase => { s with regs := { s.regs with bwBase := baseBits s.plat v } }
  | .errDetail => s
  | .errIndex => s
  | .cntRd => { s with regs := { s.regs with cntRd := v } }
  | .cntWr => { s with regs := { s.regs with cntWr := v } }
  | .cntExc => { s with regs := { s.regs with cntExc := v } }

/-- R53: the registers whose writes take effect while BUSY=1. -/
def Reg.openWhileBusy : Reg → Bool
  | .ctrl => true
  | .status => true
  | .irqEn => true
  | _ => false

/-! ### Register-port accesses (R31, R32, R53) -/

/-- R31: the offset of a host address inside the 256-byte register window. -/
def windowOffset (p : Platform) (addr : Nat) : Option Nat :=
  if p.regBase ≤ addr ∧ addr < p.regBase + 256 then some (addr - p.regBase) else none

/-- R32: only a 32-bit access at a multiple of 4 is taken. -/
def goodAccess (off : Nat) (width : AccessWidth) : Bool := width == .word && off % 4 == 0

/-- R89, R90: the host observes that no command is running, which ends its duty to keep away from the windows of all of them. While BUSY=1 there is
nothing to observe. -/
def observe (s : State) : State :=
  if s.regs.status.busy then s else { s with held := [] }

/-- R89: what reading a register tells the host: STATUS shows it BUSY. -/
def Reg.observed (s : State) (r : Reg) : State := if r = .status then observe s else s

/-- A register-port read (R31, R32): data, 0 at a reserved offset, or a slave error. -/
def regRead (addr : Nat) (width : AccessWidth) (s : State) : State :=
  match windowOffset s.plat addr with
  | none => { s with reply := .none }
  | some off =>
    if goodAccess off width then
      match Reg.at off with
      | none => { s with reply := .data 0#32 }
      | some r => { r.observed s with reply := .data (r.read s) }
    else { s with reply := .slaveError }

/-- R53: what an aligned word write at an offset does. While BUSY=1 every register but three ignores it and sets WBUSY. -/
def regWriteAt (off : Nat) (v : Word) (s : State) : State :=
  if s.regs.status.busy && !(Reg.at off).any Reg.openWhileBusy then
    { s with regs := { s.regs with status := s.regs.status.dropped } }
  else
    match Reg.at off with
    | none => s
    | some r => r.write v s

/-- A register-port write (R31, R32, R53): acknowledged, or a slave error that changes nothing. -/
def regWrite (addr : Nat) (width : AccessWidth) (v : Word) (s : State) : State :=
  match windowOffset s.plat addr with
  | none => { s with reply := .none }
  | some off =>
    if goodAccess off width then { regWriteAt off v s with reply := .ack }
    else { s with reply := .slaveError }

/-! ### Data-memory accesses by the host (R89, R116) -/

/-- An address at which the platform serves a host word access. -/
def hostWordOk (s : State) (a : Nat) : Bool :=
  a % 4 == 0 && decide (a + 4 ≤ 2 ^ s.plat.aw) && !s.plat.errs a

/-- R89: whether an access to the word at `a` breaks the host's duty towards a command: any access to its output window, and a
write to its input or table window. -/
def Held.forbids (write : Bool) (a : Nat) (h : Held) : Bool :=
  h.windows.outWin.hasWord a || (write && (h.windows.inWin.hasWord a || h.windows.tabWin.hasWord a))

/-- R89: "the final contents of the output window are unspecified": each word of it becomes a draw. -/
def loseOutput (s : State) (m : Memory) (h : Held) : Memory :=
  let w := h.windows.outWin.words s.plat
  m.setWords w.1 (freeWords s.draws w.1 w.2)

/-- R89: an access to the word at `a` while windows are held. Every command towards which it breaks the host's duty loses its output
window, and is marked, so that all the engine reads and writes for it from here on are draws too. -/
def breach (write : Bool) (a : Nat) (s : State) : State :=
  if s.held.any (Held.forbids write a) then
    { s with
      mem := (s.held.filter (Held.forbids write a)).foldl (loseOutput s) s.mem
      held := s.held.map fun h => { h with broken := h.broken || h.forbids write a }
      draws := s.draws + 2 }
  else s

/-- `MRD addr` (R116). A read of an output window the host must not touch answers with a free value (R89). -/
def hostMemRead (a : Nat) (s : State) : State :=
  if hostWordOk s a then
    { breach false a s with
      reply := .data (if s.held.any (Held.forbids false a) then Config.freeWord (s.draws + 1) a else s.mem.word a) }
  else { s with reply := .slaveError }

/-- `MWR addr, v` (R116). A write to a window the host must not write breaks its duty (R89). -/
def hostMemWrite (a : Nat) (v : Word) (s : State) : State :=
  if hostWordOk s a then { breach true a { s with mem := s.mem.setWord a v } with reply := .ack }
  else { s with reply := .slaveError }

/-- One host event. `quiet` and `await` are the engine's turns (Machine/Step.lean); taken here, when BUSY=0 ends a WAIT, they
are the host's last poll of STATUS. -/
def hostMove (e : HostEvent) (s : State) : State :=
  match e with
  | .regRead addr width => regRead addr width s
  | .regWrite addr width v => regWrite addr width v s
  | .memRead addr => hostMemRead addr s
  | .memWrite addr v => hostMemWrite addr v s
  | .rstN => resetEngine s
  | .quiet => s
  | .await => { observe s with reply := .data s.regs.status.word }
  | .irqSample => { (if s.irq then observe s else s) with reply := .level s.irq }

/-! ### Host notation (R116, R117) -/

/-- `WR NAME, v` (R116). -/
def wr (p : Platform) (r : Reg) (v : Word) : HostEvent := .regWrite (p.regBase + r.offset) .word v

/-- `RD NAME` (R116). -/
def rd (p : Platform) (r : Reg) : HostEvent := .regRead (p.regBase + r.offset) .word

/-- `MNEMONIC` or `MNEMONIC b=<n>` (R116): the CMD write of the command's word. -/
def issueEvent (p : Platform) (i : Instr) : HostEvent := wr p .cmd (encode i)

/-- `ACK` (R117). -/
def ackEvents (p : Platform) : List HostEvent := [wr p .status 0x0000000E#32]

/-- `SETIN base, bound, cur, len` (R117). -/
def setInEvents (p : Platform) (base bound cur len : Word) : List HostEvent :=
  [wr p .inBase base, wr p .inBound bound, wr p .inCur cur, wr p .inLen len]

/-- `SETOUT base, bound, cur` (R117). -/
def setOutEvents (p : Platform) (base bound cur : Word) : List HostEvent :=
  [wr p .outBase base, wr p .outBound bound, wr p .outCur cur]

/-- `RUN op` (R117): `op; WAIT`. -/
def runEvents (p : Platform) (i : Instr) : List HostEvent := [issueEvent p i, .await]

end Sys2Proof.Machine
end

