-- ==== Sys2Proof/Machine/Engine.lean ====
section
/-! DEFINITION. The engine's move: fetch the command from CMD, decode it, execute (10_state.md R39, 30_encoding.md R113). -/

namespace Sys2Proof.Machine

/-- R113, R250 code 6: an illegal command word, ERR_INDEX 0. -/
def illegalRaise (e : Illegal) : Raise := { kind := .illegalCommand, detail := illegalDetail e, index := 0 }

/-- While BUSY=1 the engine executes the command word in CMD (R39), raising IllegalCommand where it does not decode (R113). With
BUSY=0 it is idle (R270). -/
def engineMove (s : State) : Host.Outcome State Fault Refusal :=
  if s.regs.status.busy then
    match decode s.regs.cmd with
    | .error e => .next (raiseError (illegalRaise e) s)
    | .ok i => exec i s
  else .next s

/-- Place a command word where the engine fetches its next one: an accepted CMD write (R39), with the engine to move. -/
def placeCommand (w : Word) (s : State) : State := { issue w s with host := .quiet :: s.host }

end Sys2Proof.Machine
end

