-- ==== Sys2Proof/Machine/Step.lean ====
section
/-! DEFINITION. One step of the two agents (20_memory.md R89): the host's next event, or a move of the engine where the host has
none, lets the engine move (`quiet`), or waits for BUSY=0 (`await`). -/

namespace Sys2Proof.Machine

/-- One step. Host accesses land between two moves of the engine: after issue and between two units (R45, R269). -/
def step (s : State) : Host.Outcome State Fault Refusal :=
  match s.host with
  | [] => engineMove s
  | .quiet :: es => engineMove { s with host := es }
  | .await :: es =>
    if s.regs.status.busy then engineMove s else .next (hostMove .await { s with host := es })
  | e :: es => .next (hostMove e { s with host := es })

/-- `s` with the command word `w` just accepted by CMD and the engine to move, so that the very next step runs it
(notes/assumptions/1.md). -/
def State.withFetchWord (s : State) (nbits w : Nat) : State := placeCommand (BitVec.ofNat 32 (w % 2 ^ nbits)) s

end Sys2Proof.Machine
end

