-- ==== Sys2Proof/Safety.lean ====
section
/-! DEFINITION. The terms claims are stated in: the machine's invariant, what a unit's commit leaves, and the words a command
reads. -/

namespace Sys2Proof.Machine

/-! ### The invariant -/

/-- R6: the legal platform parameters. -/
abbrev Platform.wf (p : Platform) : Prop := 1 ≤ p.aw ∧ p.aw ≤ 32 ∧ p.regBase % 256 = 0

/-- R40: a legal active configuration. -/
abbrev legalConfig (bs ps : Nat) : Prop :=
  bs ∈ Config.blockSizes ∧ 0 < ps ∧ ps % bs = 0 ∧ ps / bs ≤ Config.maxPageBlocks

/-- R52, R258: a command between two of its units is ENCODE or DECODE, its cursors agree with the registers and stay inside its
windows, and ENCODE has consumed exactly `k` blocks. -/
structure RunOk (s : State) (r : Run) : Prop where
  busy      : s.regs.status.busy = true
  frame     : decode s.regs.cmd = .ok .encode ∨ decode s.regs.cmd = .ok .decode
  inCursor  : s.regs.inCur.toNat = r.icur
  outCursor : s.regs.outCur.toNat = r.ocur
  inFrom    : r.icur0 ≤ r.icur
  inTo      : r.icur ≤ r.icur0 + s.regs.inLen.toNat
  inWithin  : r.icur0 + s.regs.inLen.toNat ≤ s.regs.inBound.toNat
  outFrom   : r.ocur0 ≤ r.ocur
  outTo     : r.ocur ≤ s.regs.outBound.toNat
  blocks    : decode s.regs.cmd = .ok .encode → r.icur = r.icur0 + r.k * actBS s

/-- The invariant of the machine. -/
structure Inv (s : State) : Prop where
  /-- R6: the platform parameters are legal. -/
  platform   : s.plat.wf
  /-- Data memory keeps its canonical form. -/
  memory     : s.mem.wf
  /-- R40: "At every instant" the active configuration is legal. -/
  config     : legalConfig (actBS s) (actPS s)
  /-- R36: "DONE and ERR are never both 1." -/
  oneOutcome : ¬(s.regs.status.done = true ∧ s.regs.status.err = true)
  /-- R36: "BUSY=1 implies DONE=0 and ERR=0"; R39: issue cleared the error report. -/
  busyClear  : s.regs.status.busy = true → s.regs.status.done = false ∧ s.regs.status.err = false ∧
    s.regs.status.errKind = none ∧ s.regs.errDetail = 0#8 ∧ s.regs.errIndex = 0#32
  /-- R257: a command that finished left no error code. -/
  doneClean  : s.regs.status.done = true → s.regs.status.errKind = none
  /-- R252: ERR comes with an error code. -/
  errCoded   : s.regs.status.err = true → s.regs.status.errKind ≠ none
  /-- R36: LAST_OP is "bits 7:0 of the last accepted CMD write". -/
  lastOp     : s.regs.status.lastOp = s.regs.cmd.extractLsb' 0 8
  /-- R43, R46, R48: bits 31:AW of the base registers read 0; that this takes in bit 1 at AW = 1 is the model's choice
  (log 20). -/
  bases      : s.regs.inBase.toNat < 2 ^ s.plat.aw ∧ s.regs.outBase.toNat < 2 ^ s.plat.aw ∧
    s.regs.bwBase.toNat < 2 ^ s.plat.aw
  /-- R54, R258: running cursors exist only while a command runs, and agree with the registers. -/
  running    : ∀ r, s.scratch.run = some r → RunOk s r
  /-- R89: while a command runs, its windows are the last of those the host must keep away from. -/
  windows    : s.regs.status.busy = true → ∀ w ∈ commandWindows s, s.held.head?.map (·.windows) = some w

/-! ### The words a command reads, and a quiet command -/

/-- The byte address of input index `i` (R43). -/
def inAddr (s : State) (i : Nat) : Nat := s.regs.inBase.toNat + 4 * i

/-- `n` words of data memory upward from a byte address. -/
def wordsAt (s : State) (a n : Nat) : List Word := (List.range n).map fun i => s.mem.word (a + 4 * i)

/-- `n` words of the IN buffer from index `i` (R43). -/
def inWords (s : State) (i n : Nat) : List Word := wordsAt s (s.regs.inBase.toNat + 4 * i) n

/-- `n` words of the OUT buffer from index `i` (R46). -/
def outWords (s : State) (i n : Nat) : List Word := wordsAt s (outAddr s i) n

/-- `n` entries of the bit-width table from entry `k` (R125). -/
def tableWords (s : State) (k n : Nat) : List Word := wordsAt s (s.regs.bwBase.toNat + 4 * k) n

/-- The reader of the IN buffer that meets no bus error. -/
def plainIn (s : State) (i : Nat) : Except Raise Word := .ok (s.mem.word (s.regs.inBase.toNat + 4 * i))

/-- No window touches an erroring address (R260), and the host kept its duty (R89). -/
abbrev Undisturbed (s : State) (w : Windows) : Prop := touchesBusErr s w = false ∧ dutyBroken s = false

/-- A single-unit command about to run: not started, its prologue passes, nothing disturbs it. -/
abbrev Ready (s : State) (p : Plan) : Prop := s.scratch.run = none ∧ prologue s p = none ∧ Undisturbed s p.toWindows

/-! ### What a commit leaves -/

/-- `t` is `s` after one unit wrote `words` from OUT index `o` and committed (R258): the output words and no other byte of memory
change, the cursors and counters advance, `status` is STATUS, and every other register, the platform, the host and its
last answer stay. -/
structure Committed (s t : State) (i o : Nat) (words : List Word) (used rd exc : Nat) (status : Status) : Prop where
  written : outWords t o words.length = words
  kept    : ∀ a, (a < outAddr s o ∨ outAddr s o + 4 * words.length ≤ a) → t.mem.byte a = s.mem.byte a
  memory  : t.mem.wf
  regs    : t.regs = { s.regs with
    status := status
    inCur := BitVec.ofNat 32 (i + used)
    outCur := BitVec.ofNat 32 (o + words.length)
    cntRd := s.regs.cntRd + BitVec.ofNat 32 rd
    cntWr := s.regs.cntWr + BitVec.ofNat 32 words.length
    cntExc := s.regs.cntExc + BitVec.ofNat 32 exc }
  plat    : t.plat = s.plat
  host    : t.host = s.host
  reply   : t.reply = s.reply
  held    : t.held = s.held

/-- `t` is `s` after a single-unit command completed: its commit, DONE set, BUSY cleared, no cursors left running. -/
def Completed (s t : State) (words : List Word) (used rd exc : Nat) : Prop :=
  Committed s t s.regs.inCur.toNat s.regs.outCur.toNat words used rd exc s.regs.status.finished ∧ t.scratch.run = none

/-- `t` is `s` after a page of ENCODE or DECODE was committed at the cursors `run`: still BUSY with the cursors moved on while
`more` holds, finished otherwise (R258, R232, R236). -/
def PageCommitted (s t : State) (run : Run) (more : Run → Bool) (d : UnitDone) : Prop :=
  if more (run.after d) = true then
    Committed s t run.icur run.ocur d.words d.used d.rd d.exc s.regs.status ∧ t.scratch.run = some (run.after d)
  else
    Committed s t run.icur run.ocur d.words d.used d.rd d.exc s.regs.status.finished ∧ t.scratch.run = none

/-- A command ended with the error (`kind`, `detail`, `index`) and nothing else happened: memory and every register but STATUS,
ERR_DETAIL and ERR_INDEX as before, the platform, the host and its last answer too (R252). -/
def Reports (s : State) (o : Host.Outcome State Fault Refusal) (kind : ErrKind) (detail index : Nat) : Prop :=
  ∃ t, o = .next t ∧ t.mem = s.mem ∧ t.plat = s.plat ∧ t.host = s.host ∧ t.reply = s.reply ∧ t.held = s.held ∧
  t.regs = { s.regs with
    status := { s.regs.status with busy := false, err := true, errKind := some kind }
    errDetail := BitVec.ofNat 8 detail
    errIndex := BitVec.ofNat 32 (min index 0xFFFFFFFF) }

/-- `Reports`, but for memory: it is unchanged outside the `n` output words from OUT index `o`, which are unspecified (R259). -/
def ReportsDirty (s : State) (out : Host.Outcome State Fault Refusal) (kind : ErrKind) (detail index o n : Nat) : Prop :=
  ∃ t, out = .next t ∧ (∀ a, (a < outAddr s o ∨ outAddr s o + 4 * n ≤ a) → t.mem.byte a = s.mem.byte a) ∧ t.plat = s.plat ∧
    t.host = s.host ∧ t.reply = s.reply ∧ t.held = s.held ∧ t.regs = { s.regs with
      status := { s.regs.status with busy := false, err := true, errKind := some kind }
      errDetail := BitVec.ofNat 8 detail
      errIndex := BitVec.ofNat 32 (min index 0xFFFFFFFF) }

/-- A command ended with a BusError at some erroring address, and no other register changed (R252, R260). -/
def EndsInBusError (s : State) (out : Host.Outcome State Fault Refusal) : Prop :=
  ∃ t a d, out = .next t ∧ s.plat.errs a = true ∧ (d = 1#8 ∨ d = 2#8) ∧ t.plat = s.plat ∧ t.host = s.host ∧ t.reply = s.reply ∧
    t.held = s.held ∧ t.regs = { s.regs with
      status := { s.regs.status with busy := false, err := true, errKind := some .busError }
      errDetail := d
      errIndex := BitVec.ofNat 32 (min a 0xFFFFFFFF) }

/-- The descriptor groups that stand one after another from IN index `j` on, as memory holds them. -/
def GroupsAt (s : State) (wend j : Nat) (gs : List Group) : Prop :=
  ∀ i g, gs[i]? = some g → readGroup (plainIn s) (actBS s) wend (j + ((gs.take i).map groupLen).sum) = .ok g

/-- R221: at IN index `j` stand a valid H0 and the descriptor groups of its blocks, all of them parsing. -/
def PageAt (s : State) (wend j : Nat) (gs : List Group) : Prop :=
  j < wend ∧ validH0 (actBS s) (actPS s) (s.mem.word (inAddr s j)) = true ∧
    gs.length = field (s.mem.word (inAddr s j)) 8 24 ∧ GroupsAt s wend (j + 1) gs

/-- R222: the length PLEN of a page with these descriptor groups, in its own terms. -/
def pageLen (bs : Nat) (gs : List Group) : Nat :=
  1 + (gs.map fun g => 1 + g.buckets.length).sum +
    (gs.map fun g => bs * g.b / 32 + (g.buckets.map fun k => packedLen k.c bs.log2 + packedLen k.c k.e).sum).sum

/-- R188: parsing a descriptor group at IN index `j` comes to its word number `k`: no word before it is past the window or invalid. -/
def GroupReaches (s : State) (wend j k : Nat) : Prop :=
  j + k < wend ∧ (k ≠ 0 → validD (s.mem.word (inAddr s j)) = true ∧ k ≤ field (s.mem.word (inAddr s j)) 8 6 ∧
    ∀ t, 1 ≤ t → t < k →
      validB (actBS s) (s.mem.word (inAddr s (j + t))) (field (s.mem.word (inAddr s j)) 0 6) = true)

/-- R250: the error kinds and details a command may raise, by the table's "raised by" column. -/
def errorsOf : Instr → List (ErrKind × Nat)
  | .nop => []
  | .config => [(.invalidConfiguration, 1), (.invalidConfiguration, 2), (.invalidConfiguration, 3)]
  | .pack _ => memoryErrors
  | .unpack _ => (.corruptStream, 1) :: memoryErrors
  | .excExtract _ => (.invalidInput, 3) :: memoryErrors
  | .excPatch =>
    [(.invalidInput, 3), (.corruptStream, 1), (.corruptStream, 3), (.corruptStream, 4), (.corruptStream, 5)] ++ memoryErrors
  | .hdrParse => [(.corruptStream, 1), (.corruptStream, 2), (.corruptStream, 3), (.corruptStream, 4)] ++ memoryErrors
  | .encode => [(.invalidInput, 4), (.invalidInput, 5), (.invalidOffset, 5)] ++ memoryErrors
  | .decode =>
    [(.corruptStream, 1), (.corruptStream, 2), (.corruptStream, 3), (.corruptStream, 4), (.corruptStream, 5)] ++ memoryErrors
where
  /-- R250: the errors every memory command may raise. -/
  memoryErrors : List (ErrKind × Nat) :=
    [(.invalidInput, 1), (.invalidInput, 2), (.insufficientOutputSpace, 0), (.invalidOffset, 1), (.invalidOffset, 2),
     (.invalidOffset, 3), (.invalidOffset, 4), (.busError, 1), (.busError, 2)]

/-- The exceptions among values at width `b`: the values wider than `b` (R180). -/
def countAbove (b : Nat) (vals : List Word) : Nat := (vals.filter fun v => decide (b < bits v)).length

/-- A list of words held from IN index `j` on, as seen by a reader. -/
def Holds (rd : Nat → Except Raise Word) (j : Nat) (ws : List Word) : Prop :=
  ∀ k (h : k < ws.length), rd (j + k) = .ok ws[k]

end Sys2Proof.Machine
end

