-- ==== Sys2Proof/Certificates/Slice0/Obligations.lean ====
section
/-! DEFINITION. The statements for the provers, from the spec's numbered rules. -/

open Sys2Proof Sys2Proof.Machine

/-! ### Reset, the register port, the flags -/

/-- R290: what `rst_n` leaves: the table's values as the host reads them, `irq` low, scratch empty, the platform and the host's
events untouched, and data memory unchanged where no command was running. `State.reset` reads the same. -/
def Obligations.ResetGivesTheTableValues : Prop :=
  let table : List (Reg × Word) :=
    [(.id, 0x50464F52#32), (.version, 0x00010000#32), (.ctrl, 0#32), (.status, 0#32), (.irqEn, 0#32), (.cmd, 0#32),
     (.cfgBlockSize, 128#32), (.cfgPageSize, 65536#32), (.actBlockSize, 128#32), (.actPageSize, 65536#32), (.inBase, 0#32),
     (.inBound, 0#32), (.inLen, 0#32), (.inCur, 0#32), (.outBase, 0#32), (.outBound, 0#32), (.outCur, 0#32), (.argCount, 0#32),
     (.bwBase, 0#32), (.errDetail, 0#32), (.errIndex, 0#32), (.cntRd, 0#32), (.cntWr, 0#32), (.cntExc, 0#32)]
  (∀ x ∈ table, Reg.read State.reset x.1 = x.2) ∧ State.reset.irq = false ∧ State.reset.scratch = ⟨none, [], []⟩ ∧
  ∀ s es, s.host = .rstN :: es → ∃ t, step s = .next t ∧ (∀ x ∈ table, Reg.read t x.1 = x.2) ∧ t.irq = false ∧
    t.scratch = ⟨none, [], []⟩ ∧ t.plat = s.plat ∧ t.host = es ∧ (s.regs.status.busy = false → t.mem = s.mem)

/-- R291, R292: soft reset (CTRL bit 0, also while BUSY=1) and `rst_n` reset every register and the scratch, raise nothing, and
change no byte of data memory outside the output range of the unit in flight: of DECODE's page, for one, the words of the
`n*act.BS` values its valid H0 names. -/
def Obligations.SoftResetTouchesOnlyTheUnitInFlight : Prop :=
  ∀ (s : State) (v : Word) (es : List HostEvent), s.mem.wf → v.getLsbD 0 = true →
    (s.host = wr s.plat .ctrl v :: es ∨ s.host = .rstN :: es) →
    ∃ t, step s = .next t ∧ t.regs = State.reset.regs ∧ t.scratch = State.reset.scratch ∧ t.irq = false ∧ t.plat = s.plat ∧
      t.host = es ∧
      (unitInFlight { s with host := es } = none → t.mem = s.mem) ∧
      ∀ u run, unitInFlight { s with host := es } = some (u, run) →
        (∀ a, (a < outAddr s run.ocur ∨ outAddr s run.ocur + 4 * (unitRange s u run).2 ≤ a) → t.mem.byte a = s.mem.byte a) ∧
        (decode s.regs.cmd = .ok .decode → ∀ h, quietIn s run.icur = .ok h → validH0 (actBS s) (actPS s) h = true →
          (unitRange s u run).2 ≤ field h 8 24 * actBS s)

/-- R31, R32, R36, R38, R250: each offset reads its own register: STATUS with BUSY, DONE, ERR and WBUSY in bits 0 to 3, the error code's
number in bits 15:8 and LAST_OP in bits 23:16, CTRL and the reserved offsets 0. A read has no side effect on the engine (that a read of
STATUS with BUSY=0 ends R89's span is the model's bookkeeping of the host's duty, notes/assumptions/7.md); an access that is no aligned
word answers with a slave error and changes no state; a write to a read-only or reserved register has no effect. That the ignored
write is acknowledged is the model's reading, notes/assumptions/11.md. -/
def Obligations.RegisterReadsAndBadAccessesChangeNothing : Prop :=
  (∀ s off width es, s.host = .regRead (s.plat.regBase + off) width :: es → off < 256 →
    let g := s.regs
    let code : Nat := match g.status.errKind with
      | none => 0
      | some .invalidConfiguration => 1
      | some .invalidInput => 2
      | some .insufficientOutputSpace => 3
      | some .invalidOffset => 4
      | some .corruptStream => 5
      | some .illegalCommand => 6
      | some .busError => 7
    let status := g.status.busy.toNat + 2 * g.status.done.toNat + 4 * g.status.err.toNat + 8 * g.status.wbusy.toNat +
      256 * code + 65536 * g.status.lastOp.toNat
    let map : List (Nat × Word) :=
      [(0x00, 0x50464F52#32), (0x04, 0x00010000#32), (0x08, 0#32), (0x0C, BitVec.ofNat 32 status),
       (0x10, BitVec.ofNat 32 (g.irqEn.doneIe.toNat + 2 * g.irqEn.errIe.toNat)), (0x14, g.cmd), (0x18, g.cfgBlockSize),
       (0x1C, g.cfgPageSize), (0x20, g.actBlockSize), (0x24, g.actPageSize), (0x28, g.inBase), (0x2C, g.inBound), (0x30, g.inLen),
       (0x34, g.inCur), (0x38, g.outBase), (0x3C, g.outBound), (0x40, g.outCur), (0x44, g.argCount), (0x48, g.bwBase),
       (0x4C, BitVec.ofNat 32 g.errDetail.toNat), (0x50, g.errIndex), (0x54, g.cntRd), (0x58, g.cntWr), (0x5C, g.cntExc)]
    step s = .next { s with
      host := es
      reply := if width = .word ∧ off % 4 = 0 then .data ((map.lookup off).getD 0#32) else .slaveError
      held := if width = .word ∧ off = 0x0C ∧ s.regs.status.busy = false then [] else s.held }) ∧
  (∀ s off width v es, s.host = .regWrite (s.plat.regBase + off) width v :: es → off < 256 → ¬(width = .word ∧ off % 4 = 0) →
    step s = .next { s with host := es, reply := .slaveError }) ∧
  (∀ s off v es, s.host = .regWrite (s.plat.regBase + off) .word v :: es → s.regs.status.busy = false →
    (off ∈ [0x00, 0x04, 0x20, 0x24, 0x4C, 0x50] ∨ (0x60 ≤ off ∧ off < 256 ∧ off % 4 = 0)) →
    step s = .next { s with host := es, reply := .ack })

/-- R31, R38, R41 to R48, R51: while BUSY=0 a written RW register reads back as written, a base register without its bits 31:AW
and IRQ_EN without its bits 31:2, and no other register, no memory and no cursor changes with it. R35: a CTRL write with bit 0
clear does nothing. That a base register's bit 1 reads 0 at AW = 1, where R43's two sentences disagree, is the model's choice
(log 20). -/
def Obligations.RegisterWritesReadBack : Prop :=
  (∀ (s : State) (r : Reg) (v : Word) (es : List HostEvent), s.host = wr s.plat r v :: es → s.regs.status.busy = false →
    r ∈ [.irqEn, .cfgBlockSize, .cfgPageSize, .inBase, .inBound, .inLen, .inCur, .outBase, .outBound, .outCur, .argCount, .bwBase,
         .cntRd, .cntWr, .cntExc] →
    ∃ t, step s = .next t ∧
      Reg.read t r = (if r ∈ [.inBase, .outBase, .bwBase] then BitVec.ofNat 32 (v.toNat % 2 ^ s.plat.aw)
        else if r = .irqEn then v &&& 3#32 else v) ∧
      (∀ q, q ≠ r → Reg.read t q = Reg.read s q) ∧
      t.mem = s.mem ∧ t.plat = s.plat ∧ t.scratch = s.scratch ∧ t.host = es ∧ t.reply = .ack) ∧
  (∀ (s : State) (v : Word) (es : List HostEvent), s.host = wr s.plat .ctrl v :: es → v.getLsbD 0 = false →
    step s = .next { s with host := es, reply := .ack })

/-- R37: a STATUS write clears exactly the flags whose bits are 1, BUSY or not. -/
def Obligations.StatusWriteClearsOnlyItsFlags : Prop :=
  ∀ (s : State) (v : Word) (es : List HostEvent), s.host = wr s.plat .status v :: es →
    step s = .next { s with
      host := es
      reply := .ack
      regs := { s.regs with
        status := { s.regs.status with
          done := if v.getLsbD 1 then false else s.regs.status.done
          err := if v.getLsbD 2 then false else s.regs.status.err
          wbusy := if v.getLsbD 3 then false else s.regs.status.wbusy } } }

/-- R39: an accepted CMD write, the command it then runs, the ignored CMD write, and the reset value of CMD. -/
def Obligations.CmdWriteIssuesTheCommand : Prop :=
  State.reset.regs.cmd = 0#32 ∧
  ∀ (s : State) (w : Word) (es : List HostEvent), s.host = wr s.plat .cmd w :: es →
    (s.regs.status.busy = false →
      ∃ t, step s = .next t ∧ Reg.read t .cmd = w ∧ t.mem = s.mem ∧ t.plat = s.plat ∧ t.host = es ∧ t.scratch.run = none ∧
        t.regs = { s.regs with
          cmd := w
          status := { s.regs.status with
            busy := true, done := false, err := false, errKind := none, lastOp := BitVec.ofNat 8 (w.toNat % 256) }
          errDetail := 0#8
          errIndex := 0#32 } ∧
        (es = [] → ∀ i, decode w = .ok i → step t = exec i t)) ∧
    (s.regs.status.busy = true → ∃ t, step s = .next t ∧
      t = { s with
        host := es, reply := t.reply, regs := { s.regs with status := { s.regs.status with wbusy := true } } })

/-- R53: while BUSY=1 a write to CTRL, STATUS or IRQ_EN takes effect and any other register write only sets WBUSY. -/
def Obligations.WritesWhileBusyAreDropped : Prop :=
  ∀ (s : State) (off : Nat) (v : Word) (es : List HostEvent), s.host = .regWrite (s.plat.regBase + off) .word v :: es →
    off < 256 → off % 4 = 0 → s.regs.status.busy = true →
    (off ∉ [0x08, 0x0C, 0x10] → ∃ t, step s = .next t ∧ t = { s with
      host := es, reply := t.reply, regs := { s.regs with status := { s.regs.status with wbusy := true } } }) ∧
    (off = 0x08 → ∃ t, step s = .next t ∧
      if v.getLsbD 0 then t.regs = State.reset.regs else t = { s with host := es, reply := .ack }) ∧
    (off = 0x0C → step s = .next { s with
      host := es, reply := .ack, regs := { s.regs with status := { s.regs.status with
        done := s.regs.status.done && !v.getLsbD 1
        err := s.regs.status.err && !v.getLsbD 2
        wbusy := s.regs.status.wbusy && !v.getLsbD 3 } } }) ∧
    (off = 0x10 → step s = .next { s with
      host := es, reply := .ack, regs := { s.regs with irqEn := { doneIe := v.getLsbD 0, errIe := v.getLsbD 1 } } })

/-- R262: when the interrupt line is up, what an enable write and a W1C write make of it, and that issue and reset drop it. -/
def Obligations.IrqFollowsDoneAndErr : Prop :=
  (∀ s : State, s.irq = true ↔ (s.regs.status.done = true ∧ s.regs.irqEn.doneIe = true) ∨
    (s.regs.status.err = true ∧ s.regs.irqEn.errIe = true)) ∧ State.reset.irq = false ∧
  (∀ (s : State) (v : Word) (es : List HostEvent), s.host = wr s.plat .irqEn v :: es → ∃ t, step s = .next t ∧
    (t.irq = true ↔ (s.regs.status.done = true ∧ v.getLsbD 0 = true) ∨ (s.regs.status.err = true ∧ v.getLsbD 1 = true))) ∧
  (∀ (s : State) (v : Word) (es : List HostEvent), s.host = wr s.plat .status v :: es → ∃ t, step s = .next t ∧
    (t.irq = true ↔ (s.regs.status.done = true ∧ v.getLsbD 1 = false ∧ s.regs.irqEn.doneIe = true) ∨
      (s.regs.status.err = true ∧ v.getLsbD 2 = false ∧ s.regs.irqEn.errIe = true))) ∧
  (∀ (s : State) (w : Word) (es : List HostEvent), s.host = wr s.plat .cmd w :: es → s.regs.status.busy = false →
    ∃ t, step s = .next t ∧ t.irq = false) ∧
  (∀ (s : State) (es : List HostEvent), s.host = .rstN :: es → ∃ t, step s = .next t ∧ t.irq = false)

/-- R116, R89: where the host has observed that no command is running, `MWR` stores the word and no other byte, and `MRD` answers
with the word and changes nothing. R89's span begins with an accepted CMD write and ends only when the host observes BUSY=0: by a read
of STATUS, by its last poll of a WAIT, or by seeing `irq` up (R90), a further issue adding its own windows; the record of the span is the model's own
(notes/assumptions/7.md). -/
def Obligations.HostMemoryAccessesWhileIdle : Prop :=
  (∀ (s : State) (a : Nat) (es : List HostEvent), s.mem.wf → s.held = [] → a % 4 = 0 → a + 4 ≤ 2 ^ s.plat.aw →
    s.plat.errs a = false →
    (s.host = .memRead a :: es → step s = .next { s with host := es, reply := .data (s.mem.word a) }) ∧
    (∀ v, s.host = .memWrite a v :: es → ∃ t, step s = .next t ∧ t.mem.word a = v ∧
      (∀ b, (b < a ∨ a + 4 ≤ b) → t.mem.byte b = s.mem.byte b) ∧
      t = { s with host := es, reply := .ack, mem := t.mem })) ∧
  (∀ s t : State, step s = .next t → t.held.map (·.windows) ≠ s.held.map (·.windows) → s.regs.status.busy = false ∧
    ((∃ w es, s.host = wr s.plat .cmd w :: es ∧ t.held = (commandWindows t).toList.map (Held.mk · false) ++ s.held) ∨
      (t.held = [] ∧ ∃ es, s.host = rd s.plat .status :: es ∨ s.host = .await :: es ∨
        (s.host = .irqSample :: es ∧ s.irq = true))))

/-- R89, R116: a host access to data memory changes no register, no scratch and no byte outside the word it names and the output windows
held. In R89's span an access outside the windows is ordinary, and so is a read of an input or table window; an access against the duty
(to a word that shares a byte with an output window, a write to an input or table window) makes every word of that command's output
window a draw, and from then on every value the engine reads for that command and every word it writes is a draw, while the command
still ends by the rules. That the whole output window and all the engine reads and writes become draws, and their form, is
notes/assumptions/5.md and 7.md. -/
def Obligations.HostAccessesAgainstTheDutyAreDraws : Prop :=
  let shares := fun (r : AddrRange) (x : Nat) => r.lo < r.hi ∧ r.lo < x + 4 ∧ x < r.hi
  (∀ (s t : State) (a : Nat) (v : Word) (es : List HostEvent), s.mem.wf →
    (s.host = .memRead a :: es ∨ s.host = .memWrite a v :: es) → step s = .next t →
    t.regs = s.regs ∧ t.scratch = s.scratch ∧ t.plat = s.plat ∧ t.host = es ∧
      t.held.map (·.windows) = s.held.map (·.windows) ∧
      ∀ b, (b < a ∨ a + 4 ≤ b) → (∀ h ∈ s.held, ¬shares h.windows.outWin (b / 4 * 4)) → t.mem.byte b = s.mem.byte b) ∧
  (∀ (s : State) (a : Nat) (v : Word) (write : Bool) (es : List HostEvent), s.mem.wf → a % 4 = 0 → a + 4 ≤ 2 ^ s.plat.aw →
    s.plat.errs a = false → s.host = (if write then .memWrite a v else .memRead a) :: es →
    let hit := fun h : Held => shares h.windows.outWin a ∨
      (write = true ∧ (shares h.windows.inWin a ∨ shares h.windows.tabWin a))
    ∃ t, step s = .next t ∧
      ((∀ h ∈ s.held, ¬hit h) → t.held = s.held ∧ t.draws = s.draws ∧
        (∀ b, (write = false ∨ b < a ∨ a + 4 ≤ b) → t.mem.byte b = s.mem.byte b)) ∧
      (∀ (i : Nat) (h : Held), s.held[i]? = some h → ∃ h' : Held, t.held[i]? = some h' ∧ h'.windows = h.windows ∧
        (h'.broken = true ↔ h.broken = true ∨ hit h)) ∧
      (∀ h ∈ s.held, hit h → s.draws < t.draws ∧
        ∀ x, x % 4 = 0 → x + 4 ≤ 2 ^ s.plat.aw → shares h.windows.outWin x → t.mem.word x = Config.freeWord s.draws x) ∧
      (write = true → t.reply = .ack ∧ ((∀ h ∈ s.held, ¬shares h.windows.outWin a) → t.mem.word a = v)) ∧
      (write = false →
        ((∀ h ∈ s.held, ¬hit h) → t.reply = .data (s.mem.word a)) ∧
        (∀ h ∈ s.held, hit h → t.reply = .data (Config.freeWord (s.draws + 1) a)))) ∧
  (∀ (s : State) (h : Held) (a : Nat), s.held.head? = some h → h.broken = true → s.plat.errs a = false →
    memRead s a = .ok (Config.freeWord s.draws a)) ∧
  (∀ (i : Instr) (s t : State) (p : Plan) (u : Units) (run : Run) (h : Held), Inv s → s.regs.status.busy = true →
    decode s.regs.cmd = .ok i → commandOf i s = some (p, u) → started s p = .ok run → s.held.head? = some h → h.broken = true →
    exec i s = .next t → t.regs.status.err = false →
    ∀ k, run.ocur + k < t.regs.outCur.toNat →
      t.mem.word (outAddr s (run.ocur + k)) = Config.freeWord (s.draws + 1) (outAddr s (run.ocur + k)))

/-! ### Decoding, fetching, stepping -/

/-- R111 to R113: a word decodes to a command exactly when the command is legal and the word is its encoding. -/
def Obligations.DecodeIsTheInverseOfEncode : Prop :=
  ∀ (w : Word) (i : Instr), decode w = .ok i ↔ (i.wf = true ∧ encode i = w)

/-- R112: words written out from the command word's fields decode to the commands they stand for. -/
def Obligations.SampleWordsDecode : Prop :=
  decode 0x00000000#32 = .ok .nop ∧ decode 0x00000001#32 = .ok .config ∧ decode 0x00000510#32 = .ok (.pack 5#6) ∧
  decode 0x00002011#32 = .ok (.unpack 32#6) ∧ decode 0x00000420#32 = .ok (.excExtract 4#6) ∧
  decode 0x00000021#32 = .ok .excPatch ∧ decode 0x00000030#32 = .ok .hdrParse ∧ decode 0x00000040#32 = .ok .encode ∧
  decode 0x00000041#32 = .ok .decode

/-- R113: an illegal command word raises IllegalCommand with the detail of the first failing check and ERR_INDEX 0, and does
nothing else; any other word decodes, and the command's meaning runs. -/
def Obligations.IllegalCommandIsReported : Prop :=
  ∀ (s : State), s.host = [] → s.regs.status.busy = true →
    let w := s.regs.cmd.toNat
    let op := w % 256
    let b := w / 2 ^ 8 % 64
    let rsv := w / 2 ^ 14
    let usesB := op ∈ [0x10, 0x11, 0x20]
    (op ∉ [0x00, 0x01, 0x10, 0x11, 0x20, 0x21, 0x30, 0x40, 0x41] → Reports s (step s) .illegalCommand 1 0) ∧
    (usesB → 32 < b → Reports s (step s) .illegalCommand 2 0) ∧
    (usesB → b ≤ 32 → rsv ≠ 0 → Reports s (step s) .illegalCommand 3 0) ∧
    (op ∈ [0x00, 0x01, 0x21, 0x30, 0x40, 0x41] → (rsv ≠ 0 ∨ b ≠ 0) → Reports s (step s) .illegalCommand 3 0) ∧
    ((usesB ∧ b ≤ 32 ∧ rsv = 0) ∨ (op ∈ [0x00, 0x01, 0x21, 0x30, 0x40, 0x41] ∧ rsv = 0 ∧ b = 0) →
      ∃ i, decode s.regs.cmd = .ok i ∧ step s = exec i s)

/-- R39, R113: where the engine is to move and CMD holds a legal command, the step is that command's meaning. That the host's turn
marker is used up and a WAIT stays until BUSY=0 is the model's scheduling (notes/assumptions/19.md). -/
def Obligations.StepRunsTheDecodedCommand : Prop :=
  ∀ (s : State) (i : Instr), s.regs.status.busy = true → decode s.regs.cmd = .ok i →
    (s.host = [] → step s = exec i s) ∧
    (∀ es, s.host = .quiet :: es → step s = exec i { s with host := es }) ∧
    (∀ es, s.host = .await :: es → step s = exec i s)

/-- The model's own (notes/assumptions/1.md): a placed command is the very next one to run, as R39 issues it. -/
def Obligations.PlacedCommandRunsNext : Prop :=
  ∀ (s : State) (i : Instr), i.wf = true →
    step (s.withFetchWord 32 (encode i).toNat) = exec i (issue (encode i) s)

/-- R251, R253: no state stops the machine. -/
def Obligations.NoStepStops : Prop := ∀ s : State, ∃ t, step s = .next t

/-- R3, R270: with no command running and no host event nothing happens. -/
def Obligations.IdleEngineKeepsItsState : Prop :=
  ∀ s : State, s.host = [] → s.regs.status.busy = false → step s = .next s

/-! ### Invariants and whole-machine rules -/

/-- Reset meets the invariant. -/
def Obligations.ResetMeetsTheInvariant : Prop := Inv State.reset

/-- Every step keeps the invariant: memory's canonical form, R40's legal configuration, R36's flag rules, R39's and R252's error
report, R257's clean finish, R43's base bits, R258's cursors inside R84's windows, R89's windows while a command runs. Its fields
`windows` and `running`, and `bases` at AW = 1, are in part the model's own (notes/assumptions/7.md, 8.md, 10.md, 20.md). -/
def Obligations.StepKeepsTheInvariant : Prop := ∀ s t : State, Inv s → step s = .next t → Inv t

/-- R40, R6: the active configuration changes only by a CONFIG that runs, by soft reset or by `rst_n`; the platform never
does. -/
def Obligations.ActiveConfigurationHasThreeWriters : Prop :=
  ∀ s t : State, step s = .next t → t.plat = s.plat ∧
    ((t.regs.actBlockSize ≠ s.regs.actBlockSize ∨ t.regs.actPageSize ≠ s.regs.actPageSize) →
      (s.regs.status.busy = true ∧ decode s.regs.cmd = .ok .config ∧ t.regs.status.done = true) ∨
      (∃ es, s.host = .rstN :: es) ∨
      (∃ v es, s.host = wr s.plat .ctrl v :: es ∧ v.getLsbD 0 = true))

/-- R45: the engine only moves its cursors forward. -/
def Obligations.EngineNeverMovesACursorBack : Prop :=
  ∀ s t : State, Inv s → engineMove s = .next t →
    s.regs.inCur.toNat ≤ t.regs.inCur.toNat ∧ s.regs.outCur.toNat ≤ t.regs.outCur.toNat

/-- R44, R52, R53: a move of the engine writes no parameter register, no enable, and not CMD. -/
def Obligations.EngineWritesNoParameterRegister : Prop :=
  ∀ s t : State, engineMove s = .next t →
    ∀ r ∈ [Reg.cmd, .irqEn, .cfgBlockSize, .cfgPageSize, .inBase, .inBound, .inLen, .outBase, .outBound, .argCount, .bwBase],
      Reg.read t r = Reg.read s r

/-- R86: a move of the engine changes no byte outside the running command's output window, and none at all for a command
without windows. -/
def Obligations.EngineWritesOnlyItsOutputWindow : Prop :=
  ∀ s t : State, Inv s → engineMove s = .next t → ∀ a,
    (∀ i p u, s.regs.status.busy = true → decode s.regs.cmd = .ok i → commandOf i s = some (p, u) → p.outWin.has a = false) →
    t.mem.byte a = s.mem.byte a

/-- R303: with the host quiet every command ends, within IN_LEN + 1 moves of the engine. -/
def Obligations.EveryCommandEnds : Prop :=
  ∀ s : State, Inv s → s.host = [] → ∃ n t, n ≤ s.regs.inLen.toNat + 1 ∧ Host.Core.run Sys2Proof.core n s = .next t ∧
    t.regs.status.busy = false

/-- R54: no result depends on scratch left by an earlier command: after an accepted CMD write the machine is the same whatever
scratch held. -/
def Obligations.ScratchIsForgottenAtIssue : Prop :=
  ∀ (s : State) (c : Scratch) (w : Word) (es : List HostEvent), s.host = wr s.plat .cmd w :: es →
    s.regs.status.busy = false → step { s with scratch := c } = step s

/-! ### Errors -/

/-- R250, R252: a command that ends with an error reports one of its own kinds and details, ends BUSY, and changes no other
register: cursors and counters stay as the last commit left them. -/
def Obligations.ErrorsAreTheCommandsOwnAndPrecise : Prop :=
  ∀ (i : Instr) (s t : State), s.regs.status.err = false → exec i s = .next t → t.regs.status.err = true →
    ∃ k d x, (k, d) ∈ errorsOf i ∧ t.regs = { s.regs with
      status := { s.regs.status with busy := false, err := true, errKind := some k }
      errDetail := BitVec.ofNat 8 d
      errIndex := x } ∧
      t.plat = s.plat ∧ t.host = s.host ∧ t.reply = s.reply

/-- R259: an error other than BusError raised before the unit's first write leaves memory unchanged: every such error but DECODE's
detail 5, and that one too in the page's first block. After any error, also a BusError or a detail 5 in a later block, the words
outside the failing unit's output range, those of pages already committed among them, keep their values. -/
def Obligations.CleanErrorsLeaveMemoryAlone : Prop :=
  (∀ (i : Instr) (s t : State), s.regs.status.err = false → exec i s = .next t → t.regs.status.err = true →
    t.regs.status.errKind ≠ some .busError → ¬(i = .decode ∧ t.regs.errDetail = 5#8) → t.mem = s.mem) ∧
  (∀ (s t : State) (run : Run) (p : Header) (g : Group) (r : Raise), s.regs.status.err = false →
    started s (decodePlan s) = .ok run → exec .decode s = .next t → t.regs.status.err = true →
    t.regs.status.errKind ≠ some .busError →
    readHeader (inRd s) (actBS s) (actPS s) (run.icur0 + s.regs.inLen.toNat) run.icur = .ok p → p.groups[0]? = some g →
    decodeBlock (inRd s) (actBS s) (run.icur + p.hlen) g = .error r → t.mem = s.mem) ∧
  (∀ (i : Instr) (s t : State) (p : Plan) (u : Units) (run : Run), s.mem.wf → s.regs.status.err = false →
    commandOf i s = some (p, u) → started s p = .ok run → exec i s = .next t → t.regs.status.err = true →
    ∀ a, (a < outAddr s run.ocur ∨ outAddr s run.ocur + 4 * (unitRange s u run).2 ≤ a) → t.mem.byte a = s.mem.byte a)

/-- R260, R250 code 7: a BusError names an erroring address of the windows of the first unit that meets one, on a side that unit may
access. -/
def Obligations.BusErrorsNameAnErroringWindowAddress : Prop :=
  ∀ (i : Instr) (s t : State), Inv s → s.regs.status.busy = true → decode s.regs.cmd = .ok i → exec i s = .next t →
    t.regs.status.errKind = some .busError →
    ∃ p u run a, commandOf i s = some (p, u) ∧ started s p = .ok run ∧ u.more run = true ∧ s.plat.errs a = true ∧
      t.regs.errIndex = BitVec.ofNat 32 (min a 0xFFFFFFFF) ∧
      let w := u.win run
      ((t.regs.errDetail = 1#8 ∧ (w.inWin.has a = true ∨ w.tabWin.has a = true ∨ (p.readsOut = true ∧ w.outWin.has a = true))) ∨
       (t.regs.errDetail = 2#8 ∧ w.outWin.has a = true))

/-- R260, R10: where a word the unit accesses errs, the command ends with a BusError, by either outcome. Accessed are: every word PACK,
UNPACK and EXC_EXTRACT read or write; of EXC_PATCH the group's words up to the first invalid one, the targets, and the runs up to the
bucket with the first bad position; the same header words of HDR_PARSE and DECODE, the table HDR_PARSE writes; the table entries of
ENCODE's next page up to the first invalid one, its values and the page written; and of DECODE's next page each block's main run and
runs up to the first bad position, and the words of each block written. Where what is accessed depends on what memory holds, the host has
kept its duty (R89). -/
def Obligations.BusErrorsAreReported : Prop :=
  (∀ (b : BitVec 6) (s : State), s.scratch.run = none → prologue s (packPlan s) = none →
    s.regs.outCur.toNat + packedLen s.regs.inLen.toNat b.toNat ≤ s.regs.outBound.toNat →
    ((∃ k, k < s.regs.inLen.toNat ∧ s.plat.errs (inAddr s (s.regs.inCur.toNat + k)) = true) ∨
      (∃ k, k < packedLen s.regs.inLen.toNat b.toNat ∧ s.plat.errs (outAddr s (s.regs.outCur.toNat + k)) = true)) →
    EndsInBusError s (exec (.pack b) s)) ∧
  (∀ (b : BitVec 6) (s : State), s.scratch.run = none → prologue s (unpackPlan s) = none →
    let n := s.regs.argCount.toNat
    packedLen n b.toNat ≤ s.regs.inLen.toNat → s.regs.outCur.toNat + n ≤ s.regs.outBound.toNat →
    ((∃ k, k < packedLen n b.toNat ∧ s.plat.errs (inAddr s (s.regs.inCur.toNat + k)) = true) ∨
      (∃ k, k < n ∧ s.plat.errs (outAddr s (s.regs.outCur.toNat + k)) = true)) →
    EndsInBusError s (exec (.unpack b) s)) ∧
  (∀ (b : BitVec 6) (s : State), s.scratch.run = none → prologue s (extractPlan s) = none →
    let len := (record (posWidth s) (inWords s s.regs.inCur.toNat s.regs.inLen.toNat) b.toNat).length
    ((∃ k, k < s.regs.inLen.toNat ∧ s.plat.errs (inAddr s (s.regs.inCur.toNat + k)) = true) ∨
      (dutyBroken s = false ∧ s.regs.outCur.toNat + len ≤ s.regs.outBound.toNat ∧
        ∃ k, k < len ∧ s.plat.errs (outAddr s (s.regs.outCur.toNat + k)) = true)) →
    EndsInBusError s (exec (.excExtract b) s)) ∧
  (∀ s : State, s.scratch.run = none → prologue s (patchPlan s) = none → dutyBroken s = false →
    let n := s.regs.argCount.toNat
    let j := s.regs.inCur.toNat
    let wend := j + s.regs.inLen.toNat
    s.regs.outCur.toNat + n ≤ s.regs.outBound.toNat →
    (∀ k, GroupReaches s wend j k → s.plat.errs (inAddr s (j + k)) = true → EndsInBusError s (exec .excPatch s)) ∧
    (∀ g, readGroup (plainIn s) (actBS s) wend j = .ok g →
      let x0 := j + 1 + g.buckets.length
      x0 + xlen (posWidth s) g.buckets ≤ wend →
      (∀ k, k < n → s.plat.errs (outAddr s (s.regs.outCur.toNat + k)) = true → EndsInBusError s (exec .excPatch s)) ∧
      (∀ m x k, m < g.buckets.length →
        patch (plainIn s) n g.b (posWidth s) x0 (g.buckets.take m) (outWords s s.regs.outCur.toNat n) = .ok x →
        k < xlen (posWidth s) (g.buckets.take (m + 1)) → s.plat.errs (inAddr s (x0 + k)) = true →
        EndsInBusError s (exec .excPatch s)))) ∧
  (∀ s : State, s.scratch.run = none → prologue s (parsePlan s) = none → 0 < s.regs.inLen.toNat →
    let j := s.regs.inCur.toNat
    let wend := j + s.regs.inLen.toNat
    let h := s.mem.word (inAddr s j)
    (s.plat.errs (inAddr s j) = true → EndsInBusError s (exec .hdrParse s)) ∧
    (dutyBroken s = false → validH0 (actBS s) (actPS s) h = true → ∀ gs, GroupsAt s wend (j + 1) gs →
      let j' := j + 1 + (gs.map groupLen).sum
      (∀ k, gs.length < field h 8 24 → GroupReaches s wend j' k → s.plat.errs (inAddr s (j' + k)) = true →
        EndsInBusError s (exec .hdrParse s)) ∧
      (∀ k, gs.length = field h 8 24 → j' + (gs.map (blen (actBS s))).sum ≤ wend →
        s.regs.outCur.toNat + (3 + 3 * gs.length) ≤ s.regs.outBound.toNat → k < 3 + 3 * gs.length →
        s.plat.errs (outAddr s (s.regs.outCur.toNat + k)) = true → EndsInBusError s (exec .hdrParse s)))) ∧
  (∀ (s : State) (run : Run), Inv s → s.regs.status.busy = true → decode s.regs.cmd = .ok .encode →
    started s (encodePlan s) = .ok run →
    let bs := actBS s
    let nb := s.regs.inLen.toNat / bs
    let n := min (actPS s / bs) (nb - run.k)
    let entry := fun k => s.regs.bwBase.toNat + 4 * (run.k + k)
    let page := encPage bs ((blocksOf bs n (inWords s run.icur (n * bs))).zip ((tableWords s run.k n).map fun w => field w 0 6))
    run.k < nb →
    (∀ k, k < n → (∀ j, j < k → ∃ w, memRead s (entry j) = .ok w ∧ validBW w = true) → s.plat.errs (entry k) = true →
      EndsInBusError s (exec .encode s)) ∧
    (∀ k, (∀ j, j < n → ∃ w, memRead s (entry j) = .ok w ∧ validBW w = true) → k < n * bs →
      s.plat.errs (inAddr s (run.icur + k)) = true → EndsInBusError s (exec .encode s)) ∧
    (∀ k, dutyBroken s = false → (∀ j, j < n → validBW (s.mem.word (entry j)) = true) →
      run.ocur + page.length ≤ s.regs.outBound.toNat → k < page.length → s.plat.errs (outAddr s (run.ocur + k)) = true →
      EndsInBusError s (exec .encode s))) ∧
  (∀ (s : State) (run : Run), Inv s → s.regs.status.busy = true → decode s.regs.cmd = .ok .decode →
    started s (decodePlan s) = .ok run →
    let bs := actBS s
    let wend := run.icur0 + s.regs.inLen.toNat
    let h := s.mem.word (inAddr s run.icur)
    run.icur < wend →
    (s.plat.errs (inAddr s run.icur) = true → EndsInBusError s (exec .decode s)) ∧
    (dutyBroken s = false → validH0 bs (actPS s) h = true → ∀ gs, GroupsAt s wend (run.icur + 1) gs →
      let j' := run.icur + 1 + (gs.map groupLen).sum
      (∀ k, gs.length < field h 8 24 → GroupReaches s wend j' k → s.plat.errs (inAddr s (j' + k)) = true →
        EndsInBusError s (exec .decode s)) ∧
      (gs.length = field h 8 24 → j' + (gs.map (blen bs)).sum ≤ wend →
        run.ocur + gs.length * bs ≤ s.regs.outBound.toNat →
        let at' := fun i => j' + ((gs.take i).map (blen bs)).sum
        ∀ i g, gs[i]? = some g →
          (∀ j g', j < i → gs[j]? = some g' → ∃ x, decodeBlock (plainIn s) bs (at' j) g' = .ok x) →
          (∀ m x k, decodeBlock (plainIn s) bs (at' i) { g with buckets := g.buckets.take m } = .ok x →
            k < bs * g.b / 32 + xlen bs.log2 (g.buckets.take (m + 1)) → s.plat.errs (inAddr s (at' i + k)) = true →
            EndsInBusError s (exec .decode s)) ∧
          (∀ x k, decodeBlock (plainIn s) bs (at' i) g = .ok x → k < bs →
            s.plat.errs (outAddr s (run.ocur + i * bs + k)) = true → EndsInBusError s (exec .decode s)))))

/-- R254: the prologue's checks in their order, for every memory command that starts: the first failure is reported and nothing
else happens. That no BusError replaces it where the windows touch an erroring address is the model's reading
(notes/assumptions/6.md). -/
def Obligations.PrologueReportsItsFirstFailure : Prop :=
  ∀ (i : Instr) (s : State) (p : Plan) (u : Units), commandOf i s = some (p, u) → s.scratch.run = none →
    let g := s.regs
    let nb := g.inLen.toNat / g.actBlockSize.toNat
    let outWords := if i = .excPatch then g.argCount.toNat else g.outBound.toNat - g.outCur.toNat
    let overlap := fun a m b n : Nat => 0 < m ∧ 0 < n ∧ a < b + 4 * n ∧ b < a + 4 * m
    let c1 := g.inBound.toNat < g.inCur.toNat
    let c2 := g.outBound.toNat < g.outCur.toNat
    let c3 := g.inBase.toNat % 4 ≠ 0 ∨ 2 ^ s.plat.aw < g.inBase.toNat + 4 * g.inBound.toNat
    let c4 := g.outBase.toNat % 4 ≠ 0 ∨ 2 ^ s.plat.aw < g.outBase.toNat + 4 * g.outBound.toNat
    let c5 := i = .encode ∧ (g.bwBase.toNat % 4 ≠ 0 ∨ 2 ^ s.plat.aw < g.bwBase.toNat + 4 * nb)
    let c6 := g.inBound.toNat - g.inCur.toNat < g.inLen.toNat
    let c7 := (∃ b, i = .excExtract b) ∧ g.actBlockSize.toNat < g.inLen.toNat
    let c8 := i = .excPatch ∧ g.actBlockSize.toNat < g.argCount.toNat
    let c9 := overlap (g.inBase.toNat + 4 * g.inCur.toNat) g.inLen.toNat (g.outBase.toNat + 4 * g.outCur.toNat) outWords
    let c10 := i = .encode ∧ overlap g.bwBase.toNat nb (g.outBase.toNat + 4 * g.outCur.toNat) outWords
    (c1 → Reports s (exec i s) .invalidOffset 1 g.inCur.toNat) ∧
    (¬c1 → c2 → Reports s (exec i s) .invalidOffset 2 g.outCur.toNat) ∧
    (¬c1 → ¬c2 → c3 → Reports s (exec i s) .invalidOffset 3 g.inBase.toNat) ∧
    (¬c1 → ¬c2 → ¬c3 → c4 → Reports s (exec i s) .invalidOffset 4 g.outBase.toNat) ∧
    (¬c1 → ¬c2 → ¬c3 → ¬c4 → c5 → Reports s (exec i s) .invalidOffset 5 g.bwBase.toNat) ∧
    (¬c1 → ¬c2 → ¬c3 → ¬c4 → ¬c5 → c6 → Reports s (exec i s) .invalidInput 1 g.inLen.toNat) ∧
    (¬c1 → ¬c2 → ¬c3 → ¬c4 → ¬c5 → ¬c6 → c7 → Reports s (exec i s) .invalidInput 3 g.inLen.toNat) ∧
    (¬c1 → ¬c2 → ¬c3 → ¬c4 → ¬c5 → ¬c6 → c8 → Reports s (exec i s) .invalidInput 3 g.argCount.toNat) ∧
    (¬c1 → ¬c2 → ¬c3 → ¬c4 → ¬c5 → ¬c6 → ¬c7 → ¬c8 → c9 → Reports s (exec i s) .invalidInput 2 0) ∧
    (¬c1 → ¬c2 → ¬c3 → ¬c4 → ¬c5 → ¬c6 → ¬c7 → ¬c8 → ¬c9 → c10 → Reports s (exec i s) .invalidInput 5 0) ∧
    (¬c1 → ¬c2 → ¬c3 → ¬c4 → ¬c5 → ¬c6 → ¬c7 → ¬c8 → ¬c9 → ¬c10 → prologue s p = none)

/-- R164, R165, R190, R195, R256: a unit's output that does not fit is refused before any write with the bound that would
suffice, saturated; UNPACK's run past its window is CorruptStream detail 1 first. -/
def Obligations.OutputThatDoesNotFitIsRefused : Prop :=
  (∀ (b : BitVec 6) (s : State), Ready s (packPlan s) →
    let bound := s.regs.outCur.toNat + packedLen s.regs.inLen.toNat b.toNat
    s.regs.outBound.toNat < bound → Reports s (exec (.pack b) s) .insufficientOutputSpace 0 bound) ∧
  (∀ (b : BitVec 6) (s : State), Ready s (unpackPlan s) →
    let n := s.regs.argCount.toNat
    (s.regs.inLen.toNat < packedLen n b.toNat →
      Reports s (exec (.unpack b) s) .corruptStream 1 (s.regs.inCur.toNat + s.regs.inLen.toNat)) ∧
    (packedLen n b.toNat ≤ s.regs.inLen.toNat → s.regs.outBound.toNat < s.regs.outCur.toNat + n →
      Reports s (exec (.unpack b) s) .insufficientOutputSpace 0 (s.regs.outCur.toNat + n))) ∧
  (∀ (b : BitVec 6) (s : State), Ready s (extractPlan s) →
    let bound := s.regs.outCur.toNat +
      (record (posWidth s) (inWords s s.regs.inCur.toNat s.regs.inLen.toNat) b.toNat).length
    s.regs.outBound.toNat < bound → Reports s (exec (.excExtract b) s) .insufficientOutputSpace 0 bound) ∧
  (∀ s : State, Ready s (patchPlan s) →
    let bound := s.regs.outCur.toNat + s.regs.argCount.toNat
    s.regs.outBound.toNat < bound → Reports s (exec .excPatch s) .insufficientOutputSpace 0 bound)

/-- R221, R236, R230: HDR_PARSE and DECODE refuse an empty header window (HDR_PARSE), an invalid H0, and an invalid first
descriptor, with the index of the word. -/
def Obligations.CorruptHeadersAreReported : Prop :=
  ∀ s : State, Ready s (basePlan s) →
    let j := s.regs.inCur.toNat
    let h := s.mem.word (s.regs.inBase.toNat + 4 * j)
    let d := s.mem.word (s.regs.inBase.toNat + 4 * (j + 1))
    (s.regs.inLen = 0#32 → Reports s (exec .hdrParse s) .corruptStream 1 j) ∧
    (0 < s.regs.inLen.toNat → validH0 (actBS s) (actPS s) h = false →
      Reports s (exec .hdrParse s) .corruptStream 2 j ∧ Reports s (exec .decode s) .corruptStream 2 j) ∧
    (s.regs.inLen = 1#32 → validH0 (actBS s) (actPS s) h = true →
      Reports s (exec .hdrParse s) .corruptStream 1 (j + 1) ∧ Reports s (exec .decode s) .corruptStream 1 (j + 1)) ∧
    (1 < s.regs.inLen.toNat → validH0 (actBS s) (actPS s) h = true → validD d = false →
      Reports s (exec .hdrParse s) .corruptStream 3 (j + 1) ∧ Reports s (exec .decode s) .corruptStream 3 (j + 1))

/-! ### Commands: what each does, and what it leaves alone -/

/-- R150: the word 0 is NOP, and with a nonzero B or RSV it is illegal by R113's check 3; NOP sets DONE, clears BUSY and does
nothing else. -/
def Obligations.NopOnlyFinishes : Prop :=
  (∀ w : Word, w.toNat % 256 = 0 → decode w = if w = 0#32 then .ok .nop else .error .reservedNonzero) ∧
  ∀ s : State, ∃ t, exec .nop s = .next t ∧
    t.regs = { s.regs with status := { s.regs.status with busy := false, done := true } } ∧
    t.mem = s.mem ∧ t.plat = s.plat ∧ t.host = s.host ∧ t.reply = s.reply

/-- R151: the word 1 is CONFIG, and with a nonzero B or RSV it is illegal by R113's check 3; its checks in their order, each
with its detail and index and the active pair unchanged; otherwise it installs the staged pair, and changes nothing else. -/
def Obligations.ConfigChecksThenInstalls : Prop :=
  (∀ w : Word, w.toNat % 256 = 1 → decode w = if w = 1#32 then .ok .config else .error .reservedNonzero) ∧
  ∀ s : State,
    let bs := s.regs.cfgBlockSize.toNat
    let ps := s.regs.cfgPageSize.toNat
    let c1 := bs ≠ 128 ∧ bs ≠ 256 ∧ bs ≠ 512
    let c2 := ps = 0 ∨ ps % bs ≠ 0
    let c3 := 16777215 < ps / bs
    (c1 → Reports s (exec .config s) .invalidConfiguration 1 bs) ∧
    (¬c1 → c2 → Reports s (exec .config s) .invalidConfiguration 2 ps) ∧
    (¬c1 → ¬c2 → c3 → Reports s (exec .config s) .invalidConfiguration 3 ps) ∧
    (¬c1 → ¬c2 → ¬c3 → ∃ t, exec .config s = .next t ∧
      t.regs = { s.regs with
        actBlockSize := s.regs.cfgBlockSize
        actPageSize := s.regs.cfgPageSize
        status := { s.regs.status with busy := false, done := true } } ∧
      t.mem = s.mem ∧ t.plat = s.plat ∧ t.host = s.host ∧ t.reply = s.reply)

/-- R164: PACK writes `Pack` of its `IN_LEN` values, commits and finishes, and changes nothing else. -/
def Obligations.PackWritesThePackedRun : Prop :=
  ∀ (b : BitVec 6) (s : State), s.mem.wf → Ready s (packPlan s) →
    let n := s.regs.inLen.toNat
    s.regs.outCur.toNat + packedLen n b.toNat ≤ s.regs.outBound.toNat →
    ∃ t, exec (.pack b) s = .next t ∧ Completed s t (pack (inWords s s.regs.inCur.toNat n) b.toNat) n n 0

/-- R165: UNPACK writes `ARG_COUNT` values unpacked from the first `PL(n, b)` input words, commits and finishes, and changes
nothing else. -/
def Obligations.UnpackWritesTheValues : Prop :=
  ∀ (b : BitVec 6) (s : State), s.mem.wf → Ready s (unpackPlan s) →
    let n := s.regs.argCount.toNat
    let m := packedLen n b.toNat
    m ≤ s.regs.inLen.toNat → s.regs.outCur.toNat + n ≤ s.regs.outBound.toNat →
    ∃ t, exec (.unpack b) s = .next t ∧ Completed s t (unpack (inWords s s.regs.inCur.toNat m) n b.toNat) m m 0

/-- R190: EXC_EXTRACT writes the exception record of its input, counts the values wider than `b`, commits and finishes, and
changes nothing else. -/
def Obligations.ExcExtractWritesTheRecord : Prop :=
  ∀ (b : BitVec 6) (s : State), s.mem.wf → legalWidth b = true → Ready s (extractPlan s) →
    let n := s.regs.inLen.toNat
    let vals := inWords s s.regs.inCur.toNat n
    let rec' := record (posWidth s) vals b.toNat
    s.regs.outCur.toNat + rec'.length ≤ s.regs.outBound.toNat →
    ∃ t, exec (.excExtract b) s = .next t ∧ Completed s t rec' n n (countAbove b.toNat vals)

/-- R195: EXC_PATCH on a valid record inside its window rewrites the `ARG_COUNT` targets with the exceptions patched in, commits
and finishes, and changes nothing else. -/
def Obligations.ExcPatchRewritesTheTargets : Prop :=
  ∀ (s : State) (g : Group) (x : List Word), s.mem.wf → Ready s (patchPlan s) →
    let n := s.regs.argCount.toNat
    let j := s.regs.inCur.toNat
    let wend := j + s.regs.inLen.toNat
    let used := 1 + g.buckets.length + xlen (posWidth s) g.buckets
    s.regs.outCur.toNat + n ≤ s.regs.outBound.toNat →
    readGroup (plainIn s) (actBS s) wend j = .ok g → j + used ≤ wend →
    patch (plainIn s) n g.b (posWidth s) (j + 1 + g.buckets.length) g.buckets (outWords s s.regs.outCur.toNat n) = .ok x →
    ∃ t, exec .excPatch s = .next t ∧ Completed s t x used used (g.buckets.map (·.c)).sum

/-- R230, R126, R222: HDR_PARSE on a page inside its window writes the metadata table (H0, HLEN, PLEN, and D, OFF, BLEN of each
block), consumes HLEN words, commits and finishes, and changes nothing else. -/
def Obligations.HdrParseWritesTheTable : Prop :=
  ∀ (s : State) (p : Header), s.mem.wf → Ready s (parsePlan s) →
    let j := s.regs.inCur.toNat
    readHeader (plainIn s) (actBS s) (actPS s) (j + s.regs.inLen.toNat) j = .ok p →
    s.regs.outCur.toNat + (3 + 3 * p.groups.length) ≤ s.regs.outBound.toNat →
    let blen := fun g : Group => actBS s * g.b / 32 +
      (g.buckets.map fun k => packedLen k.c (actBS s).log2 + packedLen k.c k.e).sum
    let hlen := 1 + (p.groups.map fun g => 1 + g.buckets.length).sum
    ∃ t table, exec .hdrParse s = .next t ∧ Completed s t table hlen hlen 0 ∧ table.length = 3 + 3 * p.groups.length ∧
      table[0]? = some (s.mem.word (inAddr s j)) ∧ table[1]? = some (BitVec.ofNat 32 hlen) ∧
      table[2]? = some (BitVec.ofNat 32 (hlen + (p.groups.map blen).sum)) ∧
      ∀ i g, p.groups[i]? = some g →
        table[3 + 3 * i]? = some g.d ∧
        table[4 + 3 * i]? = some (BitVec.ofNat 32 (hlen + ((p.groups.take i).map blen).sum)) ∧
        table[5 + 3 * i]? = some (BitVec.ofNat 32 (blen g))

/-- R232, R258: a move of ENCODE encodes its next page of `min(BPP, NB - k)` blocks, commits it, and finishes after the last one; it
changes nothing else, and R260: an erroring address outside the page's own windows does not matter to it. Finishing in the same move
as the last commit is the model's granularity (notes/assumptions/8.md), a page's own windows its reading (notes/assumptions/6.md). -/
def Obligations.EncodeWritesItsNextPage : Prop :=
  ∀ (s : State) (run : Run), Inv s → s.regs.status.busy = true → decode s.regs.cmd = .ok .encode →
    started s (encodePlan s) = .ok run → Undisturbed s ((encodeUnits s).win run) →
    let bs := actBS s
    let nb := s.regs.inLen.toNat / bs
    let n := min (actPS s / bs) (nb - run.k)
    let blks := (blocksOf bs n (inWords s run.icur (n * bs))).zip ((tableWords s run.k n).map fun w => field w 0 6)
    let page := encPage bs blks
    run.k < nb → (∀ w ∈ tableWords s run.k n, validBW w = true) → run.ocur + page.length ≤ s.regs.outBound.toNat →
    ∃ t d, exec .encode s = .next t ∧ d.words = page ∧ d.used = n * bs ∧ d.rd = n * bs + n ∧ d.units = n ∧
      d.exc = (blks.map fun x => countAbove x.2 x.1).sum ∧
      PageCommitted s t run (fun r => decide (r.k < nb)) d

/-- R223, R236, R258: a move of DECODE decodes its next page, commits it, and finishes at the window's end; it changes nothing
else, and R260: an erroring address outside the page's own windows does not matter to it. Finishing in the same move as the last
commit is the model's granularity (notes/assumptions/8.md), a page's own windows its reading (notes/assumptions/6.md). -/
def Obligations.DecodeWritesItsNextPage : Prop :=
  ∀ (s : State) (run : Run) (p : Header) (blks : List (List Word)), Inv s → s.regs.status.busy = true →
    decode s.regs.cmd = .ok .decode → started s (decodePlan s) = .ok run → Undisturbed s ((decodeUnits s).win run) →
    let bs := actBS s
    let wend := run.icur0 + s.regs.inLen.toNat
    run.icur < wend → readHeader (plainIn s) bs (actPS s) wend run.icur = .ok p →
    run.ocur + p.groups.length * bs ≤ s.regs.outBound.toNat →
    blks.length = p.groups.length →
    (∀ (i : Nat) (g : Group) (o : Nat) (x : List Word), p.groups[i]? = some g → (p.offsets bs)[i]? = some o → blks[i]? = some x →
      decodeBlock (plainIn s) bs (run.icur + o) g = .ok x) →
    ∃ t d, exec .decode s = .next t ∧ d.words = blks.flatten ∧ d.used = p.plen bs ∧ d.rd = p.plen bs ∧
      d.words.length = p.groups.length * bs ∧ d.exc = (p.groups.map fun g => (g.buckets.map (·.c)).sum).sum ∧
      PageCommitted s t run (fun r => decide (r.icur < wend)) d

/-- R188, R189, R195, R221, R223, R230: an error of `readGroup`, `patch` or `readHeader` met before the unit's first write, an
extent past the window, or a table or page that does not fit ends EXC_PATCH, HDR_PARSE or DECODE with that error and nothing
else; so does an error of DECODE's `patch` in the page's first block, and in a later block it ends DECODE with the same report and memory
unchanged outside the page's output range. Where H0 and all its groups parse and the page's PLEN words pass the window's end,
HDR_PARSE and DECODE end with CorruptStream detail 1 at the window's end (R221). -/
def Obligations.StreamErrorsEndTheCommand : Prop :=
  (∀ s : State, Ready s (patchPlan s) →
    let n := s.regs.argCount.toNat
    let j := s.regs.inCur.toNat
    let wend := j + s.regs.inLen.toNat
    s.regs.outCur.toNat + n ≤ s.regs.outBound.toNat →
    (∀ r, readGroup (plainIn s) (actBS s) wend j = .error r → Reports s (exec .excPatch s) r.kind r.detail r.index) ∧
    ∀ g, readGroup (plainIn s) (actBS s) wend j = .ok g →
      let x0 := j + 1 + g.buckets.length
      (wend < x0 + xlen (posWidth s) g.buckets → Reports s (exec .excPatch s) .corruptStream 1 wend) ∧
      (x0 + xlen (posWidth s) g.buckets ≤ wend → ∀ r,
        patch (plainIn s) n g.b (posWidth s) x0 g.buckets (outWords s s.regs.outCur.toNat n) = .error r →
        Reports s (exec .excPatch s) r.kind r.detail r.index)) ∧
  (∀ s : State, Ready s (parsePlan s) →
    let j := s.regs.inCur.toNat
    let read := readHeader (plainIn s) (actBS s) (actPS s) (j + s.regs.inLen.toNat) j
    (∀ r, read = .error r → Reports s (exec .hdrParse s) r.kind r.detail r.index) ∧
    ∀ p, read = .ok p →
      let bound := s.regs.outCur.toNat + (3 + 3 * p.groups.length)
      s.regs.outBound.toNat < bound → Reports s (exec .hdrParse s) .insufficientOutputSpace 0 bound) ∧
  (∀ (s : State) (gs : List Group), Ready s (parsePlan s) →
    let j := s.regs.inCur.toNat
    let wend := j + s.regs.inLen.toNat
    PageAt s wend j gs → wend < j + pageLen (actBS s) gs → Reports s (exec .hdrParse s) .corruptStream 1 wend) ∧
  (∀ (s : State) (run : Run) (gs : List Group), Inv s → s.regs.status.busy = true → decode s.regs.cmd = .ok .decode →
    started s (decodePlan s) = .ok run → Undisturbed s ((decodeUnits s).win run) →
    let wend := run.icur0 + s.regs.inLen.toNat
    PageAt s wend run.icur gs → wend < run.icur + pageLen (actBS s) gs → Reports s (exec .decode s) .corruptStream 1 wend) ∧
  (∀ (s : State) (run : Run), Inv s → s.regs.status.busy = true → decode s.regs.cmd = .ok .decode →
    started s (decodePlan s) = .ok run → Undisturbed s ((decodeUnits s).win run) → run.icur < run.icur0 + s.regs.inLen.toNat →
    let read := readHeader (plainIn s) (actBS s) (actPS s) (run.icur0 + s.regs.inLen.toNat) run.icur
    (∀ r, read = .error r → Reports s (exec .decode s) r.kind r.detail r.index) ∧
    ∀ p, read = .ok p →
      let bound := run.ocur + p.groups.length * actBS s
      (s.regs.outBound.toNat < bound → Reports s (exec .decode s) .insufficientOutputSpace 0 bound) ∧
      (bound ≤ s.regs.outBound.toNat → ∀ (i : Nat) (g : Group) (o : Nat) (r : Raise),
        (∀ (j : Nat) (g' : Group) (o' : Nat), j < i → p.groups[j]? = some g' → (p.offsets (actBS s))[j]? = some o' →
          ∃ x, decodeBlock (plainIn s) (actBS s) (run.icur + o') g' = .ok x) →
        p.groups[i]? = some g → (p.offsets (actBS s))[i]? = some o →
        decodeBlock (plainIn s) (actBS s) (run.icur + o) g = .error r →
        r.kind = .corruptStream ∧ r.detail = 5 ∧ (i = 0 → Reports s (exec .decode s) r.kind r.detail r.index) ∧
        ReportsDirty s (exec .decode s) r.kind r.detail r.index run.ocur (p.groups.length * actBS s)))

/-- R232, R125: ENCODE ends with InvalidInput detail 4 at the first invalid table entry of its next page, and with the bound that
would suffice where the page does not fit; pages before it stay committed, and nothing else changes. -/
def Obligations.EncodeRefusesBadEntriesAndFullOutput : Prop :=
  ∀ (s : State) (run : Run), Inv s → s.regs.status.busy = true → decode s.regs.cmd = .ok .encode →
    started s (encodePlan s) = .ok run → Undisturbed s ((encodeUnits s).win run) →
    let bs := actBS s
    let nb := s.regs.inLen.toNat / bs
    let n := min (actPS s / bs) (nb - run.k)
    let entry := fun i => (tableWords s run.k n).getD i 0#32
    let page := encPage bs ((blocksOf bs n (inWords s run.icur (n * bs))).zip ((tableWords s run.k n).map fun w => field w 0 6))
    run.k < nb →
    (∀ j, j < n → (∀ i, i < j → validBW (entry i) = true) → validBW (entry j) = false →
      Reports s (exec .encode s) .invalidInput 4 (run.k + j)) ∧
    ((∀ i, i < n → validBW (entry i) = true) → s.regs.outBound.toNat < run.ocur + page.length →
      Reports s (exec .encode s) .insufficientOutputSpace 0 (run.ocur + page.length))

/-- R232, R236: ENCODE with no whole block and DECODE of an empty window finish with nothing read, written or consumed. -/
def Obligations.EncodeAndDecodeOfNothingFinish : Prop :=
  ∀ s : State, s.scratch.run = none →
    let quietEnd := fun o : Host.Outcome State Fault Refusal => ∃ t, o = .next t ∧
      t.regs = { s.regs with status := { s.regs.status with busy := false, done := true } } ∧
      t.mem = s.mem ∧ t.plat = s.plat ∧ t.host = s.host ∧ t.reply = s.reply
    (prologue s (encodePlan s) = none → s.regs.inLen.toNat < actBS s → quietEnd (exec .encode s)) ∧
    (prologue s (decodePlan s) = none → s.regs.inLen = 0#32 → quietEnd (exec .decode s))

/-! ### The packing law -/

/-- R12: `bits(v)` is the least width that holds `v`, within 0..32. -/
def Obligations.BitsIsTheLeastWidth : Prop :=
  ∀ v : Word, bits v ≤ 32 ∧ (v = 0#32 → bits v = 0) ∧ (v ≠ 0#32 → 2 ^ (bits v - 1) ≤ v.toNat ∧ 1 ≤ bits v) ∧
    v.toNat < 2 ^ bits v

/-- R160: stream bit `32*k + j` of `Pack(vals, w)` is bit `(32*k + j) mod w` of value `floor((32*k + j) / w)`, and 0 past the
last value; there are `ceil(n*w/32)` words. -/
def Obligations.PackPlacesEveryBit : Prop :=
  ∀ (vals : List Word) (w : Nat), w ≤ 32 →
    (pack vals w).length = (vals.length * w + 31) / 32 ∧
    ∀ k j (hk : k < (pack vals w).length), j < 32 →
      (pack vals w)[k].getLsbD j =
        if 32 * k + j < vals.length * w then (vals.getD ((32 * k + j) / w) 0#32).getLsbD ((32 * k + j) % w) else false

/-- R161: unpacking gives `n` values, each value by value, with a value inside one word or across two. -/
def Obligations.UnpackReadsValueByValue : Prop :=
  ∀ (words : List Word) (n w : Nat), w ≤ 32 → packedLen n w ≤ words.length →
    (unpack words n w).length = n ∧ ∀ (i : Nat) (hi : i < (unpack words n w).length),
    let q := i * w / 32
    let r := i * w % 32
    let lo := (words.getD q 0#32).toNat
    let hi' := (words.getD (q + 1) 0#32).toNat
    (w = 0 → (unpack words n w)[i] = 0#32) ∧
    (0 < w → r + w ≤ 32 → (unpack words n w)[i].toNat = (lo >>> r) % 2 ^ w) ∧
    (32 < r + w → (unpack words n w)[i].toNat = ((lo >>> r) ||| (hi' <<< (32 - r))) % 2 ^ w)

/-- R162: the six laws of the packing pair. -/
def Obligations.PackingPairLaws : Prop :=
  ∀ w : Nat, w ≤ 32 →
    (∀ vals : List Word, unpack (pack vals w) vals.length w = vals.map fun v => BitVec.ofNat 32 (trunc v w)) ∧
    (∀ vals : List Word, (pack vals w).length = packedLen vals.length w) ∧
    (∀ vals : List Word, pack vals 32 = vals) ∧
    (∀ vals : List Word, pack vals 0 = []) ∧
    (∀ vals : List Word, ∀ m, vals.length = 32 * m → (pack vals w).length = m * w) ∧
    (∀ (ws : List Word) (n : Nat), ws.length = packedLen n w → wordStream ws < 2 ^ (n * w) → pack (unpack ws n w) w = ws)

/-! ### Exceptions, pages, streams -/

/-- R181, R180: every value is its low bits OR its high bits put back, and an exception's high bits fill exactly its extra
width. -/
def Obligations.ValuesRebuildFromTheirParts : Prop :=
  ∀ (v : Word) (b : Nat), b ≤ 32 →
    v = BitVec.ofNat 32 (trunc v b) ||| ((v >>> b) <<< b) ∧
    (b < bits v → 2 ^ (bits v - b - 1) ≤ (v >>> b).toNat ∧ (v >>> b).toNat < 2 ^ (bits v - b) ∧
      (v >>> b).toNat <<< b < 2 ^ 32)

/-- R183: the buckets are by increasing extra width, nonempty, with increasing positions and their high bits, and each exception
position stands in exactly the bucket of its extra width. -/
def Obligations.BucketsPartitionTheExceptions : Prop :=
  ∀ (vals : List Word) (b : Nat), b ≤ 32 →
    ((buckets vals b).map (·.e)).Pairwise (· < ·) ∧ (buckets vals b).length ≤ 32 - b ∧
    (buckets vals b).length ≤ vals.length ∧
    (∀ k ∈ buckets vals b, 1 ≤ k.e ∧ k.e ≤ 32 - b ∧ k.pos ≠ [] ∧ k.pos.Pairwise (· < ·) ∧
      k.hi = k.pos.map fun p => vals.getD p 0#32 >>> b) ∧
    (∀ p (h : p < vals.length), ∀ e, (∃ k ∈ buckets vals b, k.e = e ∧ p ∈ k.pos) ↔ (1 ≤ e ∧ bits vals[p] = b + e)) ∧
    (∀ k ∈ buckets vals b, ∀ p ∈ k.pos, p < vals.length)

/-- R184: a bucket's deltas fit PW bits, are at least 1 after the first, and their prefix sums are the positions. -/
def Obligations.DeltasRebuildThePositions : Prop :=
  ∀ (pos : List Nat) (bs : Nat), bs ∈ [128, 256, 512] → pos.Pairwise (· < ·) → (∀ p ∈ pos, p < bs) →
    (deltas pos).length = pos.length ∧ (∀ d ∈ deltas pos, d < bs ∧ d < 2 ^ bs.log2) ∧ (∀ d ∈ (deltas pos).tail, 1 ≤ d) ∧
    ∀ k (h : k < pos.length), pos[k] = ((deltas pos).take (k + 1)).sum

/-- R189: patching a bucket ORs each exception's high bits, shifted up by `b`, into the slot at the prefix sum of its deltas, and
fails exactly when some prefix sum is at or past the block length, with the word that holds the first such delta's first
bit. -/
def Obligations.PatchOrsIntoTheSlots : Prop :=
  ∀ (n b pw q : Nat) (es : List (Word × Word)) (x : List Word),
    let sumTo := fun k => ((es.take (k + 1)).map fun y => y.1.toNat).sum
    ((∀ k, k < es.length → sumTo k < n) →
      patchBucket n b pw q 0 0 es x = .ok ((List.range x.length).map fun i =>
        (List.range es.length).foldl
          (fun acc k => if sumTo k = i then acc ||| ((es.getD k (0#32, 0#32)).2 <<< b) else acc) (x.getD i 0#32))) ∧
    (∀ k, k < es.length → n ≤ sumTo k → (∀ j, j < k → sumTo j < n) →
      patchBucket n b pw q 0 0 es x = .error { kind := .corruptStream, detail := 5, index := q + k * pw / 32 })

/-- R121, R122, R123, R125: the header words hold their fields, and exactly the words the builders give are valid. -/
def Obligations.HeaderWordsHoldTheirFields : Prop :=
  (∀ b nb, b ≤ 32 → nb ≤ 32 - b →
    validD (mkD b nb) = true ∧ field (mkD b nb) 0 6 = b ∧ field (mkD b nb) 8 6 = nb) ∧
  (∀ bs b e c, bs ∈ [128, 256, 512] → b ≤ 32 → 1 ≤ e → e ≤ 32 - b → 1 ≤ c → c ≤ bs →
    validB bs (mkB e c) b = true ∧ field (mkB e c) 0 6 = e ∧ field (mkB e c) 8 10 = c) ∧
  (∀ bs ps n, legalConfig bs ps → 1 ≤ n → n ≤ ps / bs →
    validH0 bs ps (mkH0 bs n) = true ∧ field (mkH0 bs n) 0 4 = bs.log2 ∧ field (mkH0 bs n) 8 24 = n) ∧
  (∀ w, validD w = true → ∃ b nb, b ≤ 32 ∧ nb ≤ 32 - b ∧ w = mkD b nb) ∧
  (∀ bs b w, validB bs w b = true → ∃ e c, 1 ≤ e ∧ e ≤ 32 - b ∧ 1 ≤ c ∧ c ≤ bs ∧ w = mkB e c) ∧
  (∀ bs ps h, validH0 bs ps h = true → ∃ n, 1 ≤ n ∧ n ≤ ps / bs ∧ h = mkH0 bs n) ∧
  (∀ w, validBW w = true ↔ w.toNat ≤ 32)

/-- R188: `readGroup` checks the words in stream order and the first failure raises with its own detail and index; where all
pass, it returns D's fields and the buckets'. -/
def Obligations.DescriptorGroupsAreCheckedInOrder : Prop :=
  ∀ (rd : Nat → Except Raise Word) (bs wend j : Nat),
    (wend ≤ j → readGroup rd bs wend j = .error { kind := .corruptStream, detail := 1, index := wend }) ∧
    ∀ d : Word, j < wend → rd j = .ok d →
      (validD d = false → readGroup rd bs wend j = .error { kind := .corruptStream, detail := 3, index := j }) ∧
      (validD d = true → ∀ ws : List Word, ws.length ≤ field d 8 6 →
        (∀ k (h : k < ws.length), j + 1 + k < wend ∧ rd (j + 1 + k) = .ok ws[k] ∧ validB bs ws[k] (field d 0 6) = true) →
        (ws.length = field d 8 6 → readGroup rd bs wend j = .ok
          { d := d, b := field d 0 6, buckets := ws.map fun w => { e := field w 0 6, c := field w 8 10 } }) ∧
        (ws.length < field d 8 6 → wend ≤ j + 1 + ws.length →
          readGroup rd bs wend j = .error { kind := .corruptStream, detail := 1, index := wend }) ∧
        (ws.length < field d 8 6 → j + 1 + ws.length < wend → ∀ w, rd (j + 1 + ws.length) = .ok w →
          validB bs w (field d 0 6) = false →
          readGroup rd bs wend j = .error { kind := .corruptStream, detail := 4, index := j + 1 + ws.length }))

/-- R196: unpacking a block's main run and patching it with its exception record gives the block, whatever the width. -/
def Obligations.BlockRoundTrip : Prop :=
  ∀ (bs b wend j : Nat) (vals : List Word) (rd : Nat → Except Raise Word), bs ∈ [128, 256, 512] → b ≤ 32 → vals.length ≤ bs →
    Holds rd j (record bs.log2 vals b) → j + (record bs.log2 vals b).length ≤ wend →
    ∃ g, readGroup rd bs wend j = .ok g ∧ g.b = b ∧
      j + 1 + g.buckets.length + xlen bs.log2 g.buckets = j + (record bs.log2 vals b).length ∧
      patch rd vals.length b bs.log2 (j + 1 + g.buckets.length) g.buckets (unpack (pack vals b) vals.length b) = .ok vals

/-- R212, R221, R222, R223: a page that was encoded parses inside its own length, and each block decodes to its values. -/
def Obligations.PageRoundTrip : Prop :=
  ∀ (bs ps wend j : Nat) (blks : List (List Word × Nat)) (rd : Nat → Except Raise Word), legalConfig bs ps →
    1 ≤ blks.length → blks.length ≤ ps / bs → (∀ x ∈ blks, x.1.length = bs ∧ x.2 ≤ 32) →
    Holds rd j (encPage bs blks) → j + (encPage bs blks).length ≤ wend →
    ∃ p, readHeader rd bs ps wend j = .ok p ∧ p.plen bs = (encPage bs blks).length ∧ p.groups.length = blks.length ∧
      (p.groups.map fun g => (g.buckets.map (·.c)).sum).sum = (blks.map fun x => countAbove x.2 x.1).sum ∧
      ∀ (i : Nat) (g : Group) (o : Nat) (x : List Word × Nat), p.groups[i]? = some g → (p.offsets bs)[i]? = some o → blks[i]? = some x →
        decodeBlock rd bs (j + o) g = .ok x.1

/-- R245: where ENCODE finishes with success having written `L` words, DECODE of those `L` words under the same configuration, with
room for them, finishes with success, writes exactly the whole blocks ENCODE consumed, and advances IN_CUR by `L`; no bus error or
host touches either command's windows. -/
def Obligations.DecodeRestoresWhatEncodeConsumed : Prop :=
  ∀ (s t u : State) (m : Nat),
    Inv s → s.regs.status.busy = true → decode s.regs.cmd = .ok .encode → s.scratch.run = none → s.host = [] →
    Undisturbed s (encodePlan s).toWindows →
    Host.Core.run Sys2Proof.core m s = .next t → t.regs.status.done = true →
    Inv u → u.regs.status.busy = true → decode u.regs.cmd = .ok .decode → u.scratch.run = none → u.host = [] →
    Undisturbed u (decodePlan u).toWindows → prologue u (decodePlan u) = none → actBS u = actBS s → actPS u = actPS s →
    let l := t.regs.outCur.toNat - s.regs.outCur.toNat
    let n := s.regs.inLen.toNat / actBS s * actBS s
    u.regs.inLen.toNat = l → inWords u u.regs.inCur.toNat l = outWords t s.regs.outCur.toNat l →
    u.regs.outCur.toNat + n ≤ u.regs.outBound.toNat →
    ∃ k v, Host.Core.run Sys2Proof.core k u = .next v ∧ v.regs.status.done = true ∧ v.regs.status.busy = false ∧
      outWords v u.regs.outCur.toNat n = inWords s s.regs.inCur.toNat n ∧
      v.regs.inCur.toNat = u.regs.inCur.toNat + l ∧ v.regs.outCur.toNat = u.regs.outCur.toNat + n

/-- R240: the page a move of ENCODE writes, and how far it moves the cursors, is a function of the page's input values, its table
entries, the blocks left and the active configuration. -/
def Obligations.EncodeDependsOnItsOperandsOnly : Prop :=
  ∀ (s t s' t' : State) (run run' : Run),
    Inv s → s.regs.status.busy = true → decode s.regs.cmd = .ok .encode → started s (encodePlan s) = .ok run →
    Undisturbed s ((encodeUnits s).win run) → Inv s' → s'.regs.status.busy = true → decode s'.regs.cmd = .ok .encode →
    started s' (encodePlan s') = .ok run' → Undisturbed s' ((encodeUnits s').win run') →
    actBS s' = actBS s → actPS s' = actPS s → run'.k = run.k → run.k < s.regs.inLen.toNat / actBS s →
    s'.regs.inLen.toNat / actBS s = s.regs.inLen.toNat / actBS s →
    let n := min (actPS s / actBS s) (s.regs.inLen.toNat / actBS s - run.k)
    inWords s' run'.icur (n * actBS s) = inWords s run.icur (n * actBS s) → tableWords s' run.k n = tableWords s run.k n →
    exec .encode s = .next t → t.regs.status.err = false → exec .encode s' = .next t' → t'.regs.status.err = false →
    ∃ l, t.regs.outCur.toNat = run.ocur + l ∧ t'.regs.outCur.toNat = run'.ocur + l ∧
      t.regs.inCur.toNat = run.icur + n * actBS s ∧ t'.regs.inCur.toNat = run'.icur + n * actBS s ∧
      outWords t' run'.ocur l = outWords t run.ocur l

/-- R246's reason: a block whose values all fit its width encodes to H0, D and its main run alone. -/
def Obligations.BlockWithoutExceptionsHasNoSideStream : Prop :=
  ∀ (bs b : Nat) (vals : List Word), bs ∈ [128, 256, 512] → vals.length = bs → b ≤ 32 → (∀ v ∈ vals, bits v ≤ b) →
    encPage bs [(vals, b)] = mkH0 bs 1 :: mkD b 0 :: pack vals b ∧ (encPage bs [(vals, b)]).length = 2 + bs * b / 32

/-- R81: a stored word reads back, its bytes are little-endian, every other byte stays, and the canonical form too. -/
def Obligations.WordsAreStoredLittleEndian : Prop :=
  ∀ (m : Memory) (a : Nat) (v : Word), m.wf →
    (m.setWord a v).wf ∧ (m.setWord a v).word a = v ∧
    (∀ k, k < 4 → (m.setWord a v).byte (a + k) = BitVec.ofNat 8 (v.toNat >>> (8 * k))) ∧
    ∀ b, (b < a ∨ a + 4 ≤ b) → (m.setWord a v).byte b = m.byte b
end

