-- ==== Sys2Proof/Laws/Memory.lean ====
section
/-! SUPPORT. Data memory: every operation keeps the canonical form, a read after a write to the same place gives the value
written, and a write leaves every other place alone. -/

namespace Sys2Proof.Machine

/-! ### Bytes -/

theorem Memory.byte_of_forall_lt {m : Memory} {a : Nat} (h : ∀ x ∈ m, a < x.1) :
    m.byte a = Config.unlistedByte := by
  induction m with
  | nil => rfl
  | cons c m ih =>
    have hc : a < c.1 := h c (by simp)
    have hm := ih fun x hx => h x (by simp [hx])
    simp only [Memory.byte, if_neg (by omega : ¬c.1 = a), hm]

theorem Memory.mem_setByte {m : Memory} {a : Nat} {v : Byte} {x : Host.Cell} (h : x ∈ m.setByte a v) :
    x ∈ m ∨ (x = (a, v) ∧ v ≠ Config.unlistedByte) := by
  induction m with
  | nil =>
    simp only [Memory.setByte] at h
    split at h <;> simp_all
  | cons c m ih =>
    simp only [Memory.setByte] at h
    split at h
    · rcases List.mem_cons.1 h with h | h
      · simp [h]
      · rcases ih h with h | h <;> simp [h]
    · split at h <;> split at h <;> simp_all <;> tauto

/-- Every byte write keeps the canonical form. -/
theorem Memory.setByte_wf {m : Memory} (h : m.wf) (a : Nat) (v : Byte) : (m.setByte a v).wf := by
  refine ⟨?_, fun x hx => ?_⟩
  · induction m with
    | nil => simp only [Memory.setByte]; split <;> simp
    | cons c m ih =>
      obtain ⟨hp, hu⟩ := h
      obtain ⟨hc, hm⟩ := List.pairwise_cons.1 hp
      have hmw : Memory.wf m := ⟨hm, fun x hx => hu x (by simp [hx])⟩
      simp only [Memory.setByte]
      split
      · refine List.pairwise_cons.2 ⟨fun x hx => ?_, ih hmw⟩
        rcases Memory.mem_setByte hx with hx | ⟨rfl, -⟩
        · exact hc x hx
        · simpa
      · split <;> split
        · exact hm
        · exact List.pairwise_cons.2 ⟨fun x hx => by have := hc x hx; simp_all, hm⟩
        · exact hp
        · refine List.pairwise_cons.2 ⟨fun x hx => ?_, hp⟩
          rcases List.mem_cons.1 hx with rfl | hx
          · simp; omega
          · have := hc x hx; simp; omega
  · rcases Memory.mem_setByte hx with hx | ⟨rfl, hv⟩
    · exact h.2 x hx
    · exact hv

/-- A byte read after a byte write. -/
theorem Memory.byte_setByte {m : Memory} (h : m.wf) (a : Nat) (v : Byte) (b : Nat) :
    (m.setByte a v).byte b = if b = a then v else m.byte b := by
  induction m with
  | nil =>
    by_cases hv : v = Config.unlistedByte <;> by_cases hb : b = a <;>
      simp [Memory.setByte, Memory.byte, hv, hb, eq_comm]
    simp [Ne.symm hb]
  | cons c m ih =>
    obtain ⟨hp, hu⟩ := h
    obtain ⟨hc, hm⟩ := List.pairwise_cons.1 hp
    have hmw : Memory.wf m := ⟨hm, fun x hx => hu x (by simp [hx])⟩
    simp only [Memory.setByte]
    split
    · rename_i hlt
      simp only [Memory.byte, ih hmw]
      by_cases hb : b = a
      · subst hb; simp [Nat.ne_of_lt hlt]
      · simp [hb]
    · rename_i hlt
      have hout : ∀ b, b ≤ c.1 → Memory.byte m b = Config.unlistedByte := fun b hb =>
        Memory.byte_of_forall_lt fun x hx => lt_of_le_of_lt hb (hc x hx)
      split
      · rename_i hca
        split
        · rename_i hv
          by_cases hb : b = a
          · subst hb; simp [hout b (by omega), hv]
          · simp [Memory.byte, hb, show ¬c.1 = b by omega]
        · by_cases hb : b = a
          · simp [Memory.byte, hb]
          · simp [Memory.byte, hb, show ¬c.1 = b by omega, Ne.symm hb]
      · rename_i hca
        split
        · rename_i hv
          by_cases hb : b = a
          · subst hb; simp [Memory.byte, hca, hout b (by omega), hv]
          · simp [hb]
        · by_cases hb : b = a
          · simp [Memory.byte, hb]
          · simp [Memory.byte, hb, Ne.symm hb]

/-! ### Words -/

theorem Memory.setWord_wf {m : Memory} (h : m.wf) (a : Nat) (v : Word) : (m.setWord a v).wf :=
  Memory.setByte_wf (Memory.setByte_wf (Memory.setByte_wf (Memory.setByte_wf h _ _) _ _) _ _) _ _

/-- A byte outside the four bytes written is unchanged. -/
theorem Memory.byte_setWord_other {m : Memory} (h : m.wf) {a b : Nat} (v : Word) (hb : b < a ∨ a + 4 ≤ b) :
    (m.setWord a v).byte b = m.byte b := by
  have h1 := Memory.setByte_wf h a (v.extractLsb' 0 8)
  have h2 := Memory.setByte_wf h1 (a + 1) (v.extractLsb' 8 8)
  have h3 := Memory.setByte_wf h2 (a + 2) (v.extractLsb' 16 8)
  rw [Memory.setWord, Memory.byte_setByte h3, Memory.byte_setByte h2, Memory.byte_setByte h1, Memory.byte_setByte h]
  simp [show ¬b = a by omega, show ¬b = a + 1 by omega, show ¬b = a + 2 by omega, show ¬b = a + 3 by omega]

/-- The bytes of a stored word, R81. -/
theorem Memory.byte_setWord_same {m : Memory} (h : m.wf) (a : Nat) (v : Word) :
    (m.setWord a v).byte a = v.extractLsb' 0 8 ∧ (m.setWord a v).byte (a + 1) = v.extractLsb' 8 8 ∧
      (m.setWord a v).byte (a + 2) = v.extractLsb' 16 8 ∧ (m.setWord a v).byte (a + 3) = v.extractLsb' 24 8 := by
  have h1 := Memory.setByte_wf h a (v.extractLsb' 0 8)
  have h2 := Memory.setByte_wf h1 (a + 1) (v.extractLsb' 8 8)
  have h3 := Memory.setByte_wf h2 (a + 2) (v.extractLsb' 16 8)
  refine ⟨?_, ?_, ?_, ?_⟩ <;>
    rw [Memory.setWord, Memory.byte_setByte h3, Memory.byte_setByte h2, Memory.byte_setByte h1,
      Memory.byte_setByte h] <;> simp

/-- A word is its four bytes, the highest first. -/
theorem bytes_append (v : Word) :
    v.extractLsb' 24 8 ++ v.extractLsb' 16 8 ++ v.extractLsb' 8 8 ++ v.extractLsb' 0 8 = v := by
  rw [BitVec.extractLsb'_append_extractLsb'_eq_extractLsb' (by rfl),
    BitVec.extractLsb'_append_extractLsb'_eq_extractLsb' (by rfl),
    BitVec.extractLsb'_append_extractLsb'_eq_extractLsb' (by rfl)]
  simp

/-- A word read after a word write to the same address. -/
theorem Memory.word_setWord_same {m : Memory} (h : m.wf) (a : Nat) (v : Word) : (m.setWord a v).word a = v := by
  obtain ⟨h0, h1, h2, h3⟩ := Memory.byte_setWord_same h a v
  rw [Memory.word, h0, h1, h2, h3, bytes_append]

/-- A word that shares no byte with the word written is unchanged. -/
theorem Memory.word_setWord_other {m : Memory} (h : m.wf) {a b : Nat} (v : Word) (hb : b + 4 ≤ a ∨ a + 4 ≤ b) :
    (m.setWord a v).word b = m.word b := by
  simp only [Memory.word]
  rw [Memory.byte_setWord_other h v (by omega), Memory.byte_setWord_other h v (by omega),
    Memory.byte_setWord_other h v (by omega), Memory.byte_setWord_other h v (by omega)]

/-! ### Runs of words -/

theorem Memory.setWords_wf {m : Memory} (h : m.wf) (a : Nat) (vs : List Word) : (m.setWords a vs).wf := by
  induction vs generalizing m a with
  | nil => exact h
  | cons v vs ih => exact ih (Memory.setWord_wf h a v) (a + 4)

/-- A byte outside the words written is unchanged. -/
theorem Memory.byte_setWords_other {m : Memory} (h : m.wf) {a b : Nat} (vs : List Word)
    (hb : b < a ∨ a + 4 * vs.length ≤ b) : (m.setWords a vs).byte b = m.byte b := by
  induction vs generalizing m a with
  | nil => rfl
  | cons v vs ih =>
    simp only [List.length_cons] at hb
    rw [Memory.setWords, ih (Memory.setWord_wf h a v) (by omega), Memory.byte_setWord_other h v (by omega)]

/-- A word outside the words written is unchanged. -/
theorem Memory.word_setWords_other {m : Memory} (h : m.wf) {a b : Nat} (vs : List Word)
    (hb : b + 4 ≤ a ∨ a + 4 * vs.length ≤ b) : (m.setWords a vs).word b = m.word b := by
  simp only [Memory.word]
  rw [Memory.byte_setWords_other h vs (by omega), Memory.byte_setWords_other h vs (by omega),
    Memory.byte_setWords_other h vs (by omega), Memory.byte_setWords_other h vs (by omega)]

/-- The words written read back. -/
theorem Memory.word_setWords {m : Memory} (h : m.wf) (a : Nat) (vs : List Word) (k : Nat) (hk : k < vs.length) :
    (m.setWords a vs).word (a + 4 * k) = vs[k] := by
  induction vs generalizing m a k with
  | nil => simp at hk
  | cons v vs ih =>
    cases k with
    | zero =>
      rw [Memory.setWords, Memory.word_setWords_other (Memory.setWord_wf h a v) vs (by omega)]
      simpa using Memory.word_setWord_same h a v
    | succ k =>
      have := ih (Memory.setWord_wf h a v) (a + 4) k (by simpa using hk)
      rw [Memory.setWords]
      simpa [show a + 4 * (k + 1) = a + 4 + 4 * k by omega] using this

@[simp] theorem wordsAt_length (s : State) (a n : Nat) : (wordsAt s a n).length = n := by simp [wordsAt]

@[simp] theorem wordsAt_getElem (s : State) (a n k : Nat) (h : k < (wordsAt s a n).length) :
    (wordsAt s a n)[k] = s.mem.word (a + 4 * k) := by simp [wordsAt]

/-- Reset memory has the canonical form. -/
theorem reset_memory_wf : State.reset.mem.wf := by decide

end Sys2Proof.Machine
end

