-- ==== Sys2Proof/Laws/State.lean ====
section
/-! SUPPORT. One lemma per field for each update of State that the shared operations make, true by rfl. -/

namespace Sys2Proof.Machine

section
variable (s : State) (r : Raise) (w : Word) (run : Run) (d : UnitDone) (lo n : Nat)

/-! ### raiseError (R252) -/
@[simp] theorem raiseError_plat : (raiseError r s).plat = s.plat := rfl
@[simp] theorem raiseError_mem : (raiseError r s).mem = s.mem := rfl
@[simp] theorem raiseError_held : (raiseError r s).held = s.held := rfl
@[simp] theorem raiseError_host : (raiseError r s).host = s.host := rfl
@[simp] theorem raiseError_reply : (raiseError r s).reply = s.reply := rfl
@[simp] theorem raiseError_draws : (raiseError r s).draws = s.draws := rfl
@[simp] theorem raiseError_run : (raiseError r s).scratch.run = none := rfl
@[simp] theorem raiseError_regs : (raiseError r s).regs =
  { s.regs with
    status := s.regs.status.raised r.kind
    errDetail := BitVec.ofNat 8 r.detail
    errIndex := sat32 r.index } := rfl

/-! ### finish (R257) -/
@[simp] theorem finish_plat : (finish s).plat = s.plat := rfl
@[simp] theorem finish_mem : (finish s).mem = s.mem := rfl
@[simp] theorem finish_held : (finish s).held = s.held := rfl
@[simp] theorem finish_host : (finish s).host = s.host := rfl
@[simp] theorem finish_reply : (finish s).reply = s.reply := rfl
@[simp] theorem finish_draws : (finish s).draws = s.draws := rfl
@[simp] theorem finish_run : (finish s).scratch.run = none := rfl
@[simp] theorem finish_regs : (finish s).regs = { s.regs with status := s.regs.status.finished } := rfl

/-! ### issue (R39) -/
@[simp] theorem issue_plat : (issue w s).plat = s.plat := rfl
@[simp] theorem issue_mem : (issue w s).mem = s.mem := rfl
@[simp] theorem issue_held : (issue w s).held = 
  (commandWindows (issue w s)).toList.map (Held.mk · false) ++ s.held := rfl
@[simp] theorem issue_host : (issue w s).host = s.host := rfl
@[simp] theorem issue_reply : (issue w s).reply = s.reply := rfl
@[simp] theorem issue_draws : (issue w s).draws = s.draws := rfl
@[simp] theorem issue_scratch : (issue w s).scratch = Scratch.empty := rfl
@[simp] theorem issue_regs : (issue w s).regs =
  { s.regs with cmd := w, status := s.regs.status.issue w, errDetail := 0#8, errIndex := 0#32 } := rfl

/-! ### scramble (R259) -/
@[simp] theorem scramble_plat : (scramble lo n s).plat = s.plat := rfl
@[simp] theorem scramble_regs : (scramble lo n s).regs = s.regs := rfl
@[simp] theorem scramble_scratch : (scramble lo n s).scratch = s.scratch := rfl
@[simp] theorem scramble_held : (scramble lo n s).held = s.held := rfl
@[simp] theorem scramble_host : (scramble lo n s).host = s.host := rfl
@[simp] theorem scramble_reply : (scramble lo n s).reply = s.reply := rfl
@[simp] theorem scramble_draws : (scramble lo n s).draws = s.draws := rfl

/-! ### commitUnit (R258) -/
@[simp] theorem commitUnit_plat : (commitUnit run d s).plat = s.plat := rfl
@[simp] theorem commitUnit_held : (commitUnit run d s).held = s.held := rfl
@[simp] theorem commitUnit_host : (commitUnit run d s).host = s.host := rfl
@[simp] theorem commitUnit_reply : (commitUnit run d s).reply = s.reply := rfl
@[simp] theorem commitUnit_run : (commitUnit run d s).scratch.run = some (run.after d) := rfl
@[simp] theorem commitUnit_mem : (commitUnit run d s).mem =
  s.mem.setWords (outAddr s run.ocur) (writtenWords s (outAddr s run.ocur) d.words) := rfl
@[simp] theorem commitUnit_regs : (commitUnit run d s).regs =
  { s.regs with
    inCur := BitVec.ofNat 32 (run.icur + d.used)
    outCur := BitVec.ofNat 32 (run.ocur + d.words.length)
    cntRd := s.regs.cntRd + BitVec.ofNat 32 d.rd
    cntWr := s.regs.cntWr + BitVec.ofNat 32 d.words.length
    cntExc := s.regs.cntExc + BitVec.ofNat 32 d.exc } := rfl

/-! ### installConfig (R151), resetRegisters (R290) -/
@[simp] theorem installConfig_plat : (installConfig s).plat = s.plat := rfl
@[simp] theorem installConfig_mem : (installConfig s).mem = s.mem := rfl
@[simp] theorem installConfig_held : (installConfig s).held = s.held := rfl
@[simp] theorem installConfig_host : (installConfig s).host = s.host := rfl
@[simp] theorem installConfig_scratch : (installConfig s).scratch = s.scratch := rfl
@[simp] theorem installConfig_regs : (installConfig s).regs =
  { s.regs with actBlockSize := s.regs.cfgBlockSize, actPageSize := s.regs.cfgPageSize } := rfl
@[simp] theorem resetRegisters_regs : (resetRegisters s).regs = Regs.reset := rfl
@[simp] theorem resetRegisters_scratch : (resetRegisters s).scratch = Scratch.empty := rfl
@[simp] theorem resetRegisters_plat : (resetRegisters s).plat = s.plat := rfl
@[simp] theorem resetRegisters_mem : (resetRegisters s).mem = s.mem := rfl
@[simp] theorem resetRegisters_held : (resetRegisters s).held = s.held := rfl
@[simp] theorem resetRegisters_host : (resetRegisters s).host = s.host := rfl
@[simp] theorem resetRegisters_reply : (resetRegisters s).reply = s.reply := rfl

/-! ### holdWindows (R39, R89) -/
@[simp] theorem holdWindows_plat : (holdWindows s).plat = s.plat := rfl
@[simp] theorem holdWindows_regs : (holdWindows s).regs = s.regs := rfl
@[simp] theorem holdWindows_scratch : (holdWindows s).scratch = s.scratch := rfl
@[simp] theorem holdWindows_mem : (holdWindows s).mem = s.mem := rfl
@[simp] theorem holdWindows_host : (holdWindows s).host = s.host := rfl
@[simp] theorem holdWindows_reply : (holdWindows s).reply = s.reply := rfl
@[simp] theorem holdWindows_held : (holdWindows s).held = (commandWindows s).toList.map (Held.mk · false) ++ s.held := rfl
@[simp] theorem holdWindows_draws : (holdWindows s).draws = s.draws := rfl

/-! ### observe (R89, R90) -/

/-- Everything an observation can do: nothing while a command runs, and otherwise the end of R89's span. -/
theorem observe_cases : (s.regs.status.busy = true ∧ observe s = s) ∨
    (s.regs.status.busy = false ∧ observe s = { s with held := [] }) := by
  cases h : s.regs.status.busy <;> simp [observe, h]

@[simp] theorem observe_plat : (observe s).plat = s.plat := by rcases observe_cases s with ⟨-, h⟩ | ⟨-, h⟩ <;> rw [h]
@[simp] theorem observe_regs : (observe s).regs = s.regs := by rcases observe_cases s with ⟨-, h⟩ | ⟨-, h⟩ <;> rw [h]
@[simp] theorem observe_scratch : (observe s).scratch = s.scratch := by rcases observe_cases s with ⟨-, h⟩ | ⟨-, h⟩ <;> rw [h]
@[simp] theorem observe_mem : (observe s).mem = s.mem := by rcases observe_cases s with ⟨-, h⟩ | ⟨-, h⟩ <;> rw [h]
@[simp] theorem observe_host : (observe s).host = s.host := by rcases observe_cases s with ⟨-, h⟩ | ⟨-, h⟩ <;> rw [h]
@[simp] theorem observe_draws : (observe s).draws = s.draws := by rcases observe_cases s with ⟨-, h⟩ | ⟨-, h⟩ <;> rw [h]

/-! ### breach (R89) -/

/-- Everything an access can do to the windows held: nothing where it breaks no duty, and otherwise free words in the output windows
of the commands towards which it does, and a mark on each of them. -/
theorem breach_cases (write : Bool) (a : Nat) :
    (s.held.any (Held.forbids write a) = false ∧ breach write a s = s) ∨
    (s.held.any (Held.forbids write a) = true ∧ breach write a s = { s with
      mem := (s.held.filter (Held.forbids write a)).foldl (loseOutput s) s.mem
      held := s.held.map fun h => { h with broken := h.broken || h.forbids write a }
      draws := s.draws + 2 }) := by
  cases h : s.held.any (Held.forbids write a) <;> simp [breach, h]

section
variable (write : Bool) (a : Nat)
@[simp] theorem breach_plat : (breach write a s).plat = s.plat := by
  rcases breach_cases s write a with ⟨-, h⟩ | ⟨-, h⟩ <;> rw [h]
@[simp] theorem breach_regs : (breach write a s).regs = s.regs := by
  rcases breach_cases s write a with ⟨-, h⟩ | ⟨-, h⟩ <;> rw [h]
@[simp] theorem breach_scratch : (breach write a s).scratch = s.scratch := by
  rcases breach_cases s write a with ⟨-, h⟩ | ⟨-, h⟩ <;> rw [h]
@[simp] theorem breach_host : (breach write a s).host = s.host := by
  rcases breach_cases s write a with ⟨-, h⟩ | ⟨-, h⟩ <;> rw [h]

/-- An access adds no windows and drops none: it only marks. -/
@[simp] theorem breach_windows : (breach write a s).held.map (·.windows) = s.held.map (·.windows) := by
  rcases breach_cases s write a with ⟨-, h⟩ | ⟨-, h⟩ <;> simp [h]
end

/-! ### Flags (R37, R39, R53, R252, R257) -/
variable (t : Status) (k : ErrKind)
@[simp] theorem raised_busy : (t.raised k).busy = false := rfl
@[simp] theorem raised_done : (t.raised k).done = t.done := rfl
@[simp] theorem raised_err : (t.raised k).err = true := rfl
@[simp] theorem raised_wbusy : (t.raised k).wbusy = t.wbusy := rfl
@[simp] theorem raised_errKind : (t.raised k).errKind = some k := rfl
@[simp] theorem raised_lastOp : (t.raised k).lastOp = t.lastOp := rfl
@[simp] theorem finished_busy : t.finished.busy = false := rfl
@[simp] theorem finished_done : t.finished.done = true := rfl
@[simp] theorem finished_err : t.finished.err = t.err := rfl
@[simp] theorem finished_wbusy : t.finished.wbusy = t.wbusy := rfl
@[simp] theorem finished_errKind : t.finished.errKind = t.errKind := rfl
@[simp] theorem finished_lastOp : t.finished.lastOp = t.lastOp := rfl
@[simp] theorem issue_busy : (t.issue w).busy = true := rfl
@[simp] theorem issue_done : (t.issue w).done = false := rfl
@[simp] theorem issue_err : (t.issue w).err = false := rfl
@[simp] theorem issue_errKind : (t.issue w).errKind = none := rfl
@[simp] theorem issue_lastOp : (t.issue w).lastOp = w.extractLsb' 0 8 := rfl
@[simp] theorem dropped_busy : t.dropped.busy = t.busy := rfl
@[simp] theorem dropped_wbusy : t.dropped.wbusy = true := rfl
@[simp] theorem ackWrite_busy : (t.ackWrite w).busy = t.busy := rfl
@[simp] theorem ackWrite_errKind : (t.ackWrite w).errKind = t.errKind := rfl
@[simp] theorem ackWrite_lastOp : (t.ackWrite w).lastOp = t.lastOp := rfl

end

end Sys2Proof.Machine
end

