-- ==== Sys2Proof/Laws/Turn.lean ====
section
/-! SUPPORT. Once and for all what a move of the engine can do: the inversion of `turn`, what an aborted unit changes, and what
reads and writes give in a command that nothing disturbs. -/

namespace Sys2Proof.Machine

/-- Every command has a next state: the engine never stops (R251, R252). -/
theorem exec_next (i : Instr) (s : State) : ∃ t, exec i s = .next t := by
  cases i
  case config =>
    simp only [exec, execConfig]
    split <;> exact ⟨_, rfl⟩
  all_goals exact ⟨_, rfl⟩

/-- A move of the engine always gives a next state. -/
theorem engineMove_next (s : State) : ∃ t, engineMove s = .next t := by
  unfold engineMove
  split
  · split
    · exact ⟨_, rfl⟩
    · exact exec_next _ s
  · exact ⟨_, rfl⟩

/-- Where the host has no event the engine moves. -/
theorem step_of_no_event {s : State} (h : s.host = []) : step s = engineMove s := by simp [step, h]

/-- A move of the engine for a memory command does one of four things: the prologue's error, nothing left to do, a unit ended by
an error, a unit committed. -/
theorem turn_cases (p : Plan) (u : Units) (s : State) :
    (∃ r, started s p = .error r ∧ turn p u s = raiseError r s) ∨
    (∃ run, started s p = .ok run ∧ u.more run = false ∧ turn p u s = finish s) ∨
    (∃ run r, started s p = .ok run ∧ u.more run = true ∧ turn p u s = abortUnit u run r s ∧
      (busOutcome s p.readsOut (u.win run) = some r ∨ (busOutcome s p.readsOut (u.win run) = none ∧ (u.unit run = .error r ∨
        ∃ d, u.unit run = .ok d ∧ writeFault s.plat (outAddr s run.ocur) d.words.length = some r)))) ∨
    (∃ run d, started s p = .ok run ∧ u.more run = true ∧ busOutcome s p.readsOut (u.win run) = none ∧ u.unit run = .ok d ∧
      writeFault s.plat (outAddr s run.ocur) d.words.length = none ∧
      turn p u s = if u.more (run.after d) then commitUnit run d s else finish (commitUnit run d s)) := by
  unfold turn
  cases hs : started s p with
  | error r => exact .inl ⟨r, rfl, rfl⟩
  | ok run =>
    refine .inr ?_
    cases hm : u.more run with
    | false => exact .inl ⟨run, rfl, hm, by simp [hm]⟩
    | true =>
      refine .inr ?_
      cases hb : busOutcome s p.readsOut (u.win run) with
      | some r => exact .inl ⟨run, r, rfl, hm, by simp [hm, hb], .inl hb⟩
      | none =>
        cases hu : u.unit run with
        | error r => exact .inl ⟨run, r, rfl, hm, by simp [hm, hb, hu], .inr ⟨hb, .inl hu⟩⟩
        | ok d =>
          cases hw : writeFault s.plat (outAddr s run.ocur) d.words.length with
          | some r => exact .inl ⟨run, r, rfl, hm, by simp [hm, hb, hu, hw], .inr ⟨hb, .inr ⟨d, hu, hw⟩⟩⟩
          | none => exact .inr ⟨run, d, rfl, hm, hb, hu, hw, by simp [hm, hb, hu, hw]⟩

/-! ### A unit ended by an error (R252, R259) -/

section
variable (u : Units) (run : Run) (r : Raise) (s : State)

/-- The state an aborted unit leaves before the report: memory scrambled or not, nothing else but the draw counter. -/
theorem abortUnit_eq : ∃ m, abortUnit u run r s = raiseError r { s with mem := m, draws := s.draws + 2 } ∧
    (m = s.mem ∨ ∃ lo n, m = (scramble lo n s).mem ∧
      (if r.kind = .busError then (lo, n) = unitRange s u run else r.dirty = some (lo, n))) := by
  unfold abortUnit
  by_cases hk : r.kind = .busError
  · exact ⟨_, by simp only [hk, if_true]; rfl, .inr ⟨_, _, rfl, by simp [hk]⟩⟩
  · cases hd : r.dirty with
    | none => exact ⟨s.mem, by simp only [hk, if_false], .inl rfl⟩
    | some x => exact ⟨_, by simp only [hk, if_false]; rfl, .inr ⟨x.1, x.2, rfl, by simp [hk]⟩⟩

@[simp] theorem abortUnit_plat : (abortUnit u run r s).plat = s.plat := by
  obtain ⟨m, h, -⟩ := abortUnit_eq u run r s; simp [h]

@[simp] theorem abortUnit_host : (abortUnit u run r s).host = s.host := by
  obtain ⟨m, h, -⟩ := abortUnit_eq u run r s; simp [h]

@[simp] theorem abortUnit_held : (abortUnit u run r s).held = s.held := by
  obtain ⟨m, h, -⟩ := abortUnit_eq u run r s; simp [h]

@[simp] theorem abortUnit_reply : (abortUnit u run r s).reply = s.reply := by
  obtain ⟨m, h, -⟩ := abortUnit_eq u run r s; simp [h]

@[simp] theorem abortUnit_run : (abortUnit u run r s).scratch.run = none := by
  obtain ⟨m, h, -⟩ := abortUnit_eq u run r s; simp [h]

@[simp] theorem abortUnit_regs : (abortUnit u run r s).regs = (raiseError r s).regs := by
  obtain ⟨m, h, -⟩ := abortUnit_eq u run r s; simp [h]

/-- R259: an error that is no bus error and was raised before the unit's first write leaves memory as it was. -/
theorem abortUnit_mem_clean (hk : r.kind ≠ .busError) (hd : r.dirty = none) : (abortUnit u run r s).mem = s.mem := by
  simp [abortUnit, hk, hd]

end

/-! ### Free words -/

@[simp] theorem freeWords_length (d a n : Nat) : (freeWords d a n).length = n := by
  induction n generalizing a with
  | zero => rfl
  | succ n ih => simp [freeWords, ih]

@[simp] theorem writtenWords_length (s : State) (a : Nat) (vs : List Word) : (writtenWords s a vs).length = vs.length := by
  unfold writtenWords; split <;> simp

/-- Where the host kept its duty every output word ends as the rule gives it. -/
theorem writtenWords_calm {s : State} (h : dutyBroken s = false) (a : Nat) (vs : List Word) : writtenWords s a vs = vs := by
  simp [writtenWords, h]

/-- Where it broke its duty every output word ends as a draw (R89). -/
theorem writtenWords_broken {s : State} (h : dutyBroken s = true) (a : Nat) (vs : List Word) :
    writtenWords s a vs = freeWords (s.draws + 1) a vs.length := by simp [writtenWords, h]

/-- A free word is the draw for its own address. -/
theorem freeWords_getElem (d a n k : Nat) (h : k < (freeWords d a n).length) :
    (freeWords d a n)[k] = Config.freeWord d (a + 4 * k) := by
  induction n generalizing a k with
  | zero => simp [freeWords] at h
  | succ n ih =>
    cases k with
    | zero => simp [freeWords]
    | succ k => simp [freeWords, ih, show a + 4 + 4 * k = a + 4 * (k + 1) by omega]

/-- The canonical form survives the loss of output windows (R89). -/
theorem loseOutput_foldl_wf (s : State) (hs : List Held) {m : Memory} (h : m.wf) : (hs.foldl (loseOutput s) m).wf := by
  induction hs generalizing m with
  | nil => exact h
  | cons x xs ih => exact ih (Memory.setWords_wf h _ _)

/-- The canonical form survives every host access (R89). -/
theorem breach_wf {s : State} (h : s.mem.wf) (write : Bool) (a : Nat) : (breach write a s).mem.wf := by
  rcases breach_cases s write a with ⟨-, he⟩ | ⟨-, he⟩ <;> rw [he]
  · exact h
  · exact loseOutput_foldl_wf s _ h

/-- The canonical form survives a unit's abort (R259). -/
theorem abortUnit_wf {s : State} (h : s.mem.wf) (u : Units) (run : Run) (r : Raise) : (abortUnit u run r s).mem.wf := by
  obtain ⟨m, h1, h2 | ⟨lo, n, h2, -⟩⟩ := abortUnit_eq u run r s
  · simpa [h1, h2] using h
  · simpa [h1, h2, scramble] using Memory.setWords_wf h _ _

/-- The canonical form survives a unit's commit. -/
theorem commitUnit_wf {s : State} (h : s.mem.wf) (run : Run) (d : UnitDone) : (commitUnit run d s).mem.wf :=
  Memory.setWords_wf h _ _

/-- Every move of the engine for a memory command keeps the canonical form. -/
theorem turn_wf {s : State} (h : s.mem.wf) (p : Plan) (u : Units) : (turn p u s).mem.wf := by
  obtain ⟨r, -, ht⟩ | ⟨run, -, -, ht⟩ | ⟨run, r, -, -, ht, -⟩ | ⟨run, d, -, -, -, -, -, ht⟩ := turn_cases p u s <;> rw [ht]
  · exact h
  · exact h
  · exact abortUnit_wf h u run r
  · split <;> exact commitUnit_wf h run d

/-! ### Accesses in a command that nothing disturbs -/

/-- A run of reads that all answer. -/
theorem readRun_ok {rd : Nat → Except Raise Word} {f : Nat → Word} {i n : Nat}
    (h : ∀ k, k < n → rd (i + k) = .ok (f (i + k))) : readRun rd i n = .ok ((List.range n).map fun k => f (i + k)) := by
  induction n generalizing i with
  | zero => rfl
  | succ n ih =>
    have h0 := h 0 (by omega)
    have hn := ih (i := i + 1) fun k hk => by
      have := h (k + 1) (by omega)
      rwa [show i + (k + 1) = i + 1 + k by omega] at this
    simp only [Nat.add_zero] at h0
    simp [readRun, h0, hn, List.range_succ_eq_map, Function.comp_def, Nat.add_assoc, Nat.add_comm 1]

theorem memRead_calm {s : State} (hd : dutyBroken s = false) {a : Nat} (he : s.plat.errs a = false) :
    memRead s a = .ok (s.mem.word a) := by simp [memRead, he, hd]

/-- An address of a nonempty window is no erroring address where no window touches one. -/
theorem errs_of_undisturbed {s : State} {w : Windows} (h : touchesBusErr s w = false) {a : Nat}
    (hw : w.inWin.has a = true ∨ w.tabWin.has a = true ∨ w.outWin.has a = true) : s.plat.errs a = false := by
  simp only [touchesBusErr, List.any_eq_false, Platform.errs] at *
  intro r hr hra
  have := h r hr
  simp only [AddrRange.has, AddrRange.overlaps, Bool.and_eq_true, decide_eq_true_eq, Bool.or_eq_true,
    not_or] at *
  omega

/-- With no erroring address in the windows the bus outcome is (a) of R260. -/
theorem busOutcome_undisturbed {s : State} {o : Bool} {w : Windows} (h : touchesBusErr s w = false) :
    busOutcome s o w = none := by
  simp [busOutcome, h]

/-- A bus outcome is a BusError at an erroring address of the windows, on a side the unit may access (R260 (b)). -/
theorem busOutcome_some {s : State} {o : Bool} {w : Windows} {r : Raise} (h : busOutcome s o w = some r) :
    ∃ k, admitsPick s o w k = true ∧ r = busRaise k.side k.addr := by
  unfold busOutcome at h
  split at h
  · split at h
    · cases h
    · rename_i k _
      split at h
      · exact ⟨k, ‹_›, by simpa using h.symm⟩
      · cases h
  · cases h

/-- Where an access answers, the quiet reader reads the same word (R259). -/
theorem quietRead_of_memRead {s : State} {a : Nat} {w : Word} (h : memRead s a = .ok w) : quietRead s a = .ok w := by
  unfold memRead at h
  split at h
  · cases h
  · simpa [quietRead, ‹¬s.plat.errs a = true›] using h

/-- No write errs where no address written is an erroring one. -/
theorem writeFault_none {p : Platform} {a n : Nat} (h : ∀ k, k < n → p.errs (a + 4 * k) = false) :
    writeFault p a n = none := by
  induction n generalizing a with
  | zero => rfl
  | succ n ih =>
    have h0 := h 0 (by omega)
    simp only [Nat.mul_zero, Nat.add_zero] at h0
    simp only [writeFault, h0]
    exact ih fun k hk => by
      have := h (k + 1) (by omega)
      rwa [show a + 4 * (k + 1) = a + 4 + 4 * k by omega] at this

end Sys2Proof.Machine
end

