-- ==== Sys2Proof/Laws/Invariant.lean ====
section
/-! SUPPORT. The invariant from its decidable parts, in a state where no command is between two of its units. -/

namespace Sys2Proof.Machine

/-- The parts of the invariant that are checks, and no running cursors. -/
abbrev InvChecks (s : State) : Prop :=
  s.plat.wf ∧ s.mem.wf ∧ legalConfig (actBS s) (actPS s) ∧ ¬(s.regs.status.done = true ∧ s.regs.status.err = true) ∧
  (s.regs.status.busy = true → s.regs.status.done = false ∧ s.regs.status.err = false ∧
    s.regs.status.errKind = none ∧ s.regs.errDetail = 0#8 ∧ s.regs.errIndex = 0#32) ∧
  (s.regs.status.done = true → s.regs.status.errKind = none) ∧
  (s.regs.status.err = true → s.regs.status.errKind ≠ none) ∧
  s.regs.status.lastOp = s.regs.cmd.extractLsb' 0 8 ∧
  (s.regs.inBase.toNat < 2 ^ s.plat.aw ∧ s.regs.outBase.toNat < 2 ^ s.plat.aw ∧ s.regs.bwBase.toNat < 2 ^ s.plat.aw) ∧
  s.scratch.run = none ∧ (s.regs.status.busy = true → ∀ w ∈ commandWindows s, s.held.head?.map (·.windows) = some w)

theorem inv_of_checks {s : State} (h : InvChecks s) : Inv s := by
  obtain ⟨h1, h2, h3, h4, h5, h6, h7, h8, h9, h10, h11⟩ := h
  exact ⟨h1, h2, h3, h4, h5, h6, h7, h8, h9, fun r hr => by simp [h10] at hr, h11⟩

/-- A command between two of its units is ENCODE or DECODE, so another command has not started. -/
theorem Inv.run_none {s : State} (h : Inv s) (h1 : decode s.regs.cmd ≠ .ok .encode) (h2 : decode s.regs.cmd ≠ .ok .decode) :
    s.scratch.run = none := by
  cases hr : s.scratch.run with
  | none => rfl
  | some r => rcases (h.running r hr).frame with h | h <;> contradiction

end Sys2Proof.Machine
end

