-- ==== Sys2Proof/Laws/Packing.lean ====
section
/-! SUPPORT. The packing law: the packed stream as a natural number, its digits at the value width and at the word width. -/

namespace Sys2Proof.Machine

theorem trunc_lt (v : Word) (w : Nat) : trunc v w < 2 ^ w := Nat.mod_lt _ (by positivity)

/-- A packed stream of `n` values is an `(n*w)`-bit natural (R160). -/
theorem packStream_lt (w : Nat) (vals : List Word) : packStream w vals < 2 ^ (vals.length * w) := by
  induction vals with
  | nil => simp [packStream]
  | cons v vs ih =>
    have h1 := trunc_lt v w
    have h2 : (packStream w vs + 1) * 2 ^ w ≤ 2 ^ (vs.length * w) * 2 ^ w := Nat.mul_le_mul_right _ ih
    simp only [packStream, List.length_cons, Nat.shiftLeft_eq, Nat.add_mul, Nat.one_mul, Nat.pow_add] at *
    omega

/-- Value `i` stands at stream bits `[i*w, i*w + w)` (R160). -/
theorem packStream_digit (w : Nat) (vals : List Word) (i : Nat) (h : i < vals.length) :
    (packStream w vals >>> (i * w)) % 2 ^ w = trunc vals[i] w := by
  induction vals generalizing i with
  | nil => simp at h
  | cons v vs ih =>
    have hv := trunc_lt v w
    cases i with
    | zero => simp [packStream, Nat.shiftLeft_eq, Nat.mod_eq_of_lt hv]
    | succ i =>
      have := ih i (by simpa using h)
      simp only [packStream, Nat.shiftLeft_eq, Nat.shiftRight_eq_div_pow, List.getElem_cons_succ] at *
      rw [show (i + 1) * w = w + i * w by ring, Nat.pow_add, ← Nat.div_div_eq_div_mul,
        Nat.add_mul_div_right _ _ (by positivity), Nat.div_eq_of_lt hv, Nat.zero_add, this]

theorem wordStream_nil : wordStream [] = 0 := rfl

theorem wordStream_cons (x : Word) (xs : List Word) : wordStream (x :: xs) = x.toNat + wordStream xs <<< 32 := rfl

/-- The words of a natural, lowest first, stream back to it. -/
theorem wordStream_digits (S L : Nat) :
    wordStream ((List.range L).map fun k => BitVec.ofNat 32 (S >>> (32 * k))) = S % 2 ^ (32 * L) := by
  induction L generalizing S with
  | zero => rw [Nat.mul_zero, Nat.pow_zero, Nat.mod_one, List.range_zero, List.map_nil, wordStream_nil]
  | succ L ih =>
    have hm : ∀ B C : Nat, S % B + S / B % C * B = S % (B * C) := fun B C => by
      rw [Nat.mod_mul, Nat.mul_comm B]
    have hs : ∀ k, S >>> (32 * (k + 1)) = (S >>> 32) >>> (32 * k) := fun k => by
      rw [← Nat.shiftRight_add, Nat.mul_succ, Nat.add_comm]
    have hl : ((List.range (L + 1)).map fun k => BitVec.ofNat 32 (S >>> (32 * k))) =
        BitVec.ofNat 32 S :: (List.range L).map fun k => BitVec.ofNat 32 ((S >>> 32) >>> (32 * k)) := by
      simp [List.range_succ_eq_map, Function.comp_def, hs]
    rw [hl, wordStream_cons, ih, BitVec.toNat_ofNat, Nat.shiftLeft_eq, Nat.shiftRight_eq_div_pow, hm, ← Nat.pow_add,
      Nat.mul_add, Nat.mul_one, Nat.add_comm]

@[simp] theorem pack_length (vals : List Word) (w : Nat) : (pack vals w).length = packedLen vals.length w := by
  simp [pack]

@[simp] theorem unpack_length (words : List Word) (n w : Nat) : (unpack words n w).length = n := by
  simp [unpack]

/-- The words of `n*w` bits hold them (R14). -/
theorem le_packedLen (n w : Nat) : n * w ≤ 32 * packedLen n w := by
  simp only [packedLen]; omega

/-- A packed run streams back to the packed stream. -/
theorem wordStream_pack (vals : List Word) (w : Nat) : wordStream (pack vals w) = packStream w vals := by
  rw [pack, wordStream_digits, Nat.mod_eq_of_lt]
  exact lt_of_lt_of_le (packStream_lt w vals) (Nat.pow_le_pow_right (by norm_num) (le_packedLen _ _))

/-- R162 law 1. -/
theorem unpack_pack_getElem (vals : List Word) (w i : Nat) (h : i < vals.length) :
    (unpack (pack vals w) vals.length w)[i]'(by simpa using h) = BitVec.ofNat 32 (trunc vals[i] w) := by
  simp only [unpack, List.getElem_map, List.getElem_range]
  rw [List.take_of_length_le (by simp), wordStream_pack, packStream_digit w vals i h]

end Sys2Proof.Machine
end

