-- ==== Sys2Proof/Laws/PerInstr.lean ====
section
/-! SUPPORT. Per command: its encoding decodes back to it. -/

namespace Sys2Proof.Laws.RoundTrip

/-- A legal command's word decodes to the command (R111, R112, R113). -/
def Statement (i : Instr) : Prop := i.wf = true → decode (encode i) = .ok i

theorem nop : Statement .nop := fun _ => rfl
theorem config : Statement .config := fun _ => rfl
theorem pack (b : BitVec 6) : Statement (.pack b) := by unfold Statement; revert b; decide
theorem unpack (b : BitVec 6) : Statement (.unpack b) := by unfold Statement; revert b; decide
theorem excExtract (b : BitVec 6) : Statement (.excExtract b) := by unfold Statement; revert b; decide
theorem excPatch : Statement .excPatch := fun _ => rfl
theorem hdrParse : Statement .hdrParse := fun _ => rfl
theorem encode : Statement .encode := fun _ => rfl
theorem decode : Statement .decode := fun _ => rfl

end Sys2Proof.Laws.RoundTrip
end

