-- ==== Sys2Proof/Tests/Slice0.lean ====
section
/-! SUPPORT. Small tests. Expected values are the spec's worked vectors (95_test_vectors.md) and its tables, or worked by hand
from its rules; the source stands in each comment. -/

set_option Elab.async false

namespace Sys2Proof.Tests

open Sys2Proof.Machine

/-! ### Well-formedness (R114) -/

theorem test_wf_pack_refuses_33 : (Instr.pack 33#6).wf = false := by decide
theorem test_wf_unpack_refuses_63 : (Instr.unpack 63#6).wf = false := by decide
theorem test_wf_excExtract_refuses_33 : (Instr.excExtract 33#6).wf = false := by decide
theorem test_wf_accepts_32 : (Instr.pack 32#6).wf = true := by decide

/-! ### Decoding: one word per command, written out as RSV (18 bits), B (6 bits), OPCODE (8 bits) from R111 and R112 -/

theorem test_decode_nop : decode 0b000000000000000000_000000_00000000#32 = .ok .nop := by decide
theorem test_decode_config : decode 0b000000000000000000_000000_00000001#32 = .ok .config := by decide
theorem test_decode_pack : decode 0b000000000000000000_000101_00010000#32 = .ok (.pack 5#6) := by decide
theorem test_decode_unpack : decode 0b000000000000000000_100000_00010001#32 = .ok (.unpack 32#6) := by decide
theorem test_decode_excExtract : decode 0b000000000000000000_000100_00100000#32 = .ok (.excExtract 4#6) := by decide
theorem test_decode_excPatch : decode 0b000000000000000000_000000_00100001#32 = .ok .excPatch := by decide
theorem test_decode_hdrParse : decode 0b000000000000000000_000000_00110000#32 = .ok .hdrParse := by decide
theorem test_decode_encode : decode 0b000000000000000000_000000_01000000#32 = .ok .encode := by decide
theorem test_decode_decode : decode 0b000000000000000000_000000_01000001#32 = .ok .decode := by decide

/-- L2.1 cases 2 to 7. -/
theorem test_decode_illegal :
    decode 0x00000002#32 = .error .unassignedOpcode ∧ decode 0x00002110#32 = .error .widthAbove32 ∧
    decode 0x00003F11#32 = .error .widthAbove32 ∧ decode 0x00000140#32 = .error .reservedNonzero ∧
    decode 0x00004010#32 = .error .reservedNonzero ∧ decode 0x00000100#32 = .error .reservedNonzero := by decide

/-- R116: "`PACK b=5` is the CMD write of 0x00000510, and `DECODE` is the CMD write of 0x00000041". -/
theorem test_encode_words : encode (.pack 5#6) = 0x00000510#32 ∧ encode .decode = 0x00000041#32 := by decide

/-! ### The packing law (L2.2) -/

theorem test_pack_three : pack [1#32, 2#32, 3#32] 2 = [0x39#32] := by decide +kernel
theorem test_pack_straddles : pack (List.replicate 7 0x1F#32) 5 = [0xFFFFFFFF#32, 0x7#32] := by decide +kernel
theorem test_pack_drops_high : pack [0xFFFFFFFF#32, 0x12345678#32, 7#32] 3 = [0x1C7#32] := by decide +kernel
theorem test_pack_width31 : pack [0xABCDEF01#32, 0x80000000#32] 31 = [0x2BCDEF01#32, 0#32] := by decide +kernel
theorem test_unpack_padding : unpack [0xFFFFFFFF#32] 3 2 = [3#32, 3#32, 3#32] := by decide +kernel
theorem test_bits : bits 0#32 = 0 ∧ bits 127#32 = 7 ∧ bits 128#32 = 8 ∧ bits 0xFFFFFFFF#32 = 32 := by decide +kernel

/-- L2.3 case 5. -/
theorem test_record : record 7 [7#32, 8#32, 9#32] 3 = [0x103#32, 0x201#32, 0x81#32, 0x3#32] := by decide +kernel

/-- L1.3: a page of one all-zero block of 128 values at width 0. -/
theorem test_encPage_zeros : encPage 128 [(List.replicate 128 0#32, 0)] = [0x107#32, 0#32] := by decide +kernel

/-! ### A small machine: IN at 0x1000, OUT at 0x2000, the table at 0x4000 -/

/-- A state right after issue of `i`, with `n` input words, `m` output words, ARG_COUNT and words in memory. -/
def issued (i : Instr) (n m arg : Nat) (inp out tab : List Word) : State :=
  issue (encode i)
    { State.reset with
      regs := { Regs.reset with
        inBase := 0x1000#32, inBound := BitVec.ofNat 32 n, inLen := BitVec.ofNat 32 n
        outBase := 0x2000#32, outBound := BitVec.ofNat 32 m, argCount := BitVec.ofNat 32 arg, bwBase := 0x4000#32 }
      mem := ((Memory.setWords [] 0x1000 inp).setWords 0x2000 out).setWords 0x4000 tab }

/-- The state after one step, or the state itself where the step has none. -/
def stepped (s : State) : State :=
  match step s with
  | .next t => t
  | _ => s

/-- A state whose next host event is `e`. -/
def hostNext (s : State) (e : HostEvent) : State := { s with host := [e] }

/-- The platform of `State.reset`. -/
abbrev P : Platform := Platform.default

/-- A platform on which the one word at `a` errs. -/
def withErr (a : Nat) (s : State) : State := { s with plat := { P with busErr := [⟨a, a + 4⟩] } }

/-- PACK b=2 of three words, issued and not yet run. -/
abbrev packIssued : State := issued (.pack 2#6) 3 1 0 [1#32, 2#32, 3#32] [] []

/-- Program 1: PACK b=2 of 1, 2, 3. -/
theorem test_step_pack :
    let t := stepped (issued (.pack 2#6) 3 1 0 [1#32, 2#32, 3#32] [] [])
    outWords t 0 1 = [0x39#32] ∧ t.regs.inCur = 3#32 ∧ t.regs.outCur = 1#32 ∧ t.regs.status.word = 0x00100002#32 := by
  decide +kernel

/-- L2.2 case 12: the output does not fit. -/
theorem test_step_pack_no_space :
    let s := issued (.pack 2#6) 3 0 0 [1#32, 2#32, 3#32] [] []
    let t := stepped s
    t.regs.status.word = 0x00100304#32 ∧ t.regs.errIndex = 1#32 ∧ t.mem = s.mem := by decide +kernel

/-- L2.2 case 13. -/
theorem test_step_unpack :
    let t := stepped (issued (.unpack 2#6) 1 3 3 [0x39#32] [] [])
    outWords t 0 3 = [1#32, 2#32, 3#32] ∧ t.regs.inCur = 1#32 ∧ t.regs.outCur = 3#32 := by decide +kernel

/-- L2.2 case 14. -/
theorem test_step_unpack_corrupt :
    let t := stepped (issued (.unpack 2#6) 1 17 17 [0x39#32] [] [])
    t.regs.status.word = 0x00110504#32 ∧ t.regs.errDetail = 1#8 ∧ t.regs.errIndex = 1#32 := by decide +kernel

/-- L2.3 case 5. -/
theorem test_step_excExtract :
    let t := stepped (issued (.excExtract 3#6) 3 9 0 [7#32, 8#32, 9#32] [] [])
    outWords t 0 5 = [0x103#32, 0x201#32, 0x81#32, 0x3#32, 0#32] ∧ t.regs.cntExc = 2#32 := by decide +kernel

/-- R189 by hand: two exceptions at positions 1 and 2 of three targets, high bits 1 and 1 at width 3. -/
theorem test_step_excPatch :
    let t := stepped (issued .excPatch 4 3 3 [0x103#32, 0x201#32, 0x81#32, 0x3#32] [7#32, 0#32, 1#32] [])
    outWords t 0 3 = [7#32, 8#32, 9#32] ∧ t.regs.inCur = 4#32 ∧ t.regs.outCur = 3#32 ∧ t.regs.cntExc = 2#32 := by
  decide +kernel

/-- L2.3 case 9's rule on a short block: position 1 is not below 1, at the delta run's first word. -/
theorem test_step_excPatch_corrupt :
    let t := stepped (issued .excPatch 4 1 1 [0x103#32, 0x201#32, 0x81#32, 0x3#32] [7#32] [])
    t.regs.status.word = 0x00210504#32 ∧ t.regs.errDetail = 5#8 ∧ t.regs.errIndex = 2#32 := by decide +kernel

/-- R230's table on the page of L1.3 (S5): H0, HLEN 2, PLEN 2, D, OFF 2, BLEN 0. -/
theorem test_step_hdrParse :
    let t := stepped (issued .hdrParse 2 9 0 [0x107#32, 0#32] [] [])
    outWords t 0 6 = [0x107#32, 2#32, 2#32, 0#32, 2#32, 0#32] ∧ t.regs.inCur = 2#32 := by decide +kernel

/-- Vector E8's rule on a short page: H0 and D parse, and PLEN = 2 + 128*1/32 = 6 passes a window of 5 words. -/
theorem test_step_page_past_window :
    ∀ i ∈ [Instr.hdrParse, .decode], let t := stepped (issued i 5 128 0 [0x107#32, 1#32] [] [])
      t.regs.status.errKind = some .corruptStream ∧ t.regs.errDetail = 1#8 ∧ t.regs.errIndex = 5#32 ∧ t.regs.inCur = 0#32 := by
  intro i h
  simp only [List.mem_cons, List.not_mem_nil, or_false] at h
  rcases h with rfl | rfl <;> decide +kernel

/-- L2.4 E1: a block-size code of 8 under block size 128. -/
theorem test_step_hdrParse_corrupt :
    let t := stepped (issued .hdrParse 2 9 0 [0x108#32, 0#32] [] [])
    t.regs.status.word = 0x00300504#32 ∧ t.regs.errDetail = 2#8 ∧ t.regs.errIndex = 0#32 := by decide +kernel

/-- L1.5 with zeros for the small values: H0, D, B, 16 words of main run (position 100's nibble F in word 12), the delta run
100 and the high bits. -/
theorem test_step_encode :
    let t := stepped (issued .encode 128 64 0 (List.replicate 100 0#32 ++ [0xFFFFFFFF#32]) [] [4#32])
    outWords t 0 3 = [0x107#32, 0x104#32, 0x11C#32] ∧ outWords t 15 1 = [0x000F0000#32] ∧
      outWords t 19 2 = [0x64#32, 0x0FFFFFFF#32] ∧ t.regs.outCur = 21#32 ∧ t.regs.cntRd = 129#32 ∧
      t.regs.cntExc = 1#32 := by decide +kernel

/-- L2.4 N1. -/
theorem test_step_encode_bad_width :
    let t := stepped (issued .encode 128 64 0 [] [] [0x21#32])
    t.regs.status.word = 0x00400204#32 ∧ t.regs.errDetail = 4#8 ∧ t.regs.errIndex = 0#32 := by decide +kernel

/-- The same page decoded: R223 restores position 100 as 0xF OR (0x0FFFFFFF << 4). -/
theorem test_step_decode :
    let t := stepped (issued .decode 21 128 0
      ([0x107#32, 0x104#32, 0x11C#32] ++ List.replicate 12 0#32 ++ [0x000F0000#32, 0#32, 0#32, 0#32, 0x64#32, 0x0FFFFFFF#32])
      [] [])
    outWords t 99 3 = [0#32, 0xFFFFFFFF#32, 0#32] ∧ t.regs.inCur = 21#32 ∧ t.regs.outCur = 128#32 := by decide +kernel

/-- L2.4 E14: an empty window decodes nothing and succeeds. -/
theorem test_step_decode_empty : (stepped (issued .decode 0 0 0 [] [] [])).regs.status.word = 0x00410002#32 := by
  decide +kernel

/-- L2.1 case 1. -/
theorem test_step_nop : (stepped (issued .nop 0 0 0 [] [] [])).regs.status.word = 0x00000002#32 := by decide +kernel

/-- L2.1 case 9. -/
theorem test_step_config :
    let s := issued .config 0 0 0 [] [] []
    let t := stepped { s with regs := { s.regs with cfgBlockSize := 256#32, cfgPageSize := 1024#32 } }
    t.regs.status.word = 0x00010002#32 ∧ t.regs.actBlockSize = 256#32 ∧ t.regs.actPageSize = 1024#32 := by decide +kernel

/-- L2.1 case 13. -/
theorem test_step_config_too_many_blocks :
    let s := issued .config 0 0 0 [] [] []
    let t := stepped { s with regs := { s.regs with cfgPageSize := 0x80000000#32 } }
    t.regs.status.word = 0x00010104#32 ∧ t.regs.errDetail = 3#8 ∧ t.regs.errIndex = 0x80000000#32 := by decide +kernel

/-- L2.1 case 2. -/
theorem test_step_illegal :
    let t := stepped (issue 2#32 State.reset)
    t.regs.status.word = 0x00020604#32 ∧ t.regs.errDetail = 1#8 ∧ t.regs.errIndex = 0#32 := by decide +kernel

/-! ### The host's port (L2.1 cases 17 and 18, R32) -/

theorem test_host_write_while_busy :
    let t := stepped { issued .decode 0 0 0 [] [] [] with host := [wr Platform.default .inLen 5#32] }
    t.regs.inLen = 0#32 ∧ t.regs.status.word = 0x00410009#32 := by decide +kernel

theorem test_host_ack :
    let s := stepped (issue 2#32 State.reset)
    let t := stepped { s with host := ackEvents Platform.default }
    t.regs.status.word = 0x00020600#32 ∧ t.regs.errDetail = 1#8 := by decide +kernel

theorem test_host_reads_id :
    (stepped { State.reset with host := [rd Platform.default .id] }).reply = .data 0x50464F52#32 := by decide +kernel

theorem test_host_narrow_access :
    (stepped { State.reset with host := [.regRead 0 .half] }).reply = .slaveError := by decide +kernel

/-- R89, R90: the span goes on after the command ends, also over a further issue, until the host reads STATUS or sees `irq` up. -/
theorem test_host_span :
    let s := stepped (issued (.pack 2#6) 3 1 0 [1#32, 2#32, 3#32] [] [])
    s.regs.status.busy = false ∧ s.held.length = 1 ∧
      (stepped { s with host := [rd Platform.default .cmd] }).held = s.held ∧
      (stepped { s with host := [.irqSample] }).held = s.held ∧
      (stepped (issue 0x41#32 s)).held = ⟨baseWindows (issue 0x41#32 s), false⟩ :: s.held ∧
      (stepped (issue 0x02#32 s)).held = s.held ∧
      (stepped { s with host := [.irqSample], regs := { s.regs with irqEn := ⟨true, false⟩ } }).held = [] ∧
      (stepped { s with host := [rd Platform.default .status] }).held = [] := by decide +kernel

/-- R260: "Every unit before U commits": DECODE's first page, with the second page's H0 at an erroring address. -/
theorem test_decode_first_page_commits :
    let s := issued .decode 4 256 0 [0x107#32, 0#32, 0x107#32, 0#32] [] []
    let t := stepped { s with
      regs := { s.regs with actPageSize := 128#32 }
      plat := { Platform.default with busErr := [⟨0x1008, 0x100C⟩] } }
    t.regs.status.busy = true ∧ t.regs.inCur = 2#32 ∧ t.regs.outCur = 128#32 := by decide +kernel

/-- R259: the output range of DECODE's page of one block is 128 words, whatever room there is. -/
theorem test_decode_unit_range :
    let s := issued .decode 2 1000 0 [0x107#32, 0#32] [] []
    (unitInFlight s).map (fun x => unitRange s x.1 x.2) = some (0, 128) := by decide +kernel

/-- R259: H0 alone gives the output range, also where D is invalid or the page passes its window; with an invalid H0 (or, for ENCODE, an
invalid table entry) it is all that is left of the buffer (the model's choice, log 9). -/
theorem test_unit_range_of_corrupt_pages :
    let range := fun s : State => (unitInFlight s).map fun x => unitRange s x.1 x.2
    range (issued .hdrParse 2 1000 0 [0x207#32, 0x21#32] [] []) = some (0, 9) ∧
    range (issued .decode 2 1000 0 [0x207#32, 0x21#32] [] []) = some (0, 256) ∧
    range (issued .decode 3 1000 0 [0x107#32, 1#32] [] []) = some (0, 128) ∧
    range (issued .decode 2 1000 0 [0x108#32, 0#32] [] []) = some (0, 1000) ∧
    range (issued .encode 128 1000 0 [] [] [0x21#32]) = some (0, 1000) := by decide +kernel

/-- R260 (b): BusError may name an output word also where D or a table entry is invalid. -/
theorem test_corrupt_page_admits_write_error :
    let d := withErr 0x2008 (issued .decode 2 1000 0 [0x107#32, 0x21#32] [] [])
    let e := withErr 0x2008 (issued .encode 128 1000 0 [] [] [0x21#32])
    admitsPick d false ((decodeUnits d).win (issueRun d)) ⟨.write, 0x2008⟩ = true ∧
      admitsPick e false ((encodeUnits e).win (issueRun e)) ⟨.write, 0x2008⟩ = true := by decide +kernel

/-- R89: a write to the second of PACK's three input words breaks the duty; PACK still finishes, and reads and writes draws only. -/
theorem test_breach :
    let s := stepped (hostNext packIssued (.memWrite 0x1004 9#32))
    dutyBroken s = true ∧ (stepped s).regs.status.word = 0x00100002#32 ∧
      memRead s 0x1000 = .ok (Config.freeWord s.draws 0x1000) ∧
      writtenWords s 0x2000 [0x39#32] = [Config.freeWord (s.draws + 1) 0x2000] ∧
      (stepped (hostNext packIssued (.memRead 0x1004))).reply = .data 2#32 ∧
      dutyBroken (stepped (hostNext packIssued (.memRead 0x1004))) = false := by
  intro s
  have h : dutyBroken s = true := by decide +kernel
  have he : s.plat.errs 0x1000 = false := by decide +kernel
  exact ⟨h, by decide +kernel, by simp [memRead, he, h], writtenWords_broken h _ _, by decide +kernel, by decide +kernel⟩

/-- R31's offsets, as numbers. -/
theorem test_register_offsets :
    let s : State := { State.reset with regs := { Regs.reset with inLen := 3#32, inCur := 1#32, outCur := 2#32, argCount := 4#32 } }
    [0x30, 0x34, 0x40, 0x44, 0x60].map (fun off => (stepped (hostNext s (.regRead off .word))).reply) =
      [.data 3#32, .data 1#32, .data 2#32, .data 4#32, .data 0#32] := by decide +kernel

/-- R81: little-endian bytes. -/
theorem test_word_bytes : Memory.setWord [] 8 0x00332211#32 = [(8, 0x11#8), (9, 0x22#8), (10, 0x33#8)] := by decide +kernel

/-! ### Witnesses: for every obligation with hypotheses, a concrete state and operands that meet them together, a witness for each
clause at a boundary of its range -/

theorem step_stepped {s : State} (h : s.host = []) : step s = .next (stepped s) := by
  obtain ⟨t, ht⟩ := engineMove_next s
  simp [stepped, step_of_no_event h, ht]

theorem engineMove_stepped {s : State} (h : s.host = []) : engineMove s = .next (stepped s) := by
  rw [← step_of_no_event h, step_stepped h]

theorem run_one {s t : State} (h : step s = .next t) : Host.Core.run Sys2Proof.core 1 s = .next t := by
  have : Sys2Proof.core.step s = .next t := h
  simp only [Host.Core.run, this]

theorem exec_stepped {s : State} {i : Instr} (h : s.host = []) (hb : s.regs.status.busy = true)
    (hi : decode s.regs.cmd = .ok i) : exec i s = .next (stepped s) := by
  rw [← engineMove_stepped h, engineMove, if_pos hb, hi]

theorem witness_ResetGivesTheTableValues :
    ∃ (s : State) (es : List HostEvent), s.host = HostEvent.rstN :: es ∧ s.regs.status.busy = false := ⟨hostNext .reset .rstN, _, rfl, rfl⟩

/-- Soft reset of a running and of an idle engine, and `rst_n`. -/
theorem witness_SoftResetTouchesOnlyTheUnitInFlight :
    (∃ (s : State) (v : Word) (es : List HostEvent), s.mem.wf ∧ v.getLsbD 0 = true ∧ s.host = wr s.plat .ctrl v :: es ∧
      (unitInFlight { s with host := es }).isSome = true) ∧
    (∃ (s : State) (v : Word) (es : List HostEvent), s.mem.wf ∧ v.getLsbD 0 = true ∧ s.host = wr s.plat .ctrl v :: es ∧
      unitInFlight { s with host := es } = none) ∧
    (∃ (s : State) (es : List HostEvent), s.mem.wf ∧ s.host = .rstN :: es ∧ (unitInFlight { s with host := es }).isSome = true) ∧
    (∃ (s : State) (es : List HostEvent) (h : Word), s.mem.wf ∧ s.host = .rstN :: es ∧ decode s.regs.cmd = .ok .decode ∧
      (unitInFlight { s with host := es }).map (·.2) = some ⟨0, 0, 0, 0, 0⟩ ∧ quietIn s 0 = .ok h ∧ validH0 (actBS s) (actPS s) h = true) :=
  ⟨⟨hostNext packIssued (wr P .ctrl 1#32), 1#32, [], by decide +kernel⟩,
   ⟨hostNext .reset (wr P .ctrl 0xFFFFFFFF#32), 0xFFFFFFFF#32, [], by decide +kernel⟩,
   ⟨hostNext packIssued .rstN, [], by decide +kernel⟩,
   ⟨hostNext (issued .decode 2 1000 0 [0x107#32, 0x21#32] [] []) .rstN, [], 0x107#32, by decide +kernel⟩⟩

theorem witness_RegisterReadsAndBadAccessesChangeNothing :
    (∃ (s : State) (off : Nat) (width : AccessWidth) (es : List HostEvent), s.host = .regRead (s.plat.regBase + off) width :: es ∧ off < 256 ∧ width = .word ∧ off % 4 = 0) ∧
    (∃ (s : State) (off : Nat) (width : AccessWidth) (es : List HostEvent), s.host = .regRead (s.plat.regBase + off) width :: es ∧ off < 256 ∧ ¬(width = .word ∧ off % 4 = 0)) ∧
    (∃ (s : State) (off : Nat) (width : AccessWidth) (v : Word) (es : List HostEvent), s.host = .regWrite (s.plat.regBase + off) width v :: es ∧ off < 256 ∧ ¬(width = .word ∧ off % 4 = 0)) ∧
    (∃ (s : State) (off : Nat) (v : Word) (es : List HostEvent), s.host = .regWrite (s.plat.regBase + off) .word v :: es ∧ s.regs.status.busy = false ∧
      off ∈ [0x00, 0x04, 0x20, 0x24, 0x4C, 0x50]) ∧
    (∃ (s : State) (off : Nat) (v : Word) (es : List HostEvent), s.host = .regWrite (s.plat.regBase + off) .word v :: es ∧ s.regs.status.busy = false ∧
      0x60 ≤ off ∧ off < 256 ∧ off % 4 = 0) :=
  ⟨⟨hostNext .reset (.regRead 0x0C .word), 0x0C, .word, [], by decide⟩,
   ⟨hostNext .reset (.regRead 0xFF .word), 0xFF, .word, [], by decide⟩,
   ⟨hostNext .reset (.regWrite 0 .byte 1#32), 0, .byte, 1#32, [], by decide⟩,
   ⟨hostNext .reset (.regWrite 0x50 .word 1#32), 0x50, 1#32, [], by decide⟩,
   ⟨hostNext .reset (.regWrite 0x60 .word 1#32), 0x60, 1#32, [], by decide⟩⟩

/-- A base register, a plain one, IRQ_EN, and a CTRL write with every bit but bit 0. -/
theorem witness_RegisterWritesReadBack :
    (∀ r ∈ [Reg.inBase, .cntExc, .irqEn], ∃ (s : State) (v : Word) (es : List HostEvent), s.host = wr s.plat r v :: es ∧ s.regs.status.busy = false) ∧
    (∃ (s : State) (v : Word) (es : List HostEvent), s.host = wr s.plat .ctrl v :: es ∧ v.getLsbD 0 = false) :=
  ⟨fun r _ => ⟨hostNext .reset (wr P r 0xFFFFFFFF#32), 0xFFFFFFFF#32, [], rfl, rfl⟩,
   ⟨hostNext .reset (wr P .ctrl 0xFFFFFFFE#32), 0xFFFFFFFE#32, [], by decide⟩⟩

theorem witness_StatusWriteClearsOnlyItsFlags : ∃ (s : State) (v : Word) (es : List HostEvent), s.host = wr s.plat .status v :: es ∧ s.regs.status.done = true :=
  ⟨hostNext (stepped (issued .nop 0 0 0 [] [] [])) (wr P .status 0xE#32), 0xE#32, [], by decide +kernel⟩

/-- The accepted write, followed by no host event, of a legal word, and the ignored one. -/
theorem witness_CmdWriteIssuesTheCommand :
    (∃ (s : State) (w : Word) (i : Instr), s.host = [wr s.plat .cmd w] ∧ s.regs.status.busy = false ∧ decode w = .ok i) ∧
    (∃ (s : State) (w : Word) (es : List HostEvent), s.host = wr s.plat .cmd w :: es ∧ s.regs.status.busy = true) :=
  ⟨⟨hostNext .reset (wr P .cmd 0x41#32), 0x41#32, .decode, by decide⟩, ⟨hostNext packIssued (wr P .cmd 0#32), 0#32, [], by decide⟩⟩

/-- One witness per clause: a dropped write at the window's last offset, the three that take effect. -/
theorem witness_WritesWhileBusyAreDropped :
    ∀ off ∈ [0xFC, 0x08, 0x0C, 0x10], ∃ (s : State) (v : Word) (es : List HostEvent), s.host = .regWrite (s.plat.regBase + off) .word v :: es ∧ off < 256 ∧
      off % 4 = 0 ∧ s.regs.status.busy = true := fun off h =>
  ⟨hostNext packIssued (.regWrite (0 + off) .word 1#32), 1#32, [], rfl, by revert off; decide, by revert off; decide, rfl⟩

theorem witness_IrqFollowsDoneAndErr :
    (∃ (s : State) (v : Word) (es : List HostEvent), s.host = wr s.plat .irqEn v :: es ∧ s.regs.status.done = true) ∧
    (∃ (s : State) (v : Word) (es : List HostEvent), s.host = wr s.plat .status v :: es ∧ s.irq = true) ∧
    (∃ (s : State) (w : Word) (es : List HostEvent), s.host = wr s.plat .cmd w :: es ∧ s.regs.status.busy = false ∧ s.irq = true) ∧
    (∃ (s : State) (es : List HostEvent), s.host = .rstN :: es ∧ s.irq = true) := by
  let s := stepped (issued .nop 0 0 0 [] [] [])
  let t : State := { s with regs := { s.regs with irqEn := ⟨true, false⟩ } }
  exact ⟨⟨hostNext s (wr P .irqEn 1#32), 1#32, [], by decide +kernel⟩, ⟨hostNext t (wr P .status 2#32), 2#32, [], by decide +kernel⟩,
    ⟨hostNext t (wr P .cmd 0#32), 0#32, [], by decide +kernel⟩, ⟨hostNext t .rstN, [], by decide +kernel⟩⟩

/-- The last word of the 32-bit space, and a step that ends R89's span. -/
theorem witness_HostMemoryAccessesWhileIdle :
    (∃ (s : State) (a : Nat) (v : Word), s.mem.wf ∧ s.held = [] ∧ a % 4 = 0 ∧ a + 4 ≤ 2 ^ s.plat.aw ∧ s.plat.errs a = false ∧
      s.host = [HostEvent.memWrite a v] ∧ { s with host := [.memRead a] }.host = [HostEvent.memRead a]) ∧
    (∃ s t : State, step s = .next t ∧ t.held.map (·.windows) ≠ s.held.map (·.windows) ∧ t.held = []) ∧
    (∃ s t : State, step s = .next t ∧ t.held.map (·.windows) ≠ s.held.map (·.windows) ∧ t.held ≠ []) :=
  ⟨⟨hostNext .reset (.memWrite 0xFFFFFFFC 7#32), 0xFFFFFFFC, 7#32, by decide⟩,
   ⟨hostNext (stepped packIssued) (rd P .status), _, rfl, by decide +kernel, by decide +kernel⟩,
   ⟨hostNext .reset (wr P .cmd 0x41#32), _, rfl, by decide +kernel, by decide +kernel⟩⟩

/-- The windows PACK of `packIssued` holds: three input words, one output word. -/
abbrev packWindows : Windows := ⟨⟨0x1000, 0x100C⟩, ⟨0x2000, 0x2004⟩, ⟨0, 0⟩⟩

/-- An access of each kind to a held window, also once the command has ended: the last word inside each window, and the first outside;
and PACK run to its end after a breach. -/
theorem witness_HostAccessesAgainstTheDutyAreDraws :
    (∀ e ∈ [HostEvent.memRead 0x2000, .memRead 0x1008, .memWrite 0x1008 7#32, .memWrite 0x100C 7#32],
      ∃ (s t : State), s.mem.wf ∧ s.host = [e] ∧ step s = .next t) ∧
    (∀ s ∈ [packIssued, stepped packIssued], s.mem.wf ∧ s.held = [⟨packWindows, false⟩] ∧
      ∀ a ∈ [0x1008, 0x100C, 0x2000, 0x2004], a % 4 = 0 ∧ a + 4 ≤ 2 ^ s.plat.aw ∧ s.plat.errs a = false) ∧
    (∃ (s t : State) (p : Plan) (u : Units) (run : Run) (h : Held), Inv s ∧ s.regs.status.busy = true ∧
      decode s.regs.cmd = .ok (.pack 2#6) ∧ commandOf (.pack 2#6) s = some (p, u) ∧ started s p = .ok run ∧ s.held.head? = some h ∧
      h.broken = true ∧ exec (.pack 2#6) s = .next t ∧ t.regs.status.err = false ∧ run.ocur + 0 < t.regs.outCur.toNat) := by
  refine ⟨fun e he => ⟨hostNext packIssued e, ?_⟩, ?_, ?_⟩
  · simp only [List.mem_cons, List.not_mem_nil, or_false] at he
    rcases he with rfl | rfl | rfl | rfl <;> exact ⟨_, (by decide +kernel : packIssued.mem.wf), rfl, rfl⟩
  · simp only [List.mem_cons, List.not_mem_nil, or_false, forall_eq_or_imp, forall_eq]
    decide +kernel
  · let s : State := { packIssued with held := [⟨packWindows, true⟩] }
    exact ⟨s, stepped s, packPlan s, packUnits 2 s, ⟨0, 0, 0, 0, 0⟩, _, inv_of_checks (by decide +kernel), by decide +kernel,
      by decide +kernel, rfl, by decide +kernel, rfl, rfl, exec_stepped rfl rfl (by decide +kernel), by decide +kernel, by decide +kernel⟩

/-- One word per clause: an unassigned opcode, B = 33, a reserved bit with B = 32, B = 1 where B is not used, and two legal
words. -/
theorem witness_IllegalCommandIsReported :
    ∀ w ∈ [0xFF#32, 0x2110#32, 0x80002020#32, 0x0141#32, 0x2020#32, 0x41#32],
      ∃ (s : State), s.host = [] ∧ s.regs.status.busy = true ∧ s.regs.cmd = w :=
  fun w _ => ⟨issue w .reset, rfl, rfl, rfl⟩

theorem witness_StepRunsTheDecodedCommand :
    ∀ es ∈ [[], [HostEvent.quiet], [HostEvent.await]],
      ∃ (s : State) (i : Instr), s.regs.status.busy = true ∧ decode s.regs.cmd = .ok i ∧ s.host = es :=
  fun es _ => ⟨{ packIssued with host := es }, .pack 2#6, rfl, (by decide +kernel : decode packIssued.regs.cmd = .ok (.pack 2#6)), rfl⟩

theorem witness_PlacedCommandRunsNext : (Instr.pack 32#6).wf = true := by decide

theorem witness_IdleEngineKeepsItsState : State.reset.host = [] ∧ State.reset.regs.status.busy = false := by decide

theorem witness_StepKeepsTheInvariant : ∃ (s : State) (t : State), Inv s ∧ step s = .next t := ⟨packIssued, _, inv_of_checks (by decide +kernel), step_stepped rfl⟩

/-- A CONFIG that changes the active pair, `rst_n`, and soft reset. -/
theorem witness_ActiveConfigurationHasThreeWriters :
    ∃ (s : State) (t : State), step s = .next t ∧ t.regs.actBlockSize ≠ s.regs.actBlockSize := by
  let s := issued .config 0 0 0 [] [] []
  let u : State := { s with regs := { s.regs with cfgBlockSize := 256#32 } }
  exact ⟨u, stepped u, step_stepped rfl, by decide +kernel⟩

theorem witness_EngineMoves : ∃ (s : State) (t : State), Inv s ∧ engineMove s = .next t ∧ s.regs.inCur.toNat < t.regs.inCur.toNat :=
  ⟨packIssued, stepped packIssued, inv_of_checks (by decide +kernel), engineMove_stepped rfl, by decide +kernel⟩

/-- The clause's address: the output window of PACK ends at 0x2004. -/
theorem witness_EngineWritesOnlyItsOutputWindow :
    ∃ (s : State) (t : State) (a : Nat), Inv s ∧ engineMove s = .next t ∧ (packPlan s).outWin.has a = false ∧ (packPlan s).outWin.has (a - 1) = true :=
  ⟨packIssued, stepped packIssued, 0x2004, inv_of_checks (by decide +kernel), engineMove_stepped rfl, by decide +kernel, by decide +kernel⟩

theorem witness_EveryCommandEnds : ∃ (s : State), Inv s ∧ s.host = [] ∧ s.regs.status.busy = true :=
  ⟨packIssued, inv_of_checks (by decide +kernel), rfl, rfl⟩

theorem witness_ScratchIsForgottenAtIssue : ∃ (s : State) (w : Word) (es : List HostEvent), s.host = wr s.plat .cmd w :: es ∧ s.regs.status.busy = false :=
  ⟨hostNext .reset (wr P .cmd 0x41#32), 0x41#32, [], rfl, rfl⟩

theorem witness_ErrorsAreTheCommandsOwnAndPrecise :
    ∃ (i : Instr) (s : State) (t : State), s.regs.status.err = false ∧ exec i s = .next t ∧ t.regs.status.err = true ∧
      t.regs.status.errKind ≠ some .busError ∧ ¬(i = .decode ∧ t.regs.errDetail = 5#8) := by
  let s := issued .hdrParse 0 0 0 [] [] []
  exact ⟨.hdrParse, s, stepped s, by decide +kernel, exec_stepped rfl rfl (by decide +kernel), by decide +kernel, by decide +kernel, by decide +kernel⟩

/-- A platform whose erroring range holds PACK's second input word: outcome (a) and every outcome (b) of R260 name 0x1004, so the
free choice does not matter. -/
theorem witness_BusErrorsNameAnErroringWindowAddress :
    ∃ (i : Instr) (s : State) (t : State), Inv s ∧ s.regs.status.busy = true ∧ decode s.regs.cmd = .ok i ∧ exec i s = .next t ∧
      t.regs.status.errKind = some .busError := by
  let s : State := { packIssued with plat := { P with busErr := [⟨0x1004, 0x1005⟩] } }
  refine ⟨.pack 2#6, s, turn (packPlan s) (packUnits 2 s) s, inv_of_checks (by decide +kernel), by decide +kernel,
    by decide +kernel, rfl, ?_⟩
  have hs : started s (packPlan s) = .ok (issueRun s) := by decide +kernel
  have hm : (packUnits 2 s).more (issueRun s) = true := by decide +kernel
  have hu : packUnit 2 s (issueRun s) = .error (busRaise .read 0x1004) := by decide +kernel
  obtain ⟨r, h, -⟩ | ⟨run, h, h', -⟩ | ⟨run, r, h, -, ht, hr⟩ | ⟨run, d, h, -, -, h', -⟩ :=
    turn_cases (packPlan s) (packUnits 2 s) s
  · rw [hs] at h; cases h
  · rw [hs] at h; cases h; rw [hm] at h'; cases h'
  · rw [hs] at h; cases h
    rw [ht]
    suffices hk : r.kind = .busError by simp [hk]
    obtain hr | ⟨-, hr | ⟨d, hr, -⟩⟩ := hr
    · obtain ⟨k, -, rfl⟩ := busOutcome_some hr
      unfold busRaise; split <;> rfl
    · simp only [packUnits, oneUnit, hu] at hr; cases hr; rfl
    · simp only [packUnits, oneUnit, hu] at hr; cases hr
  · rw [hs] at h; cases h
    simp only [packUnits, oneUnit, hu] at h'; cases h'

/-- A command not yet started whose prologue passes, on a platform where the word at `a` errs. -/
abbrev Passes (s : State) (p : Plan) (a : Nat) : Prop :=
  s.scratch.run = none ∧ prologue s p = none ∧ s.plat.errs a = true

/-- A frame command at its first page, on a platform where the word at `a` errs. -/
abbrev FrameStarts (i : Instr) (p : Plan) (a : Nat) (s : State) : Prop :=
  InvChecks s ∧ s.regs.status.busy = true ∧ decode s.regs.cmd = .ok i ∧ started s p = .ok ⟨0, 0, 0, 0, 0⟩ ∧ s.plat.errs a = true

/-- PACK's last input and its output word, UNPACK's first input and last output word, EXC_EXTRACT's last input word, EXC_PATCH's D and
its last target, HDR_PARSE's H0. -/
theorem witness_BusErrorsAreReported_single :
    (∀ a ∈ [0x1008, 0x2000], Passes (withErr a packIssued) (packPlan (withErr a packIssued)) a) ∧
    packIssued.regs.outCur.toNat + packedLen 3 2 ≤ packIssued.regs.outBound.toNat ∧
    (∀ a ∈ [0x1000, 0x2008], Passes (withErr a (issued (.unpack 2#6) 1 3 3 [] [] []))
      (unpackPlan (withErr a (issued (.unpack 2#6) 1 3 3 [] [] []))) a) ∧ packedLen 3 2 = 1 ∧
    Passes (withErr 0x1008 (issued (.excExtract 2#6) 3 1 0 [] [] [])) (extractPlan (withErr 0x1008 (issued (.excExtract 2#6) 3 1 0 [] [] []))) 0x1008 ∧
    (∀ a ∈ [0x1000, 0x2008], Passes (withErr a (issued .excPatch 1 3 3 [] [] [])) (patchPlan (withErr a (issued .excPatch 1 3 3 [] [] []))) a) ∧
    readGroup (inRd (withErr 0x2008 (issued .excPatch 1 3 3 [] [] []))) 128 1 0 = .ok { d := 0#32, b := 0, buckets := [] } ∧
    Passes (withErr 0x1000 (issued .hdrParse 1 3 0 [] [] [])) (parsePlan (withErr 0x1000 (issued .hdrParse 1 3 0 [] [] []))) 0x1000 := by
  decide +kernel

/-- ENCODE's entry and its last value. -/
theorem witness_BusErrorsAreReported_encode :
    (∀ a ∈ [0x4000, 0x11FC], FrameStarts .encode (encodePlan (withErr a (issued .encode 128 64 0 [] [] []))) a
      (withErr a (issued .encode 128 64 0 [] [] []))) ∧
    memRead (withErr 0x11FC (issued .encode 128 64 0 [] [] [])) 0x4000 = .ok 0#32 ∧ validBW 0#32 = true := by decide +kernel

/-- DECODE's H0 and the last word of a main run. -/
theorem witness_BusErrorsAreReported_decode :
    (∀ a ∈ [0x1000, 0x1014], FrameStarts .decode (decodePlan (withErr a (issued .decode 6 128 0 [0x107#32, 1#32] [] []))) a
      (withErr a (issued .decode 6 128 0 [0x107#32, 1#32] [] []))) ∧
    readHeader (inRd (withErr 0x1014 (issued .decode 6 128 0 [0x107#32, 1#32] [] []))) 128 65536 6 0 =
      .ok { h := 0x107#32, groups := [{ d := 1#32, b := 1, buckets := [] }] } ∧ 0 + 1 * 128 ≤ 128 ∧ 2 + 3 < 2 + 128 * 1 / 32 := by
  decide +kernel

theorem groupsAt_nil (s : State) (wend j : Nat) : GroupsAt s wend j [] := fun i g h => by simp at h

theorem groupsAt_single {s : State} {wend j : Nat} {g : Group} (h : readGroup (plainIn s) (actBS s) wend j = .ok g) :
    GroupsAt s wend j [g] := by
  intro i g' hg
  cases i with
  | zero => simp only [List.getElem?_cons_zero, Option.some.injEq] at hg; subst hg; simpa using h
  | succ i => simp at hg

/-- EXC_EXTRACT's output word. -/
theorem witness_BusErrorsAreReported_extract_output :
    Passes (withErr 0x2000 (issued (.excExtract 3#6) 3 9 0 [7#32, 8#32, 9#32] [] []))
      (extractPlan (withErr 0x2000 (issued (.excExtract 3#6) 3 9 0 [7#32, 8#32, 9#32] [] []))) 0x2000 ∧
    dutyBroken (withErr 0x2000 (issued (.excExtract 3#6) 3 9 0 [7#32, 8#32, 9#32] [] [])) = false ∧
    0 < (record 7 (inWords (withErr 0x2000 (issued (.excExtract 3#6) 3 9 0 [7#32, 8#32, 9#32] [] [])) 0 3) 3).length ∧
    0 + (record 7 (inWords (withErr 0x2000 (issued (.excExtract 3#6) 3 9 0 [7#32, 8#32, 9#32] [] [])) 0 3) 3).length ≤ 9 := by
  decide +kernel

/-- EXC_PATCH on the record of two exceptions: the word at `a` errs. -/
abbrev patchErr (a : Nat) : State :=
  withErr a (issued .excPatch 4 3 3 [0x103#32, 0x201#32, 0x81#32, 0x3#32] [7#32, 0#32, 1#32] [])

/-- EXC_PATCH's bucket word, and the last word of its high-bit run. -/
theorem witness_BusErrorsAreReported_patch :
    (Passes (patchErr 0x1004) (patchPlan (patchErr 0x1004)) 0x1004 ∧ GroupReaches (patchErr 0x1004) 4 0 1) ∧
    (Passes (patchErr 0x100C) (patchPlan (patchErr 0x100C)) 0x100C ∧ dutyBroken (patchErr 0x100C) = false ∧
      readGroup (plainIn (patchErr 0x100C)) 128 4 0 = .ok { d := 0x103#32, b := 3, buckets := [⟨1, 2⟩] } ∧
      2 + xlen 7 [⟨1, 2⟩] ≤ 4 ∧
      patch (plainIn (patchErr 0x100C)) 3 3 7 2 ([(⟨1, 2⟩ : BucketInfo)].take 0) (outWords (patchErr 0x100C) 0 3) =
        .ok [7#32, 0#32, 1#32] ∧ 1 < xlen 7 ([⟨1, 2⟩].take 1)) :=
  ⟨⟨by decide +kernel, by decide, fun _ => ⟨by decide +kernel, by decide +kernel, fun t h1 h2 => absurd h2 (by omega)⟩⟩, by decide +kernel⟩

/-- A page command on a page of one block of width 1 with one bucket: the word at `a` errs. Its H0, D, B, four words of main run, a
delta run and a high-bit run. -/
abbrev pageErr (i : Instr) (a : Nat) : State := withErr a (issued i 9 128 0 [0x107#32, 0x101#32, 0x101#32] [] [])

/-- The block of `pageErr`. -/
abbrev pageGroup : Group := { d := 0x101#32, b := 1, buckets := [⟨1, 1⟩] }

/-- HDR_PARSE's bucket word, and the last word of its table. -/
theorem witness_BusErrorsAreReported_parse :
    (Passes (pageErr .hdrParse 0x1008) (parsePlan (pageErr .hdrParse 0x1008)) 0x1008 ∧ 0 < field 0x107#32 8 24 ∧
      validH0 128 65536 0x107#32 = true ∧ (pageErr .hdrParse 0x1008).mem.word 0x1000 = 0x107#32 ∧
      GroupsAt (pageErr .hdrParse 0x1008) 9 1 [] ∧ GroupReaches (pageErr .hdrParse 0x1008) 9 1 1) ∧
    (Passes (pageErr .hdrParse 0x2014) (parsePlan (pageErr .hdrParse 0x2014)) 0x2014 ∧ [pageGroup].length = field 0x107#32 8 24 ∧
      GroupsAt (pageErr .hdrParse 0x2014) 9 1 [pageGroup] ∧ 3 + ([pageGroup].map (blen 128)).sum ≤ 9 ∧ 0 + 6 ≤ 128) :=
  ⟨⟨by decide +kernel, by decide +kernel, by decide +kernel, by decide +kernel, groupsAt_nil _ _ _, by decide,
      fun _ => ⟨by decide +kernel, by decide +kernel, fun t h1 h2 => absurd h2 (by omega)⟩⟩,
    ⟨by decide +kernel, by decide +kernel, groupsAt_single (by decide +kernel), by decide +kernel, by decide⟩⟩

/-- ENCODE's last page word. -/
theorem witness_BusErrorsAreReported_encode_output :
    FrameStarts .encode (encodePlan (withErr 0x2004 (issued .encode 128 2 0 [] [] []))) 0x2004 (withErr 0x2004 (issued .encode 128 2 0 [] [] [])) ∧
    validBW ((withErr 0x2004 (issued .encode 128 2 0 [] [] [])).mem.word 0x4000) = true ∧
    dutyBroken (withErr 0x2004 (issued .encode 128 2 0 [] [] [])) = false ∧
    (encPage 128 ((blocksOf 128 1 (inWords (withErr 0x2004 (issued .encode 128 2 0 [] [] [])) 0 128)).zip
      ((tableWords (withErr 0x2004 (issued .encode 128 2 0 [] [] [])) 0 1).map fun w => field w 0 6))).length = 2 := by decide +kernel

/-- DECODE's bucket word, the last word of its block's high-bit run, and the last word it writes. -/
theorem witness_BusErrorsAreReported_decode_page :
    (FrameStarts .decode (decodePlan (pageErr .decode 0x1008)) 0x1008 (pageErr .decode 0x1008) ∧
      GroupReaches (pageErr .decode 0x1008) 9 1 1) ∧
    (∀ a ∈ [0x1020, 0x21FC], FrameStarts .decode (decodePlan (pageErr .decode a)) a (pageErr .decode a)) ∧
    GroupsAt (pageErr .decode 0x1020) 9 1 [pageGroup] ∧ 3 + ([pageGroup].map (blen 128)).sum ≤ 9 ∧
    decodeBlock (plainIn (pageErr .decode 0x1020)) 128 3 { pageGroup with buckets := [⟨1, 1⟩].take 0 } = .ok (List.replicate 128 0#32) ∧
    5 < 128 * 1 / 32 + xlen 7 ([⟨1, 1⟩].take 1) ∧
    decodeBlock (plainIn (pageErr .decode 0x21FC)) 128 3 pageGroup = .ok (List.replicate 128 0#32) :=
  ⟨⟨by decide +kernel, by decide, fun _ => ⟨by decide +kernel, by decide +kernel, fun t h1 h2 => absurd h2 (by omega)⟩⟩,
    by decide +kernel, groupsAt_single (by decide +kernel), by decide +kernel, by decide +kernel, by decide +kernel, by decide +kernel⟩

/-- H0 and D parse and the page's 6 words pass a window of 5, for HDR_PARSE and DECODE. -/
theorem witness_StreamErrorsEndTheCommand_extent :
    (∃ s, Ready s (parsePlan s) ∧ PageAt s 5 0 [{ d := 1#32, b := 1, buckets := [] }] ∧
      5 < 0 + pageLen (actBS s) [{ d := 1#32, b := 1, buckets := [] }]) ∧
    (∃ s, Inv s ∧ s.regs.status.busy = true ∧ decode s.regs.cmd = .ok .decode ∧ started s (decodePlan s) = .ok ⟨0, 0, 0, 0, 0⟩ ∧
      Undisturbed s ((decodeUnits s).win ⟨0, 0, 0, 0, 0⟩) ∧
      PageAt s 5 0 [{ d := 1#32, b := 1, buckets := [] }] ∧ 5 < 0 + pageLen (actBS s) [{ d := 1#32, b := 1, buckets := [] }]) :=
  ⟨⟨issued .hdrParse 5 6 0 [0x107#32, 1#32] [] [], by decide +kernel,
      ⟨by decide, by decide +kernel, by decide +kernel, groupsAt_single (by decide +kernel)⟩, by decide +kernel⟩,
    ⟨issued .decode 5 128 0 [0x107#32, 1#32] [] [], inv_of_checks (by decide +kernel), by decide +kernel, by decide +kernel,
      by decide +kernel, by decide +kernel,
      ⟨by decide, by decide +kernel, by decide +kernel, groupsAt_single (by decide +kernel)⟩, by decide +kernel⟩⟩

/-- DECODE's detail 5 in the first block of a page, and an abort after a first page: `s` before, and a later block's. -/
theorem witness_CleanErrorsLeaveMemoryAlone :
    (∃ (s t : State) (run : Run) (p : Header) (g : Group) (r : Raise), s.regs.status.err = false ∧
      started s (decodePlan s) = .ok run ∧ exec .decode s = .next t ∧ t.regs.status.err = true ∧
      t.regs.status.errKind ≠ some .busError ∧
      readHeader (inRd s) (actBS s) (actPS s) (run.icur0 + s.regs.inLen.toNat) run.icur = .ok p ∧ p.groups[0]? = some g ∧
      decodeBlock (inRd s) (actBS s) (run.icur + p.hlen) g = .error r ∧ t.regs.errDetail = 5#8) ∧
    (∃ (s t : State) (p : Plan) (u : Units) (run : Run), s.mem.wf ∧ s.regs.status.err = false ∧ commandOf .decode s = some (p, u) ∧
      started s p = .ok run ∧ exec .decode s = .next t ∧ t.regs.status.err = true ∧ (unitRange s u run).2 = 256) := by
  let s := issued .decode 5 128 0 [0x107#32, 0x100#32, 0x201#32, 0xFF#32, 3#32] [] []
  let s2 := issued .decode 6 300 0 [0x207#32, 0#32, 0x100#32, 0x201#32, 0xFF#32, 3#32] [] []
  exact ⟨⟨s, stepped s, ⟨0, 0, 0, 0, 0⟩, { h := 0x107#32, groups := [{ d := 0x100#32, b := 0, buckets := [⟨1, 2⟩] }] },
      { d := 0x100#32, b := 0, buckets := [⟨1, 2⟩] }, corrupt 5 3, by decide +kernel, by decide +kernel,
      exec_stepped rfl rfl (by decide +kernel), by decide +kernel, by decide +kernel, by decide +kernel, by decide +kernel,
      by decide +kernel, by decide +kernel⟩,
    ⟨s2, stepped s2, decodePlan s2, decodeUnits s2, ⟨0, 0, 0, 0, 0⟩, by decide +kernel, by decide +kernel, rfl, by decide +kernel,
      exec_stepped rfl rfl (by decide +kernel), by decide +kernel, by decide +kernel⟩⟩

/-- One state per check of the prologue, each the first to fail: ten states. -/
theorem witness_PrologueReportsItsFirstFailure :
    let g (i : Instr) (f : Regs → Regs) : State := { issued i 4 8 0 [] [] [] with regs := f (issued i 4 8 0 [] [] []).regs }
    let fails (i : Instr) (f : Regs → Regs) (k : ErrKind) (d : Nat) : Prop :=
      ((commandOf i (g i f)).bind fun c => (prologue (g i f) c.1).map fun r => (r.kind, r.detail)) = some (k, d) ∧
        (g i f).scratch.run = none
    fails (.pack 1#6) (fun r => { r with inCur := 5#32 }) .invalidOffset 1 ∧
    fails (.pack 1#6) (fun r => { r with outCur := 9#32 }) .invalidOffset 2 ∧
    fails (.pack 1#6) (fun r => { r with inBase := 0xFFFFFFF4#32 }) .invalidOffset 3 ∧
    fails (.pack 1#6) (fun r => { r with outBase := 0x2001#32 }) .invalidOffset 4 ∧
    fails .encode (fun r => { r with bwBase := 0x4002#32 }) .invalidOffset 5 ∧
    fails (.pack 1#6) (fun r => { r with inLen := 5#32 }) .invalidInput 1 ∧
    fails (.excExtract 1#6) (fun r => { r with inBound := 129#32, inLen := 129#32 }) .invalidInput 3 ∧
    fails .excPatch (fun r => { r with argCount := 129#32 }) .invalidInput 3 ∧
    fails (.pack 1#6) (fun r => { r with outBase := 0x100C#32 }) .invalidInput 2 ∧
    fails .encode (fun r => { r with inBound := 128#32, inLen := 128#32, bwBase := 0x201C#32 }) .invalidInput 5 := by
  decide +kernel

/-- One input per clause: an empty record, a record past its window, a position past the targets; an H0 of zeros, no room for the
table; an H0 of zeros, no room for the block, a position past the block in a page's second
block. -/
theorem witness_StreamErrorsEndTheCommand :
    let wend := fun s : State => s.regs.inCur.toNat + s.regs.inLen.toNat
    let group := fun s : State => readGroup (plainIn s) (actBS s) (wend s) s.regs.inCur.toNat
    let page := fun s : State => readHeader (plainIn s) (actBS s) (actPS s) (wend s) s.regs.inCur.toNat
    let g : Group := { d := 0x103#32, b := 3, buckets := [⟨1, 2⟩] }
    let p : Header := { h := 0x107#32, groups := [{ d := 0#32, b := 0, buckets := [] }] }
    (∃ s, Ready s (patchPlan s) ∧ s.regs.outCur.toNat + s.regs.argCount.toNat ≤ s.regs.outBound.toNat ∧
      group s = .error (corrupt 1 0)) ∧
    (∃ s, Ready s (patchPlan s) ∧ s.regs.outCur.toNat + s.regs.argCount.toNat ≤ s.regs.outBound.toNat ∧ group s = .ok g ∧
      wend s < 2 + xlen (posWidth s) g.buckets) ∧
    (∃ s, Ready s (patchPlan s) ∧ s.regs.outCur.toNat + s.regs.argCount.toNat ≤ s.regs.outBound.toNat ∧ group s = .ok g ∧
      2 + xlen (posWidth s) g.buckets ≤ wend s ∧
      patch (plainIn s) 2 g.b (posWidth s) 2 g.buckets (outWords s s.regs.outCur.toNat 2) = .error (corrupt 5 2)) ∧
    (∃ s, Ready s (parsePlan s) ∧ page s = .error (corrupt 2 0)) ∧
    (∃ s, Ready s (parsePlan s) ∧ page s = .ok p ∧ s.regs.outBound.toNat < s.regs.outCur.toNat + 6) ∧
    (∃ s, Inv s ∧ s.regs.status.busy = true ∧ decode s.regs.cmd = .ok .decode ∧ started s (decodePlan s) = .ok ⟨0, 0, 0, 0, 0⟩ ∧
      Undisturbed s ((decodeUnits s).win ⟨0, 0, 0, 0, 0⟩) ∧ 0 < s.regs.inLen.toNat ∧ page s = .error (corrupt 2 0)) ∧
    (∃ s, Inv s ∧ s.regs.status.busy = true ∧ decode s.regs.cmd = .ok .decode ∧ started s (decodePlan s) = .ok ⟨0, 0, 0, 0, 0⟩ ∧
      Undisturbed s ((decodeUnits s).win ⟨0, 0, 0, 0, 0⟩) ∧ 0 < s.regs.inLen.toNat ∧ page s = .ok p ∧ s.regs.outBound.toNat < s.regs.outCur.toNat + 128) ∧
    (∃ (s : State) (q : Header) (g0 g1 : Group) (x : List Word), Inv s ∧ s.regs.status.busy = true ∧ decode s.regs.cmd = .ok .decode ∧
      started s (decodePlan s) = .ok ⟨0, 0, 0, 0, 0⟩ ∧ Undisturbed s ((decodeUnits s).win ⟨0, 0, 0, 0, 0⟩) ∧ page s = .ok q ∧
      q.groups = [g0, g1] ∧ q.offsets (actBS s) = [4, 4] ∧ 256 ≤ s.regs.outBound.toNat ∧
      decodeBlock (plainIn s) (actBS s) 4 g0 = .ok x ∧ decodeBlock (plainIn s) (actBS s) 4 g1 = .error (corrupt 5 4)) := by
  intro wend group page g p
  exact ⟨⟨issued .excPatch 0 3 3 [] [] [], by decide +kernel⟩,
    ⟨issued .excPatch 3 3 3 [0x103#32, 0x201#32, 0x81#32] [] [], by decide +kernel⟩,
    ⟨issued .excPatch 4 2 2 [0x103#32, 0x201#32, 0x81#32, 0x3#32] [] [], by decide +kernel⟩,
    ⟨issued .hdrParse 1 6 0 [] [] [], by decide +kernel⟩, ⟨issued .hdrParse 2 5 0 [0x107#32, 0#32] [] [], by decide +kernel⟩,
    ⟨issued .decode 1 128 0 [] [] [], inv_of_checks (by decide +kernel), by decide +kernel⟩,
    ⟨issued .decode 2 127 0 [0x107#32, 0#32] [] [], inv_of_checks (by decide +kernel), by decide +kernel⟩,
    ⟨issued .decode 6 300 0 [0x207#32, 0#32, 0x100#32, 0x201#32, 0xFF#32, 3#32] [] [],
      { h := 0x207#32, groups := [{ d := 0#32, b := 0, buckets := [] }, { d := 0x100#32, b := 0, buckets := [⟨1, 2⟩] }] },
      { d := 0#32, b := 0, buckets := [] }, { d := 0x100#32, b := 0, buckets := [⟨1, 2⟩] }, List.replicate 128 0#32,
      inv_of_checks (by decide +kernel), by decide +kernel⟩⟩

/-- A table entry of width 33, and a page of two words in an output of one. -/
theorem witness_EncodeRefusesBadEntriesAndFullOutput :
    let ok := fun s : State => Inv s ∧ s.regs.status.busy = true ∧ decode s.regs.cmd = .ok .encode ∧
      started s (encodePlan s) = .ok ⟨0, 0, 0, 0, 0⟩ ∧ Undisturbed s ((encodeUnits s).win ⟨0, 0, 0, 0, 0⟩) ∧ 0 < s.regs.inLen.toNat / actBS s
    (∃ s, ok s ∧ (tableWords s 0 1).map validBW = [false]) ∧
    (∃ s, ok s ∧ (tableWords s 0 1).map validBW = [true] ∧ s.regs.outBound.toNat < 2 ∧
      (encPage (actBS s) ((blocksOf (actBS s) 1 (inWords s 0 (1 * actBS s))).zip
        ((tableWords s 0 1).map fun w => field w 0 6))).length = 2) := by
  intro ok
  exact ⟨⟨issued .encode 128 64 0 [] [] [33#32], ⟨inv_of_checks (by decide +kernel), by decide +kernel⟩, by decide +kernel⟩,
    ⟨issued .encode 128 1 0 [] [] [], ⟨inv_of_checks (by decide +kernel), by decide +kernel⟩, by decide +kernel⟩⟩

theorem witness_OutputThatDoesNotFitIsRefused :
    (∃ (b : BitVec 6) (s : State), Ready s (packPlan s) ∧
      s.regs.outBound.toNat < s.regs.outCur.toNat + packedLen s.regs.inLen.toNat b.toNat) ∧
    (∃ (b : BitVec 6) (s : State), Ready s (unpackPlan s) ∧ s.regs.inLen.toNat < packedLen s.regs.argCount.toNat b.toNat) ∧
    (∃ (b : BitVec 6) (s : State), Ready s (unpackPlan s) ∧ packedLen s.regs.argCount.toNat b.toNat ≤ s.regs.inLen.toNat ∧
      s.regs.outBound.toNat < s.regs.outCur.toNat + s.regs.argCount.toNat) ∧
    (∃ (b : BitVec 6) (s : State), Ready s (extractPlan s) ∧ s.regs.outBound.toNat < s.regs.outCur.toNat +
      (record (posWidth s) (inWords s s.regs.inCur.toNat s.regs.inLen.toNat) b.toNat).length) ∧
    (∃ (s : State), Ready s (patchPlan s) ∧ s.regs.outBound.toNat < s.regs.outCur.toNat + s.regs.argCount.toNat) :=
  ⟨⟨2#6, issued (.pack 2#6) 3 0 0 [] [] [], by decide +kernel⟩, ⟨2#6, issued (.unpack 2#6) 1 17 17 [] [] [], by decide +kernel⟩,
   ⟨2#6, issued (.unpack 2#6) 1 2 3 [] [] [], by decide +kernel⟩, ⟨3#6, issued (.excExtract 3#6) 3 0 0 [] [] [], by decide +kernel⟩,
   ⟨issued .excPatch 1 2 3 [] [] [], by decide +kernel⟩⟩

/-- One input per clause: an empty window, an H0 of zeros, an H0 alone, a descriptor of width 33. -/
theorem witness_CorruptHeadersAreReported :
    ∀ x ∈ [(0, []), (1, [0#32]), (1, [0x107#32]), (2, [0x107#32, 0x21#32])],
      Ready (issued .decode x.1 0 0 x.2 [] []) (basePlan (issued .decode x.1 0 0 x.2 [] [])) := by decide +kernel

/-- A legal pair at the largest page, and one pair per check. -/
theorem witness_ConfigChecksThenInstalls :
    configError 128 0x7FFFFF80 = none ∧ (configError 100 65536).map (·.detail) = some 1 ∧
    (configError 512 0).map (·.detail) = some 2 ∧ (configError 128 0x80000000).map (·.detail) = some 3 := by decide +kernel

theorem witness_PackWritesThePackedRun : ∃ (b : BitVec 6) (s : State), s.mem.wf ∧ Ready s (packPlan s) ∧
    s.regs.outCur.toNat + packedLen s.regs.inLen.toNat b.toNat ≤ s.regs.outBound.toNat := ⟨2#6, packIssued, by decide +kernel⟩

theorem witness_UnpackWritesTheValues : ∃ (b : BitVec 6) (s : State), s.mem.wf ∧ Ready s (unpackPlan s) ∧
    packedLen s.regs.argCount.toNat b.toNat ≤ s.regs.inLen.toNat ∧
    s.regs.outCur.toNat + s.regs.argCount.toNat ≤ s.regs.outBound.toNat :=
  ⟨2#6, issued (.unpack 2#6) 1 3 3 [0x39#32] [] [], by decide +kernel⟩

theorem witness_ExcExtractWritesTheRecord : ∃ (b : BitVec 6) (s : State), s.mem.wf ∧ legalWidth b = true ∧ Ready s (extractPlan s) ∧
    s.regs.outCur.toNat +
      (record (posWidth s) (inWords s s.regs.inCur.toNat s.regs.inLen.toNat) b.toNat).length ≤ s.regs.outBound.toNat :=
  ⟨3#6, issued (.excExtract 3#6) 3 4 0 [7#32, 8#32, 9#32] [] [], by decide +kernel⟩

theorem witness_ExcPatchRewritesTheTargets : ∃ (s : State) (g : Group) (x : List Word), s.mem.wf ∧ Ready s (patchPlan s) ∧
    s.regs.outCur.toNat + s.regs.argCount.toNat ≤ s.regs.outBound.toNat ∧
    readGroup (plainIn s) (actBS s) (s.regs.inCur.toNat + s.regs.inLen.toNat) s.regs.inCur.toNat = .ok g ∧
    s.regs.inCur.toNat + (1 + g.buckets.length + xlen (posWidth s) g.buckets) ≤ s.regs.inCur.toNat + s.regs.inLen.toNat ∧
    patch (plainIn s) s.regs.argCount.toNat g.b (posWidth s) (s.regs.inCur.toNat + 1 + g.buckets.length) g.buckets
      (outWords s s.regs.outCur.toNat s.regs.argCount.toNat) = .ok x :=
  ⟨issued .excPatch 4 3 3 [0x103#32, 0x201#32, 0x81#32, 0x3#32] [7#32, 0#32, 1#32] [],
   { d := 0x103#32, b := 3, buckets := [⟨1, 2⟩] }, [7#32, 8#32, 9#32], by decide +kernel⟩

theorem witness_HdrParseWritesTheTable : ∃ (s : State) (p : Header), s.mem.wf ∧ Ready s (parsePlan s) ∧
    readHeader (plainIn s) (actBS s) (actPS s) (s.regs.inCur.toNat + s.regs.inLen.toNat) s.regs.inCur.toNat = .ok p ∧
    s.regs.outCur.toNat + (3 + 3 * p.groups.length) ≤ s.regs.outBound.toNat :=
  ⟨issued .hdrParse 2 6 0 [0x107#32, 0#32] [] [], { h := 0x107#32, groups := [{ d := 0#32, b := 0, buckets := [] }] },
   by decide +kernel⟩

/-- ENCODE of `n` zeros at width 0 with one block a page. -/
def encodeIssued (n : Nat) : State :=
  { issued .encode n 2 0 [] [] [] with regs := { (issued .encode n 2 0 [] [] []).regs with actPageSize := 128#32 } }

/-- One page that ends the command, and the first of two. -/
theorem witness_EncodeWritesItsNextPage :
    ∀ n ∈ [128, 256], ∃ (s : State) (run : Run), Inv s ∧ s.regs.status.busy = true ∧ decode s.regs.cmd = .ok .encode ∧
      started s (encodePlan s) = .ok run ∧ Undisturbed s ((encodeUnits s).win run) ∧ s.regs.inLen.toNat = n ∧ actPS s / actBS s = 1 ∧
      run.k < s.regs.inLen.toNat / actBS s ∧ (tableWords s run.k 1).all validBW = true ∧ run.ocur + 2 ≤ s.regs.outBound.toNat ∧
      (encPage (actBS s) ((blocksOf (actBS s) 1 (inWords s run.icur (1 * actBS s))).zip
        ((tableWords s run.k 1).map fun w => field w 0 6))).length = 2 := by
  have h : ∀ n ∈ [128, 256], InvChecks (encodeIssued n) ∧ (encodeIssued n).regs.status.busy = true ∧
      decode (encodeIssued n).regs.cmd = .ok .encode ∧
      started (encodeIssued n) (encodePlan (encodeIssued n)) = .ok ⟨0, 0, 0, 0, 0⟩ ∧
      Undisturbed (encodeIssued n) ((encodeUnits (encodeIssued n)).win ⟨0, 0, 0, 0, 0⟩) ∧ (encodeIssued n).regs.inLen.toNat = n ∧
      actPS (encodeIssued n) / actBS (encodeIssued n) = 1 ∧ 0 < (encodeIssued n).regs.inLen.toNat / actBS (encodeIssued n) ∧
      (tableWords (encodeIssued n) 0 1).all validBW = true ∧ 0 + 2 ≤ (encodeIssued n).regs.outBound.toNat ∧
      (encPage (actBS (encodeIssued n)) ((blocksOf (actBS (encodeIssued n)) 1
        (inWords (encodeIssued n) 0 (1 * actBS (encodeIssued n)))).zip
        ((tableWords (encodeIssued n) 0 1).map fun w => field w 0 6))).length = 2 := by decide +kernel
  exact fun n hn => ⟨encodeIssued n, ⟨0, 0, 0, 0, 0⟩, inv_of_checks (h n hn).1, (h n hn).2⟩

theorem witness_DecodeWritesItsNextPage :
    ∃ (s : State) (run : Run) (p : Header) (blks : List (List Word)), Inv s ∧ s.regs.status.busy = true ∧ decode s.regs.cmd = .ok .decode ∧
      started s (decodePlan s) = .ok run ∧ Undisturbed s ((decodeUnits s).win run) ∧ run.icur < run.icur0 + s.regs.inLen.toNat ∧
      readHeader (plainIn s) (actBS s) (actPS s) (run.icur0 + s.regs.inLen.toNat) run.icur = .ok p ∧
      run.ocur + p.groups.length * actBS s ≤ s.regs.outBound.toNat ∧ blks.length = p.groups.length ∧
      ∀ (i : Nat) (g : Group) (o : Nat) (x : List Word), p.groups[i]? = some g → (p.offsets (actBS s))[i]? = some o →
        blks[i]? = some x → decodeBlock (plainIn s) (actBS s) (run.icur + o) g = .ok x := by
  let s := issued .decode 2 128 0 [0x107#32, 0#32] [] []
  refine ⟨s, issueRun s, { h := 0x107#32, groups := [{ d := 0#32, b := 0, buckets := [] }] }, [List.replicate 128 0#32],
    inv_of_checks (by decide +kernel), by decide +kernel, by decide +kernel, by decide +kernel, by decide +kernel,
    by decide +kernel, by decide +kernel, by decide +kernel, rfl, ?_⟩
  intro i g o x hg ho hx
  cases i with
  | zero => cases hg; cases ho; cases hx; decide +kernel
  | succ i => cases hg

theorem witness_EncodeAndDecodeOfNothingFinish :
    (∃ (s : State), s.scratch.run = none ∧ prologue s (encodePlan s) = none ∧ s.regs.inLen.toNat < actBS s) ∧
    (∃ (s : State), s.scratch.run = none ∧ prologue s (decodePlan s) = none ∧ s.regs.inLen = 0#32) :=
  ⟨⟨issued .encode 127 0 0 [] [] [], by decide +kernel⟩, ⟨issued .decode 0 0 0 [] [] [], by decide +kernel⟩⟩

theorem witness_UnpackReadsValueByValue :
    (∃ (words : List Word) (n : Nat) (w : Nat) (i : Nat), i < (unpack words n w).length ∧ w = 0 ∧ packedLen n w ≤ words.length) ∧
    (∃ (words : List Word) (n : Nat) (w : Nat) (i : Nat), i < (unpack words n w).length ∧ w ≤ 32 ∧ packedLen n w ≤ words.length ∧ 0 < w ∧ i * w % 32 + w ≤ 32) ∧
    (∃ (words : List Word) (n : Nat) (w : Nat) (i : Nat), i < (unpack words n w).length ∧ w ≤ 32 ∧ packedLen n w ≤ words.length ∧ 32 < i * w % 32 + w) :=
  ⟨⟨[], 1, 0, 0, by decide⟩, ⟨[1#32], 1, 32, 0, by decide⟩, ⟨[1#32, 2#32], 7, 5, 6, by decide⟩⟩

theorem witness_PackingPairLaws :
    (List.replicate 32 1#32).length = 32 * 1 ∧ [0x39#32].length = packedLen 3 2 ∧ wordStream [0x39#32] < 2 ^ (3 * 2) := by
  decide +kernel

theorem witness_ValuesRebuildFromTheirParts : (4 ≤ 32) ∧ 4 < bits 0xFFFFFFFF#32 := by decide +kernel

theorem witness_DeltasRebuildThePositions :
    128 ∈ [128, 256, 512] ∧ [0, 1, 127].Pairwise (· < ·) ∧ ∀ p ∈ [0, 1, 127], p < 128 := by decide

/-- All positions inside the block, and the last just past it. -/
theorem witness_PatchOrsIntoTheSlots :
    let sumTo := fun (es : List (Word × Word)) k => ((es.take (k + 1)).map fun y => y.1.toNat).sum
    (∀ k, k < [(1#32, 1#32), (1#32, 1#32)].length → sumTo [(1#32, 1#32), (1#32, 1#32)] k < 3) ∧
    (1 < [(1#32, 1#32), (1#32, 1#32)].length ∧ 2 ≤ sumTo [(1#32, 1#32), (1#32, 1#32)] 1 ∧
      ∀ j, j < 1 → sumTo [(1#32, 1#32), (1#32, 1#32)] j < 2) := by
  refine ⟨?_, by decide, by decide, ?_⟩ <;> decide

theorem witness_HeaderWordsHoldTheirFields :
    (32 ≤ 32 ∧ 0 ≤ 32 - 32) ∧ (512 ∈ [128, 256, 512] ∧ 0 ≤ 32 ∧ 1 ≤ 32 ∧ 32 ≤ 32 - 0 ∧ 1 ≤ 512 ∧ 512 ≤ 512) ∧
    (legalConfig 128 0x7FFFFF80 ∧ 1 ≤ 16777215 ∧ 16777215 ≤ 0x7FFFFF80 / 128) ∧
    validD 0x20#32 = true ∧ validB 512 0x20001#32 31 = true ∧ validH0 512 1024 0x209#32 = true := by decide +kernel

/-- A reader of the words of a list, 0 past its end. -/
def listReader (ws : List Word) (i : Nat) : Except Raise Word := .ok (ws.getD i 0#32)

/-- One input per clause of R188: an empty window, a descriptor of width 33, a whole group, a group cut off by the window, a
bucket word of count 0. -/
theorem witness_DescriptorGroupsAreCheckedInOrder :
    (0 ≤ 0) ∧ (0 < 1 ∧ listReader [0x21#32] 0 = .ok 0x21#32 ∧ validD 0x21#32 = false) ∧
    (0 < 2 ∧ listReader [0x104#32, 0x11C#32] 0 = .ok 0x104#32 ∧ validD 0x104#32 = true ∧
      listReader [0x104#32, 0x11C#32] 1 = .ok 0x11C#32 ∧ validB 128 0x11C#32 (field 0x104#32 0 6) = true ∧
      [0x11C#32].length = field 0x104#32 8 6) ∧
    ([].length (α := Word) < field 0x104#32 8 6 ∧ 1 ≤ 0 + 1 + [].length (α := Word)) ∧
    (0 + 1 + [].length (α := Word) < 2 ∧ listReader [0x104#32, 0x1C#32] 1 = .ok 0x1C#32 ∧
      validB 128 0x1C#32 (field 0x104#32 0 6) = false) := by decide +kernel

theorem listReader_holds (ws : List Word) : Holds (listReader ws) 0 ws := fun k h => by simp [listReader, h]

theorem witness_BlockRoundTrip : ∃ (bs b wend j : Nat) (vals : List Word) (rd : Nat → Except Raise Word),
    bs ∈ [128, 256, 512] ∧ b ≤ 32 ∧ vals.length ≤ bs ∧ Holds rd j (record bs.log2 vals b) ∧
      j + (record bs.log2 vals b).length ≤ wend :=
  ⟨128, 3, 4, 0, [7#32, 8#32, 9#32], listReader _, by decide, by decide, by decide, listReader_holds _, by decide +kernel⟩

theorem witness_PageRoundTrip :
    ∃ (bs ps wend j : Nat) (blks : List (List Word × Nat)) (rd : Nat → Except Raise Word), legalConfig bs ps ∧
      1 ≤ blks.length ∧ blks.length ≤ ps / bs ∧ (∀ x ∈ blks, x.1.length = bs ∧ x.2 ≤ 32) ∧
      Holds rd j (encPage bs blks) ∧ j + (encPage bs blks).length ≤ wend :=
  ⟨128, 128, 2, 0, [(List.replicate 128 0#32, 0)], listReader _, by decide +kernel, by decide, by decide, by decide +kernel,
   listReader_holds _, by decide +kernel⟩

theorem witness_DecodeRestoresWhatEncodeConsumed :
    ∃ (s t u : State) (m : Nat), Inv s ∧ s.regs.status.busy = true ∧ decode s.regs.cmd = .ok .encode ∧ s.scratch.run = none ∧
      s.host = [] ∧ Undisturbed s (encodePlan s).toWindows ∧ Host.Core.run Sys2Proof.core m s = .next t ∧
      t.regs.status.done = true ∧ Inv u ∧ u.regs.status.busy = true ∧ decode u.regs.cmd = .ok .decode ∧ u.scratch.run = none ∧
      u.host = [] ∧ Undisturbed u (decodePlan u).toWindows ∧ prologue u (decodePlan u) = none ∧ actBS u = actBS s ∧
      actPS u = actPS s ∧ u.regs.inLen.toNat = t.regs.outCur.toNat - s.regs.outCur.toNat ∧
      inWords u u.regs.inCur.toNat (t.regs.outCur.toNat - s.regs.outCur.toNat) =
        outWords t s.regs.outCur.toNat (t.regs.outCur.toNat - s.regs.outCur.toNat) ∧
      u.regs.outCur.toNat + s.regs.inLen.toNat / actBS s * actBS s ≤ u.regs.outBound.toNat := by
  let s := issued .encode 128 64 0 [] [] []
  let u := issued .decode 2 128 0 [0x107#32, 0#32] [] []
  exact ⟨s, stepped s, u, 1, inv_of_checks (by decide +kernel), by decide +kernel, by decide +kernel, rfl, rfl, by decide +kernel, run_one (step_stepped rfl),
    by decide +kernel, inv_of_checks (by decide +kernel), by decide +kernel, by decide +kernel, rfl, rfl, by decide +kernel,
    by decide +kernel, rfl, rfl, by decide +kernel, by decide +kernel, by decide +kernel⟩

theorem witness_EncodeDependsOnItsOperandsOnly :
    ∃ (s t : State) (run : Run), Inv s ∧ s.regs.status.busy = true ∧ decode s.regs.cmd = .ok .encode ∧
      started s (encodePlan s) = .ok run ∧ Undisturbed s ((encodeUnits s).win run) ∧ run.k < s.regs.inLen.toNat / actBS s ∧
      exec .encode s = .next t ∧ t.regs.status.err = false := by
  let s := issued .encode 128 64 0 [] [] []
  exact ⟨s, stepped s, issueRun s, inv_of_checks (by decide +kernel), by decide +kernel, by decide +kernel, by decide +kernel,
    by decide +kernel, by decide +kernel, exec_stepped rfl rfl (by decide +kernel), by decide +kernel⟩

theorem witness_BlockWithoutExceptionsHasNoSideStream :
    128 ∈ [128, 256, 512] ∧ (List.replicate 128 127#32).length = 128 ∧ 7 ≤ 32 ∧ ∀ v ∈ List.replicate 128 127#32, bits v ≤ 7 :=
  ⟨by decide, List.length_replicate .., by decide, fun v hv => by rw [List.eq_of_mem_replicate hv]; decide +kernel⟩

theorem witness_WordsAreStoredLittleEndian : Memory.wf [(8, 0x11#8)] := by decide

theorem witness_PackPlacesEveryBit : 5 ≤ 32 ∧ 1 < (pack (List.replicate 7 0x1F#32) 5).length := by decide +kernel

theorem witness_BucketsPartitionTheExceptions : 3 ≤ 32 ∧ (buckets [7#32, 8#32, 9#32] 3).length = 1 := by decide +kernel

end Sys2Proof.Tests
end

section
/-! The value functions: `bits` (R12). -/

namespace Sys2Proof.Machine

@[simp] theorem bits_zero : bits 0#32 = 0 := rfl

/-- R12: a value fits `w` bits exactly when its true bit width is at most `w`. -/
theorem bits_le_iff (v : Word) (w : Nat) : bits v ≤ w ↔ v.toNat < 2 ^ w := by
  unfold bits
  split
  case isTrue hzero => simp [hzero]
  case isFalse hne => exact Nat.succ_le_iff.trans (Nat.log2_lt hne)

theorem lt_bits_iff (v : Word) (w : Nat) : w < bits v ↔ 2 ^ w ≤ v.toNat := by
  simpa using (bits_le_iff v w).not

theorem bits_le_32 (v : Word) : bits v ≤ 32 := (bits_le_iff v 32).2 v.isLt

theorem toNat_lt_two_pow_bits (v : Word) : v.toNat < 2 ^ bits v := (bits_le_iff v _).1 le_rfl

theorem bits_pos_iff (v : Word) : 0 < bits v ↔ v ≠ 0#32 := by
  rw [lt_bits_iff, pow_zero, Nat.one_le_iff_ne_zero, ← BitVec.toNat_ne_iff_ne, BitVec.toNat_zero]

theorem two_pow_pred_bits_le_toNat {v : Word} (hpos : 0 < bits v) : 2 ^ (bits v - 1) ≤ v.toNat :=
  (lt_bits_iff v _).1 (Nat.sub_one_lt_of_lt hpos)

/-- Settles O45: each bound is `bits_le_iff` read at one width. -/
theorem bitsIsTheLeastWidth : Obligations.BitsIsTheLeastWidth := by
  intro v
  refine ⟨bits_le_32 v, ?zero, ?nonzero, toNat_lt_two_pow_bits v⟩
  case zero =>
    rintro rfl
    exact bits_zero
  case nonzero =>
    intro hne
    have hpos : 0 < bits v := (bits_pos_iff v).2 hne
    exact ⟨two_pow_pred_bits_le_toNat hpos, hpos⟩

end Sys2Proof.Machine
end

section
/-! The register write port (R31, R32, R53): what a word write in the register window does to the machine. -/

namespace Sys2Proof.Machine

/-! ### The register map (R31) -/

theorem Reg.offset_of_at {off : Nat} {r : Reg} (hat : Reg.at off = some r) : r.offset = off := by
  simpa using List.find?_some hat

/-- R31: no two registers share an offset. -/
@[simp] theorem Reg.at_offset (r : Reg) : Reg.at r.offset = some r := by cases r <;> rfl

theorem Reg.offset_lt (r : Reg) : r.offset < 256 := by cases r <;> decide

theorem Reg.offset_mod_four (r : Reg) : r.offset % 4 = 0 := by cases r <;> rfl

theorem windowOffset_regBase_add (p : Platform) {off : Nat} (hlt : off < 256) :
    windowOffset p (p.regBase + off) = some off := by
  simp [windowOffset, hlt]

@[simp] theorem resetEngine_regs (s : State) : (resetEngine s).regs = Regs.reset := rfl

/-- R53: the registers open while BUSY=1 are CTRL, STATUS and IRQ_EN. -/
theorem Reg.offset_mem_of_openWhileBusy {r : Reg} (hopen : r.openWhileBusy = true) : r.offset ∈ [0x08, 0x0C, 0x10] := by
  cases r
  case ctrl | status | irqEn => decide
  all_goals cases hopen

theorem Reg.at_closed_of_offset {off : Nat} (hoff : off ∉ [0x08, 0x0C, 0x10]) :
    (Reg.at off).any Reg.openWhileBusy = false := by
  refine (Option.any_eq_false _ _).2 fun r hat => Bool.eq_false_iff.2 fun hopen => ?_
  exact hoff (Reg.offset_of_at hat ▸ Reg.offset_mem_of_openWhileBusy hopen)

/-! ### The two ways of a write at an offset (R53) -/

/-- A register takes a write while no command runs, and always where it is open while BUSY=1. -/
theorem regWriteAt_accepted {s : State} {r : Reg} (v : Word)
    (hopen : s.regs.status.busy = false ∨ r.openWhileBusy = true) : regWriteAt r.offset v s = r.write v s := by
  rcases hopen with hidle | hopen
  · simp [regWriteAt, hidle]
  · simp [regWriteAt, hopen]

theorem regWriteAt_dropped {s : State} {off : Nat} (v : Word) (hbusy : s.regs.status.busy = true)
    (hoff : off ∉ [0x08, 0x0C, 0x10]) :
    regWriteAt off v s = { s with regs := { s.regs with status := s.regs.status.dropped } } := by
  simp [regWriteAt, hbusy, Reg.at_closed_of_offset hoff]

/-! ### The step of a write -/

section
variable {s : State} {off : Nat} {r : Reg} {v : Word} {es : List HostEvent}

theorem step_of_regWrite {addr : Nat} {width : AccessWidth} (hhost : s.host = .regWrite addr width v :: es) :
    step s = .next (regWrite addr width v { s with host := es }) := by
  simp only [step, hhost, hostMove]

theorem step_of_wordWrite (hhost : s.host = .regWrite (s.plat.regBase + off) .word v :: es) (hlt : off < 256)
    (halign : off % 4 = 0) : step s = .next { regWriteAt off v { s with host := es } with reply := .ack } := by
  simp [step_of_regWrite hhost, regWrite, windowOffset_regBase_add _ hlt, goodAccess, halign]

theorem step_of_accepted_write (hhost : s.host = wr s.plat r v :: es)
    (hopen : s.regs.status.busy = false ∨ r.openWhileBusy = true) :
    step s = .next { r.write v { s with host := es } with reply := .ack } := by
  rw [step_of_wordWrite hhost r.offset_lt r.offset_mod_four, regWriteAt_accepted (s := { s with host := es }) v hopen]

theorem step_of_dropped_write (hhost : s.host = .regWrite (s.plat.regBase + off) .word v :: es) (hlt : off < 256)
    (halign : off % 4 = 0) (hbusy : s.regs.status.busy = true) (hoff : off ∉ [0x08, 0x0C, 0x10]) :
    step s = .next { s with
      host := es, reply := .ack, regs := { s.regs with status := { s.regs.status with wbusy := true } } } := by
  rw [step_of_wordWrite hhost hlt halign, regWriteAt_dropped (s := { s with host := es }) v hbusy hoff]
  rfl

end

/-! ### CTRL, STATUS and CMD -/

theorem write_ctrl_of_reset {s : State} {v : Word} (hreset : v.getLsbD 0 = true) : Reg.write v s .ctrl = resetEngine s :=
  if_pos hreset

/-- R35: only SOFT_RESET acts. -/
theorem write_ctrl_of_not_reset {s : State} {v : Word} (hkeep : ¬v.getLsbD 0 = true) : Reg.write v s .ctrl = s :=
  if_neg hkeep

/-- R37, flag by flag. -/
theorem ackWrite_eq_ite (t : Status) (v : Word) : t.ackWrite v = { t with
    done := if v.getLsbD 1 then false else t.done
    err := if v.getLsbD 2 then false else t.err
    wbusy := if v.getLsbD 3 then false else t.wbusy } := by
  simp [Status.ackWrite, Bool.if_false_left, Bool.and_comm]

/-- Settles O5: STATUS is open while BUSY=1, so the write is taken in every state. -/
theorem statusWriteClearsOnlyItsFlags : Obligations.StatusWriteClearsOnlyItsFlags := by
  intro s v es hhost
  rw [step_of_accepted_write hhost (.inr rfl), Reg.write, ackWrite_eq_ite]

/-- R39: LAST_OP is the low byte of the command word. -/
theorem issue_eq_lowByte (t : Status) (w : Word) : t.issue w = { t with
    busy := true, done := false, err := false, errKind := none, lastOp := BitVec.ofNat 8 (w.toNat % 256) } := by
  have hlow : w.extractLsb' 0 8 = BitVec.ofNat 8 (w.toNat % 256) := by
    apply BitVec.eq_of_toNat_eq
    simp
  rw [Status.issue, hlow]

theorem step_of_running_command {s : State} {i : Instr} (hhost : s.host = []) (hbusy : s.regs.status.busy = true)
    (hcmd : decode s.regs.cmd = .ok i) : step s = exec i s := by
  simp [step_of_no_event hhost, engineMove, hbusy, hcmd]

/-- Settles O6: the accepted write is `issue`, and the write while BUSY=1 is dropped as at every closed offset. -/
theorem cmdWriteIssuesTheCommand : Obligations.CmdWriteIssuesTheCommand := by
  refine ⟨rfl, fun s w es hhost => ⟨?accepted, ?ignored⟩⟩
  case accepted =>
    intro hidle
    refine ⟨_, step_of_accepted_write hhost (.inl hidle), rfl, rfl, rfl, rfl, rfl, ?regs, ?runs⟩
    case regs => simp [Reg.write, issue_eq_lowByte]
    case runs =>
      intro hnone i hdecode
      exact step_of_running_command hnone rfl hdecode
  case ignored =>
    intro hbusy
    exact ⟨_, step_of_dropped_write hhost (by decide) rfl hbusy (by decide), rfl⟩

/-- Settles O7: the three open registers take their write, every other offset is closed. -/
theorem writesWhileBusyAreDropped : Obligations.WritesWhileBusyAreDropped := by
  intro s off v es hhost hlt halign hbusy
  refine ⟨?dropped, ?ctrl, ?status, ?irqEn⟩
  case dropped =>
    intro hoff
    exact ⟨_, step_of_dropped_write hhost hlt halign hbusy hoff, rfl⟩
  case ctrl =>
    rintro rfl
    refine ⟨_, step_of_accepted_write (r := .ctrl) hhost (.inr rfl), ?_⟩
    split
    case isTrue hreset => rw [write_ctrl_of_reset hreset]; rfl
    case isFalse hkeep => rw [write_ctrl_of_not_reset hkeep]
  case status =>
    rintro rfl
    exact step_of_accepted_write (r := .status) hhost (.inr rfl)
  case irqEn =>
    rintro rfl
    exact step_of_accepted_write (r := .irqEn) hhost (.inr rfl)

end Sys2Proof.Machine
end

section
/-! The command decoder (R111 to R113): the fields of a command word as numbers, what each check answers, and the engine's move on
a word that fails one. -/

namespace Sys2Proof.Machine

section
variable {w : Word}

/-! ### The fields of a command word (R111) -/

theorem cmdOpcode_toNat : (cmdOpcode w).toNat = w.toNat % 256 := by simp [cmdOpcode]

theorem cmdB_toNat : (cmdB w).toNat = w.toNat / 2 ^ 8 % 64 := by simp [cmdB, Nat.shiftRight_eq_div_pow]

theorem cmdRsv_toNat : (cmdRsv w).toNat = w.toNat / 2 ^ 14 := by
  have hfits : w.toNat / 2 ^ 14 < 2 ^ 18 := Nat.div_lt_of_lt_mul w.isLt
  rw [cmdRsv, BitVec.extractLsb'_toNat, Nat.shiftRight_eq_div_pow, Nat.mod_eq_of_lt hfits]

theorem cmdB_eq_zero_iff : cmdB w = 0#6 ↔ w.toNat / 2 ^ 8 % 64 = 0 := by
  rw [← BitVec.toNat_inj, cmdB_toNat, BitVec.toNat_zero]

theorem cmdRsv_eq_zero_iff : cmdRsv w = 0#18 ↔ w.toNat / 2 ^ 14 = 0 := by
  rw [← BitVec.toNat_inj, cmdRsv_toNat, BitVec.toNat_zero]

/-! ### The opcode map (R112) -/

theorem decode_of_unassignedOpcode
    (hop : w.toNat % 256 ∉ [0x00, 0x01, 0x10, 0x11, 0x20, 0x21, 0x30, 0x40, 0x41]) :
    decode w = .error .unassignedOpcode := by
  rw [← cmdOpcode_toNat] at hop
  unfold decode
  split
  case h_10 => rfl
  all_goals
    rename_i hcode
    simp [hcode] at hop

theorem decode_of_widthOpcode (hop : w.toNat % 256 ∈ [0x10, 0x11, 0x20]) : ∃ mk, decode w = decodeWidth w mk := by
  simp only [← cmdOpcode_toNat, List.mem_cons, List.not_mem_nil, or_false] at hop
  rcases hop with hop | hop | hop
  · exact ⟨.pack, by simp only [decode, hop]⟩
  · exact ⟨.unpack, by simp only [decode, hop]⟩
  · exact ⟨.excExtract, by simp only [decode, hop]⟩

theorem decode_of_plainOpcode (hop : w.toNat % 256 ∈ [0x00, 0x01, 0x21, 0x30, 0x40, 0x41]) :
    ∃ i, decode w = decodePlain w i := by
  simp only [← cmdOpcode_toNat, List.mem_cons, List.not_mem_nil, or_false] at hop
  rcases hop with hop | hop | hop | hop | hop | hop
  · exact ⟨.nop, by simp only [decode, hop]⟩
  · exact ⟨.config, by simp only [decode, hop]⟩
  · exact ⟨.excPatch, by simp only [decode, hop]⟩
  · exact ⟨.hdrParse, by simp only [decode, hop]⟩
  · exact ⟨.encode, by simp only [decode, hop]⟩
  · exact ⟨.decode, by simp only [decode, hop]⟩

/-! ### The checks of an assigned opcode (R113) -/

theorem decodeWidth_of_wide (mk : BitVec 6 → Instr) (hwide : 32 < w.toNat / 2 ^ 8 % 64) :
    decodeWidth w mk = .error .widthAbove32 := by
  rw [← cmdB_toNat] at hwide
  exact if_pos hwide

theorem decodeWidth_of_reserved (mk : BitVec 6 → Instr) (hlegal : w.toNat / 2 ^ 8 % 64 ≤ 32) (hrsv : w.toNat / 2 ^ 14 ≠ 0) :
    decodeWidth w mk = .error .reservedNonzero := by
  rw [← cmdB_toNat] at hlegal
  rw [Ne, ← cmdRsv_eq_zero_iff] at hrsv
  rw [decodeWidth, if_neg hlegal.not_gt, if_pos hrsv]

theorem decodeWidth_of_legal (mk : BitVec 6 → Instr) (hlegal : w.toNat / 2 ^ 8 % 64 ≤ 32) (hrsv : w.toNat / 2 ^ 14 = 0) :
    decodeWidth w mk = .ok (mk (cmdB w)) := by
  rw [← cmdB_toNat] at hlegal
  rw [← cmdRsv_eq_zero_iff] at hrsv
  rw [decodeWidth, if_neg hlegal.not_gt, if_neg (not_not_intro hrsv)]

theorem decodePlain_of_reserved (i : Instr) (hrsv : w.toNat / 2 ^ 14 ≠ 0 ∨ w.toNat / 2 ^ 8 % 64 ≠ 0) :
    decodePlain w i = .error .reservedNonzero := by
  rw [Ne, Ne, ← cmdRsv_eq_zero_iff, ← cmdB_eq_zero_iff] at hrsv
  exact if_pos hrsv

theorem decodePlain_of_legal (i : Instr) (hrsv : w.toNat / 2 ^ 14 = 0) (hb : w.toNat / 2 ^ 8 % 64 = 0) :
    decodePlain w i = .ok i := by
  rw [← cmdRsv_eq_zero_iff] at hrsv
  rw [← cmdB_eq_zero_iff] at hb
  rw [decodePlain, if_neg (by simp [hrsv, hb])]

end

/-! ### The step on an illegal command word (R113, R252) -/

theorem reports_raiseError (r : Raise) (s : State) : Reports s (.next (raiseError r s)) r.kind r.detail r.index :=
  ⟨_, rfl, rfl, rfl, rfl, rfl, rfl, rfl⟩

theorem reports_of_illegal_command {s : State} {e : Illegal} (hhost : s.host = []) (hbusy : s.regs.status.busy = true)
    (hcmd : decode s.regs.cmd = .error e) : Reports s (step s) .illegalCommand (illegalDetail e) 0 := by
  have hstep : step s = .next (raiseError (illegalRaise e) s) := by
    simp [step_of_no_event hhost, engineMove, hbusy, hcmd]
  rw [hstep]
  exact reports_raiseError (illegalRaise e) s

/-- Settles O13: the opcode chooses the checks of `decodeWidth` or `decodePlain`, and the first that fails is the detail. -/
theorem illegalCommandIsReported : Obligations.IllegalCommandIsReported := by
  intro s hhost hbusy
  refine ⟨?unassigned, ?wide, ?widthReserved, ?plainReserved, ?legal⟩
  case unassigned =>
    intro hop
    exact reports_of_illegal_command hhost hbusy (decode_of_unassignedOpcode hop)
  case wide =>
    intro hop hwide
    obtain ⟨mk, hdecode⟩ := decode_of_widthOpcode hop
    exact reports_of_illegal_command hhost hbusy (hdecode.trans (decodeWidth_of_wide mk hwide))
  case widthReserved =>
    intro hop hlegal hrsv
    obtain ⟨mk, hdecode⟩ := decode_of_widthOpcode hop
    exact reports_of_illegal_command hhost hbusy (hdecode.trans (decodeWidth_of_reserved mk hlegal hrsv))
  case plainReserved =>
    intro hop hrsv
    obtain ⟨i, hdecode⟩ := decode_of_plainOpcode hop
    exact reports_of_illegal_command hhost hbusy (hdecode.trans (decodePlain_of_reserved i hrsv))
  case legal =>
    rintro (⟨hop, hlegal, hrsv⟩ | ⟨hop, hrsv, hb⟩)
    · obtain ⟨mk, hdecode⟩ := decode_of_widthOpcode hop
      have hok := hdecode.trans (decodeWidth_of_legal mk hlegal hrsv)
      exact ⟨_, hok, step_of_running_command hhost hbusy hok⟩
    · obtain ⟨i, hdecode⟩ := decode_of_plainOpcode hop
      have hok := hdecode.trans (decodePlain_of_legal i hrsv hb)
      exact ⟨_, hok, step_of_running_command hhost hbusy hok⟩

end Sys2Proof.Machine
end

section
/-! The control commands (40_control.md): the command words of NOP and CONFIG, and what each does to the machine. -/

namespace Sys2Proof.Machine

/-! ### A command without an operand is its opcode (R113, R116) -/

/-- R111: OPCODE, B and RSV are all of a command word. -/
theorem eq_opcode_iff {w : Word} {op : Nat} (hop : w.toNat % 256 = op) :
    w = BitVec.ofNat 32 op ↔ w.toNat / 2 ^ 14 = 0 ∧ w.toNat / 2 ^ 8 % 64 = 0 := by
  rw [← BitVec.toNat_inj, BitVec.toNat_ofNat]
  omega

theorem decodePlain_of_opcode {w : Word} {op : Nat} (i : Instr) (hop : w.toNat % 256 = op) :
    decodePlain w i = if w = BitVec.ofNat 32 op then .ok i else .error .reservedNonzero := by
  split
  case isTrue hword =>
    obtain ⟨hrsv, hb⟩ := (eq_opcode_iff hop).1 hword
    exact decodePlain_of_legal i hrsv hb
  case isFalse hword =>
    rw [eq_opcode_iff hop] at hword
    exact decodePlain_of_reserved i (not_and_or.1 hword)

theorem decode_of_nopOpcode {w : Word} (hop : w.toNat % 256 = 0) : decode w = decodePlain w .nop := by
  simp only [decode, cmdOpcode_toNat, hop]

theorem decode_of_configOpcode {w : Word} (hop : w.toNat % 256 = 1) : decode w = decodePlain w .config := by
  simp only [decode, cmdOpcode_toNat, hop]

/-! ### NOP (R150) -/

/-- Settles O33: the command word is its opcode, and the move is `finish`. -/
theorem nopOnlyFinishes : Obligations.NopOnlyFinishes := by
  refine ⟨fun w hop => ?word, fun s => ?finishes⟩
  case word => exact (decode_of_nopOpcode hop).trans (decodePlain_of_opcode .nop hop)
  case finishes => exact ⟨finish s, rfl, finish_regs s, finish_mem s, finish_plat s, finish_host s, finish_reply s⟩

/-! ### The checks of CONFIG (R151) -/

section
variable {bs ps : Nat}

theorem configError_of_illegal_blockSize (hbs : bs ∉ Config.blockSizes) :
    configError bs ps = some { kind := .invalidConfiguration, detail := 1, index := bs } := by
  simp [configError, hbs]

theorem configError_of_illegal_pageSize (hbs : bs ∈ Config.blockSizes) (hps : ps = 0 ∨ ps % bs ≠ 0) :
    configError bs ps = some { kind := .invalidConfiguration, detail := 2, index := ps } := by
  simp [configError, hbs, hps]

theorem configError_of_too_many_blocks (hbs : bs ∈ Config.blockSizes) (hps : ¬(ps = 0 ∨ ps % bs ≠ 0))
    (hmany : Config.maxPageBlocks < ps / bs) :
    configError bs ps = some { kind := .invalidConfiguration, detail := 3, index := ps } := by
  simp [configError, hbs, hps, hmany]

theorem configError_of_legal (hbs : bs ∈ Config.blockSizes) (hps : ¬(ps = 0 ∨ ps % bs ≠ 0))
    (hfew : ¬Config.maxPageBlocks < ps / bs) : configError bs ps = none := by
  simp [configError, hbs, hps, hfew]

end

/-! ### CONFIG (R151) -/

section
variable {s : State}

theorem exec_config_reports {r : Raise} (herr : configError s.regs.cfgBlockSize.toNat s.regs.cfgPageSize.toNat = some r) :
    Reports s (exec .config s) r.kind r.detail r.index := by
  have hexec : exec .config s = .next (raiseError r s) := by simp only [exec, execConfig, herr]
  rw [hexec]
  exact reports_raiseError r s

theorem exec_config_installs (hok : configError s.regs.cfgBlockSize.toNat s.regs.cfgPageSize.toNat = none) :
    exec .config s = .next (finish (installConfig s)) := by
  simp only [exec, execConfig, hok]

end

/-- Settles O34: the first check that fails is the one reported, and with none failing the move is `installConfig` and `finish`. -/
theorem configChecksThenInstalls : Obligations.ConfigChecksThenInstalls := by
  refine ⟨fun w hop => (decode_of_configOpcode hop).trans (decodePlain_of_opcode .config hop), ?_⟩
  intro s bs ps c1 c2 c3
  have hc1 : c1 ↔ bs ∉ Config.blockSizes := by simp [c1, Config.blockSizes]
  rw [hc1, not_not]
  refine ⟨?blockSize, ?pageSize, ?pageBlocks, ?installs⟩
  case blockSize =>
    intro hbs
    exact exec_config_reports (configError_of_illegal_blockSize hbs)
  case pageSize =>
    intro hbs hps
    exact exec_config_reports (configError_of_illegal_pageSize hbs hps)
  case pageBlocks =>
    intro hbs hps hmany
    exact exec_config_reports (configError_of_too_many_blocks hbs hps hmany)
  case installs =>
    intro hbs hps hfew
    exact ⟨_, exec_config_installs (configError_of_legal hbs hps hfew), rfl, rfl, rfl, rfl, rfl⟩

end Sys2Proof.Machine
end

section
/-! The packing law (R160, R161, R162): the bits of a packed stream, of a stream of words, and of the values read from one. -/

namespace Sys2Proof.Machine

/-! ### Bits of a packed stream -/

theorem testBit_trunc (v : Word) {w j : Nat} (hj : j < w) : (trunc v w).testBit j = v.getLsbD j := by
  simp [trunc, Nat.testBit_mod_two_pow, hj, BitVec.getLsbD]

@[simp] theorem trunc_32 (v : Word) : trunc v 32 = v.toNat := Nat.mod_eq_of_lt v.isLt

/-- R160: stream bit `i` is bit `i mod w` of value `i / w`, and 0 past the last value. -/
theorem testBit_packStream (w : Nat) (vals : List Word) (i : Nat) :
    (packStream w vals).testBit i =
      if i < vals.length * w then (vals.getD (i / w) 0#32).getLsbD (i % w) else false := by
  split
  case isTrue hin =>
    have hw : 0 < w := Nat.pos_of_lt_mul_left hin
    have hval : i / w < vals.length := (Nat.div_lt_iff_lt_mul hw).2 hin
    have hbit : i % w < w := Nat.mod_lt i hw
    calc (packStream w vals).testBit i
        = ((packStream w vals >>> (i / w * w)) % 2 ^ w).testBit (i % w) := by
          simp [Nat.testBit_mod_two_pow, hbit, Nat.div_add_mod']
      _ = (trunc vals[i / w] w).testBit (i % w) := by rw [packStream_digit w vals _ hval]
      _ = (vals.getD (i / w) 0#32).getLsbD (i % w) := by
          rw [testBit_trunc _ hbit, List.getD_eq_getElem _ _ hval]
  case isFalse hout =>
    exact Nat.testBit_lt_two_pow <|
      (packStream_lt w vals).trans_le (Nat.pow_le_pow_right Nat.two_pos (not_lt.1 hout))

/-- R160: bit `j` of word `k` is stream bit `32*k + j`. -/
theorem getLsbD_pack {vals : List Word} {w k j : Nat} (hk : k < (pack vals w).length) (hj : j < 32) :
    (pack vals w)[k].getLsbD j = (packStream w vals).testBit (32 * k + j) := by
  simp only [pack, List.getElem_map, List.getElem_range, BitVec.getLsbD_ofNat]
  simp [hj]

/-- Settles O46: a word's bit is a stream bit (`getLsbD_pack`), and a stream bit is a value's bit (`testBit_packStream`). -/
theorem packPlacesEveryBit : Obligations.PackPlacesEveryBit := by
  intro vals w _
  refine ⟨pack_length vals w, fun k j hk hj => ?_⟩
  rw [getLsbD_pack hk hj, testBit_packStream]

/-! ### Bits of a stream of words -/

/-- R161's stream is R160's at the width of a word. -/
theorem wordStream_eq_packStream (ws : List Word) : wordStream ws = packStream 32 ws := by
  induction ws with
  | nil => rfl
  | cons x xs ih => rw [wordStream_cons, packStream, trunc_32, ih]

theorem testBit_wordStream (ws : List Word) (i : Nat) :
    (wordStream ws).testBit i = (ws.getD (i / 32) 0#32).getLsbD (i % 32) := by
  rw [wordStream_eq_packStream, testBit_packStream]
  split
  case isTrue => rfl
  case isFalse hout =>
    have hpast : ws.length ≤ i / 32 := by omega
    simp [List.getElem?_eq_none hpast]

/-! ### Bits of a value read (R161) -/

theorem toNat_getElem_unpack (words : List Word) {n w i : Nat} (hw : w ≤ 32) (hi : i < (unpack words n w).length) :
    (unpack words n w)[i].toNat = (wordStream (words.take (packedLen n w)) >>> (i * w)) % 2 ^ w := by
  have hlt : (wordStream (words.take (packedLen n w)) >>> (i * w)) % 2 ^ w < 2 ^ 32 :=
    (Nat.mod_lt _ (Nat.two_pow_pos w)).trans_le (Nat.pow_le_pow_right Nat.two_pos hw)
  simpa [unpack] using Nat.mod_eq_of_lt hlt

theorem getLsbD_unpack (words : List Word) {n w i j : Nat} (hw : w ≤ 32) (hi : i < (unpack words n w).length) (hj : j < w) :
    (unpack words n w)[i].getLsbD j = (wordStream (words.take (packedLen n w))).testBit (i * w + j) := by
  rw [BitVec.getLsbD, toNat_getElem_unpack words hw hi]
  simp [Nat.testBit_mod_two_pow, hj]

/-- The stream bits of value `i` lie in the words that are read. -/
theorem div_lt_packedLen {n w i j : Nat} (hi : i < n) (hj : j < w) : (i * w + j) / 32 < packedLen n w := by
  have hnext : (i + 1) * w ≤ n * w := Nat.mul_le_mul_right w hi
  have hfit := le_packedLen n w
  rw [Nat.succ_mul] at hnext
  omega

/-- R161, bit by bit: value `i` reads stream bits `[i*w, i*w + w)`. -/
theorem getLsbD_unpack_eq_word (words : List Word) {n w i j : Nat} (hw : w ≤ 32) (hi : i < (unpack words n w).length)
    (hj : j < w) :
    (unpack words n w)[i].getLsbD j = (words.getD ((i * w + j) / 32) 0#32).getLsbD ((i * w + j) % 32) := by
  have hread : (i * w + j) / 32 < packedLen n w := div_lt_packedLen (by simpa using hi) hj
  rw [getLsbD_unpack words hw hi hj, testBit_wordStream, List.getD_eq_getElem?_getD, List.getElem?_take_of_lt hread,
    ← List.getD_eq_getElem?_getD]

theorem toNat_getElem_unpack_eq_mod (words : List Word) {n w i m : Nat} (hw : w ≤ 32) (hi : i < (unpack words n w).length)
    (hbits : ∀ j < w, (words.getD ((i * w + j) / 32) 0#32).getLsbD ((i * w + j) % 32) = m.testBit j) :
    (unpack words n w)[i].toNat = m % 2 ^ w := by
  refine Nat.eq_of_testBit_eq fun j => ?_
  by_cases hj : j < w
  · rw [← BitVec.getLsbD, getLsbD_unpack_eq_word words hw hi hj, hbits j hj]
    simp [Nat.testBit_mod_two_pow, hj]
  · rw [toNat_getElem_unpack words hw hi]
    simp [Nat.testBit_mod_two_pow, hj]

/-- Settles O47: each bit of a value stands in a word of the run (`getLsbD_unpack_eq_word`), its first or the next. -/
theorem unpackReadsValueByValue : Obligations.UnpackReadsValueByValue := by
  intro words n w hw _
  refine ⟨unpack_length words n w, fun i hi => ?_⟩
  intro q r lo hi'
  have hfirst : ∀ j, r + j < 32 →
      (words.getD ((i * w + j) / 32) 0#32).getLsbD ((i * w + j) % 32) = lo.testBit (r + j) := fun j hj => by
    have hword : (i * w + j) / 32 = q := by omega
    have hbit : (i * w + j) % 32 = r + j := by omega
    rw [hword, hbit, BitVec.getLsbD]
  refine ⟨?noBits, ?oneWord, ?twoWords⟩
  case noBits =>
    rintro rfl
    rw [← BitVec.toNat_inj, toNat_getElem_unpack words hw hi]
    exact Nat.mod_one _
  case oneWord =>
    intro _ hfit
    refine toNat_getElem_unpack_eq_mod words hw hi fun j hj => ?_
    rw [hfirst j (by omega), Nat.testBit_shiftRight]
  case twoWords =>
    intro hsplit
    refine toNat_getElem_unpack_eq_mod words hw hi fun j hj => ?_
    rw [Nat.testBit_or, Nat.testBit_shiftRight, Nat.testBit_shiftLeft]
    by_cases hlow : r + j < 32
    · have hbefore : ¬32 - r ≤ j := by omega
      rw [hfirst j hlow]
      simp [hbefore]
    · have hword : (i * w + j) / 32 = q + 1 := by omega
      have hbit : (i * w + j) % 32 = j - (32 - r) := by omega
      have hnext : 32 - r ≤ j := by omega
      have hpast : lo.testBit (r + j) = false := BitVec.getLsbD_of_ge _ _ (not_lt.1 hlow)
      rw [hword, hbit, hpast]
      simp [hnext, hi', BitVec.getLsbD]

/-! ### The laws of the pair (R162) -/

@[simp] theorem packedLen_32 (n : Nat) : packedLen n 32 = n := by
  simp only [packedLen]; omega

theorem unpack_pack (vals : List Word) (w : Nat) :
    unpack (pack vals w) vals.length w = vals.map fun v => BitVec.ofNat 32 (trunc v w) :=
  List.ext_getElem (by simp) fun i _ hi => by
    rw [unpack_pack_getElem vals w i (by simpa using hi), List.getElem_map]

/-- Words packed at the width of a word stand as they are. -/
theorem pack_32 (vals : List Word) : pack vals 32 = vals := by
  refine List.ext_getElem (by simp) fun k hk hlt => BitVec.eq_of_getLsbD_eq fun j hj => ?_
  have hword : (32 * k + j) / 32 = k := by omega
  have hbit : (32 * k + j) % 32 = j := by omega
  rw [getLsbD_pack hk hj, ← wordStream_eq_packStream, testBit_wordStream, hword, hbit, List.getD_eq_getElem _ _ hlt]

theorem pack_zero (vals : List Word) : pack vals 0 = [] := by
  simp [pack, packedLen]

/-- The values read from a stream pack to its first `n*w` bits. -/
theorem packStream_unpack (words : List Word) (n : Nat) {w : Nat} (hw : w ≤ 32) :
    packStream w (unpack words n w) = wordStream (words.take (packedLen n w)) % 2 ^ (n * w) := by
  refine Nat.eq_of_testBit_eq fun i => ?_
  rw [testBit_packStream, Nat.testBit_mod_two_pow, unpack_length]
  split
  case isTrue hin =>
    have hpos : 0 < w := Nat.pos_of_lt_mul_left hin
    have hval : i / w < (unpack words n w).length := by simpa using (Nat.div_lt_iff_lt_mul hpos).2 hin
    rw [List.getD_eq_getElem _ _ hval, getLsbD_unpack words hw hval (Nat.mod_lt i hpos), Nat.div_add_mod']
    simp [hin]
  case isFalse hout => simp [hout]

/-- R162 law 6: a run whose padding is 0 unpacks and packs back to its words. -/
theorem pack_unpack {ws : List Word} {n w : Nat} (hw : w ≤ 32) (hlen : ws.length = packedLen n w)
    (hpad : wordStream ws < 2 ^ (n * w)) : pack (unpack ws n w) w = ws := by
  have hstream : packStream w (unpack ws n w) = packStream 32 ws := by
    rw [packStream_unpack ws n hw, ← hlen, List.take_length, Nat.mod_eq_of_lt hpad, wordStream_eq_packStream]
  calc pack (unpack ws n w) w = pack ws 32 := by simp only [pack, unpack_length, hstream, ← hlen, packedLen_32]
    _ = ws := pack_32 ws

/-- Settles O48: laws 1 and 6 rest on the two streams' digits, the others on the number of words. -/
theorem packingPairLaws : Obligations.PackingPairLaws := by
  intro w hw
  refine ⟨fun vals => unpack_pack vals w, fun vals => pack_length vals w, pack_32, pack_zero, ?wholeBlocks,
    fun ws n => pack_unpack hw⟩
  case wholeBlocks =>
    intro vals m hlen
    rw [pack_length, packedLen, hlen, Nat.mul_assoc]
    omega

end Sys2Proof.Machine
end

section
/-! Exceptions and their buckets (R180 to R184): a value and its two parts, the positions of one extra width, the buckets, and the
position deltas. -/

namespace Sys2Proof.Machine

/-! ### A value's low and high bits (R180, R181) -/

theorem toNat_high (v : Word) (b : Nat) : (v >>> b).toNat = v.toNat / 2 ^ b := by
  rw [BitVec.toNat_ushiftRight, Nat.shiftRight_eq_div_pow]

/-- R181: the low bits OR the high bits put back. -/
theorem trunc_or_high (v : Word) (b : Nat) : BitVec.ofNat 32 (trunc v b) ||| ((v >>> b) <<< b) = v := by
  refine BitVec.eq_of_getLsbD_eq fun j hj => ?_
  rw [BitVec.getLsbD_or, BitVec.getLsbD_shiftLeft, BitVec.getLsbD_ushiftRight, BitVec.getLsbD_ofNat]
  by_cases hlow : j < b
  · simp [testBit_trunc v hlow, hj, hlow]
  · have hbit : b + (j - b) = j := by omega
    simp [trunc, Nat.testBit_mod_two_pow, hbit, hj, hlow]

/-- R181: a value that fits `b` bits is its own low bits. -/
theorem trunc_of_bits_le {v : Word} {b : Nat} (hfit : bits v ≤ b) : BitVec.ofNat 32 (trunc v b) = v := by
  rw [trunc, Nat.mod_eq_of_lt ((bits_le_iff v b).1 hfit), BitVec.ofNat_toNat, BitVec.setWidth_eq]

/-- R180: the high bits take what the true width has beyond `b`. -/
theorem bits_high_le_iff (v : Word) (b e : Nat) : bits (v >>> b) ≤ e ↔ bits v ≤ b + e := by
  rw [bits_le_iff, bits_le_iff, toNat_high, Nat.div_lt_iff_lt_mul (Nat.two_pow_pos b), ← Nat.pow_add, Nat.add_comm]

/-- Settles O49: `trunc_or_high` puts the parts together, and the true width less `b` is the width of the high bits. -/
theorem valuesRebuildFromTheirParts : Obligations.ValuesRebuildFromTheirParts := by
  intro v b _
  refine ⟨(trunc_or_high v b).symm, fun hexc => ⟨?atLeast, ?below, ?fits⟩⟩
  case atLeast =>
    rw [← lt_bits_iff, ← not_le, bits_high_le_iff]
    omega
  case below =>
    rw [← bits_le_iff, bits_high_le_iff]
    omega
  case fits =>
    rw [toNat_high, Nat.shiftLeft_eq]
    exact (Nat.div_mul_le_self _ _).trans_lt v.isLt

/-! ### The positions of one extra width (R180) -/

theorem zipIdx_eq_map_range (vals : List Word) :
    vals.zipIdx = (List.range vals.length).map fun p => (vals.getD p 0#32, p) :=
  List.ext_getElem (by simp) fun p hp _ => by
    have hlt : p < vals.length := by simpa using hp
    simp [hlt]

theorem eq_map_getD_range (vals : List Word) : vals = (List.range vals.length).map (vals.getD · 0#32) :=
  List.ext_getElem (by simp) fun p hp _ => by simp [hp]

/-- R180: the positions are picked from `0, 1, …` in order. -/
theorem positions_eq_filter_range (vals : List Word) (b e : Nat) :
    positions vals b e = (List.range vals.length).filter fun p => bits (vals.getD p 0#32) == b + e := by
  rw [positions, zipIdx_eq_map_range, List.filter_map, List.map_map]
  exact List.map_id _

/-- R180: the high bits stand in the order of their positions. -/
theorem highBits_eq_map_positions (vals : List Word) (b e : Nat) :
    highBits vals b e = (positions vals b e).map fun p => vals.getD p 0#32 >>> b := by
  rw [positions_eq_filter_range]
  conv_lhs => rw [highBits, eq_map_getD_range vals, List.filter_map, List.map_map]
  rfl

theorem mem_positions_iff {vals : List Word} {b e p : Nat} :
    p ∈ positions vals b e ↔ ∃ h : p < vals.length, bits vals[p] = b + e := by
  rw [positions_eq_filter_range, List.mem_filter, List.mem_range, ← exists_prop]
  exact exists_congr fun h => by rw [List.getD_eq_getElem _ _ h, beq_iff_eq]

theorem lt_length_of_mem_positions {vals : List Word} {b e p : Nat} (hp : p ∈ positions vals b e) : p < vals.length :=
  (mem_positions_iff.1 hp).1

theorem positions_pairwise_lt (vals : List Word) (b e : Nat) : (positions vals b e).Pairwise (· < ·) := by
  rw [positions_eq_filter_range]
  exact List.pairwise_lt_range.filter _

theorem positions_length_le (vals : List Word) (b e : Nat) : (positions vals b e).length ≤ vals.length := by
  rw [positions_eq_filter_range]
  exact (List.length_filter_le _ _).trans_eq List.length_range

@[simp] theorem highBits_length (vals : List Word) (b e : Nat) :
    (highBits vals b e).length = (positions vals b e).length := by
  rw [highBits_eq_map_positions, List.length_map]

/-- R180: the high bits of extra width `e` fit `e` bits. -/
theorem bits_le_of_mem_highBits {vals : List Word} {b e : Nat} {h : Word} (hh : h ∈ highBits vals b e) : bits h ≤ e := by
  obtain ⟨v, hv, rfl⟩ := List.mem_map.1 hh
  exact (bits_high_le_iff v b e).2 (beq_iff_eq.1 (List.mem_filter.1 hv).2).le

/-! ### The buckets (R183) -/

theorem bucketOf_of_positions_nil {vals : List Word} {b e : Nat} (hnone : positions vals b e = []) :
    bucketOf vals b e = none := by
  simp [bucketOf, hnone]

theorem bucketOf_of_positions_ne_nil {vals : List Word} {b e : Nat} (hsome : positions vals b e ≠ []) :
    bucketOf vals b e = some { e := e, pos := positions vals b e, hi := highBits vals b e } := by
  simp [bucketOf, hsome]

/-- R183: the bucket of an extra width holds that width, its positions and their high bits. -/
theorem bucketOf_eq_some_iff {vals : List Word} {b e : Nat} {k : Bucket} :
    bucketOf vals b e = some k ↔ k.e = e ∧ k.pos = positions vals b e ∧ k.hi = highBits vals b e ∧ k.pos ≠ [] := by
  by_cases hnone : positions vals b e = []
  · simp +contextual [bucketOf_of_positions_nil hnone, hnone]
  · rw [bucketOf_of_positions_ne_nil hnone, Option.some_inj]
    constructor
    · rintro rfl
      exact ⟨rfl, rfl, rfl, hnone⟩
    · rintro ⟨he, hpos, hhi, _⟩
      rw [← hpos, ← hhi, ← he]

/-- R183: the members of the bucket list. -/
theorem mem_buckets_iff {vals : List Word} {b : Nat} {k : Bucket} :
    k ∈ buckets vals b ↔
      1 ≤ k.e ∧ k.e ≤ 32 - b ∧ k.pos = positions vals b k.e ∧ k.hi = highBits vals b k.e ∧ k.pos ≠ [] := by
  simp only [buckets, List.mem_filterMap, bucketOf_eq_some_iff, List.mem_range'_1]
  constructor
  · rintro ⟨e, ⟨hlo, hup⟩, rfl, hfields⟩
    exact ⟨hlo, by omega, hfields⟩
  · rintro ⟨hlo, hup, hfields⟩
    exact ⟨k.e, ⟨hlo, by omega⟩, rfl, hfields⟩

theorem buckets_widths_pairwise_lt (vals : List Word) (b : Nat) : ((buckets vals b).map (·.e)).Pairwise (· < ·) := by
  rw [List.pairwise_map, buckets, List.pairwise_filterMap]
  refine (List.pairwise_lt_range' 1).imp fun {e e'} hlt k hk k' hk' => ?_
  rwa [(bucketOf_eq_some_iff.1 hk).1, (bucketOf_eq_some_iff.1 hk').1]

theorem buckets_length_le_widths (vals : List Word) (b : Nat) : (buckets vals b).length ≤ 32 - b :=
  (List.length_filterMap_le _ _).trans_eq List.length_range'

/-- R183: each bucket's width is the extra width of some value, and no two buckets share one. -/
theorem buckets_length_le_values (vals : List Word) (b : Nat) : (buckets vals b).length ≤ vals.length := by
  have hwidths : (buckets vals b).map (·.e) ⊆ vals.map (bits · - b) := by
    intro e he
    obtain ⟨k, hk, rfl⟩ := List.mem_map.1 he
    obtain ⟨-, -, hpos, -, hne⟩ := mem_buckets_iff.1 hk
    obtain ⟨p, hp⟩ := List.exists_mem_of_ne_nil _ hne
    obtain ⟨hlt, hbits⟩ := mem_positions_iff.1 (hpos ▸ hp)
    exact List.mem_map.2 ⟨vals[p], List.getElem_mem hlt, by omega⟩
  have hnodup : ((buckets vals b).map (·.e)).Nodup := (buckets_widths_pairwise_lt vals b).imp Nat.ne_of_lt
  simpa using (hnodup.subperm hwidths).length_le

/-- Settles O50: a bucket is its extra width with that width's positions (`mem_buckets_iff`), and the widths increase. -/
theorem bucketsPartitionTheExceptions : Obligations.BucketsPartitionTheExceptions := by
  intro vals b _
  refine ⟨buckets_widths_pairwise_lt vals b, buckets_length_le_widths vals b, buckets_length_le_values vals b, ?fields,
    ?partition, ?within⟩
  case fields =>
    intro k hk
    obtain ⟨hlo, hup, hpos, hhi, hne⟩ := mem_buckets_iff.1 hk
    exact ⟨hlo, hup, hne, hpos ▸ positions_pairwise_lt vals b k.e, by rw [hhi, hpos, highBits_eq_map_positions]⟩
  case partition =>
    intro p hp e
    constructor
    · rintro ⟨k, hk, rfl, hmem⟩
      obtain ⟨hlo, -, hpos, -, -⟩ := mem_buckets_iff.1 hk
      exact ⟨hlo, (mem_positions_iff.1 (hpos ▸ hmem)).2⟩
    · rintro ⟨hlo, hbits⟩
      have hmem : p ∈ positions vals b e := mem_positions_iff.2 ⟨hp, hbits⟩
      have hwidth : e ≤ 32 - b := by
        have := bits_le_32 vals[p]
        omega
      exact ⟨{ e := e, pos := positions vals b e, hi := highBits vals b e },
        mem_buckets_iff.2 ⟨hlo, hwidth, rfl, rfl, List.ne_nil_of_mem hmem⟩, rfl, hmem⟩
  case within =>
    intro k hk p hp
    obtain ⟨-, -, hpos, -, -⟩ := mem_buckets_iff.1 hk
    exact lt_length_of_mem_positions (hpos ▸ hp)

/-! ### The position deltas (R184) -/

@[simp] theorem deltasFrom_length (prev : Nat) (pos : List Nat) : (deltasFrom prev pos).length = pos.length := by
  induction pos generalizing prev with
  | nil => rfl
  | cons p ps ih => simp [deltasFrom, ih]

@[simp] theorem deltas_length (pos : List Nat) : (deltas pos).length = pos.length := deltasFrom_length 0 pos

/-- R184: a delta is at most its position. -/
theorem deltasFrom_lt {pos : List Nat} {bound : Nat} (hpos : ∀ p ∈ pos, p < bound) (prev : Nat) :
    ∀ d ∈ deltasFrom prev pos, d < bound := by
  induction pos generalizing prev with
  | nil => simp [deltasFrom]
  | cons p ps ih =>
    obtain ⟨hp, hps⟩ := List.forall_mem_cons.1 hpos
    exact List.forall_mem_cons.2 ⟨(Nat.sub_le p prev).trans_lt hp, ih hps p⟩

theorem deltasFrom_pos {pos : List Nat} {prev : Nat} (hsorted : (prev :: pos).Pairwise (· < ·)) :
    ∀ d ∈ deltasFrom prev pos, 1 ≤ d := by
  induction pos generalizing prev with
  | nil => simp [deltasFrom]
  | cons p ps ih =>
    obtain ⟨hprev, hps⟩ := List.pairwise_cons.1 hsorted
    exact List.forall_mem_cons.2 ⟨Nat.sub_pos_of_lt (hprev p List.mem_cons_self), ih hps⟩

/-- R184: the positions are the running sums of the deltas. -/
theorem getElem_eq_add_sum_deltasFrom {pos : List Nat} {prev : Nat} (hsorted : (prev :: pos).Pairwise (· ≤ ·)) {k : Nat}
    (hk : k < pos.length) : pos[k] = prev + ((deltasFrom prev pos).take (k + 1)).sum := by
  induction pos generalizing prev k with
  | nil => simp at hk
  | cons p ps ih =>
    obtain ⟨hprev, hps⟩ := List.pairwise_cons.1 hsorted
    have hstep : prev + (p - prev) = p := Nat.add_sub_of_le (hprev p List.mem_cons_self)
    cases k with
    | zero => simp [deltasFrom, hstep]
    | succ k =>
      rw [List.getElem_cons_succ, ih hps (Nat.lt_of_succ_lt_succ hk), deltasFrom, List.take_succ_cons, List.sum_cons,
        ← Nat.add_assoc, hstep]

theorem zero_cons_pairwise_le {pos : List Nat} (hsorted : pos.Pairwise (· < ·)) : (0 :: pos).Pairwise (· ≤ ·) :=
  List.pairwise_cons.2 ⟨fun p _ => Nat.zero_le p, hsorted.imp Nat.le_of_lt⟩

/-- R40: a legal block size is a power of two. -/
theorem two_pow_log2_of_blockSize {bs : Nat} (hbs : bs ∈ [128, 256, 512]) : 2 ^ bs.log2 = bs := by
  revert bs
  decide

/-- Settles O51: the bound, the gaps and the running sums, each by induction on the positions (`deltasFrom`). -/
theorem deltasRebuildThePositions : Obligations.DeltasRebuildThePositions := by
  intro pos bs hbs hsorted hpos
  have hlt : ∀ d ∈ deltas pos, d < bs := deltasFrom_lt hpos 0
  refine ⟨deltas_length pos, fun d hd => ⟨hlt d hd, ?fits⟩, ?gaps, fun k hk => ?sums⟩
  case fits => exact (hlt d hd).trans_eq (two_pow_log2_of_blockSize hbs).symm
  case gaps =>
    cases pos with
    | nil => simp [deltas, deltasFrom]
    | cons p ps => exact deltasFrom_pos hsorted
  case sums =>
    rw [getElem_eq_add_sum_deltasFrom (zero_cons_pairwise_le hsorted) hk, Nat.zero_add]
    rfl

end Sys2Proof.Machine
end

section
/-! A block's descriptor group read back (R121, R122, R187, R188): the fields of its words, reads of words a reader holds, and the
parse. -/

namespace Sys2Proof.Machine

/-! ### The words of a descriptor group (R121, R122) -/

/-- A low byte OR a field from bit 8 up is their sum. -/
theorem toNat_lowByte_or_field {lo hi : Nat} (hlo : lo < 2 ^ 8) (hhi : hi < 2 ^ 24) :
    (BitVec.ofNat 32 (lo ||| hi <<< 8)).toNat = lo + 2 ^ 8 * hi := by
  rw [Nat.lor_comm, ← Nat.shiftLeft_add_eq_or_of_lt hlo, Nat.shiftLeft_eq, BitVec.toNat_ofNat]
  omega

theorem toNat_mkD {b nb : Nat} (hb : b ≤ 32) (hnb : nb ≤ 32) : (mkD b nb).toNat = b + 2 ^ 8 * nb :=
  toNat_lowByte_or_field (by omega) (by omega)

theorem toNat_mkB {e c : Nat} (he : e ≤ 32) (hc : c ≤ 512) : (mkB e c).toNat = e + 2 ^ 8 * c :=
  toNat_lowByte_or_field (by omega) (by omega)

theorem field_eq_div_mod (w : Word) (lo len : Nat) : field w lo len = w.toNat / 2 ^ lo % 2 ^ len := by
  rw [field, Nat.shiftRight_eq_div_pow]

theorem field_mkD_width {b nb : Nat} (hb : b ≤ 32) (hnb : nb ≤ 32) : field (mkD b nb) 0 6 = b := by
  rw [field_eq_div_mod, toNat_mkD hb hnb]
  omega

theorem field_mkD_buckets {b nb : Nat} (hb : b ≤ 32) (hnb : nb ≤ 32) : field (mkD b nb) 8 6 = nb := by
  rw [field_eq_div_mod, toNat_mkD hb hnb]
  omega

theorem field_mkB_width {e c : Nat} (he : e ≤ 32) (hc : c ≤ 512) : field (mkB e c) 0 6 = e := by
  rw [field_eq_div_mod, toNat_mkB he hc]
  omega

theorem field_mkB_count {e c : Nat} (he : e ≤ 32) (hc : c ≤ 512) : field (mkB e c) 8 10 = c := by
  rw [field_eq_div_mod, toNat_mkB he hc]
  omega

/-- R121: the words `mkD` builds are valid. -/
theorem validD_mkD {b nb : Nat} (hb : b ≤ 32) (hnb : nb ≤ 32 - b) : validD (mkD b nb) = true := by
  have hnb' : nb ≤ 32 := by omega
  have hrsv : field (mkD b nb) 6 2 = 0 ∧ field (mkD b nb) 14 18 = 0 := by
    rw [field_eq_div_mod, field_eq_div_mod, toNat_mkD hb hnb']
    omega
  simp [validD, hrsv, field_mkD_width hb hnb', field_mkD_buckets hb hnb', hb, hnb]

/-- R122: the words `mkB` builds are valid. -/
theorem validB_mkB {bs b e c : Nat} (hbs : bs ≤ 512) (he : 1 ≤ e) (heb : e ≤ 32 - b) (hc : 1 ≤ c) (hcbs : c ≤ bs) :
    validB bs (mkB e c) b = true := by
  have he' : e ≤ 32 := by omega
  have hc' : c ≤ 512 := by omega
  have hrsv : field (mkB e c) 6 2 = 0 ∧ field (mkB e c) 18 14 = 0 := by
    rw [field_eq_div_mod, field_eq_div_mod, toNat_mkB he' hc']
    omega
  simp [validB, hrsv, field_mkB_width he' hc', field_mkB_count he' hc', he, heb, hc, hcbs]

/-! ### Reads of words a reader holds -/

theorem holds_cons_iff {rd : Nat → Except Raise Word} {j : Nat} {w : Word} {ws : List Word} :
    Holds rd j (w :: ws) ↔ rd j = .ok w ∧ Holds rd (j + 1) ws := by
  constructor
  · intro hall
    refine ⟨hall 0 (Nat.succ_pos _), fun k hk => ?_⟩
    rw [Nat.add_assoc, Nat.add_comm 1 k]
    exact hall (k + 1) (Nat.succ_lt_succ hk)
  · rintro ⟨hfirst, hrest⟩ k hk
    cases k with
    | zero => exact hfirst
    | succ k =>
      simpa [Nat.add_assoc, Nat.add_comm 1 k] using hrest k (Nat.lt_of_succ_lt_succ hk)

theorem holds_append_iff {rd : Nat → Except Raise Word} {j : Nat} {xs ys : List Word} :
    Holds rd j (xs ++ ys) ↔ Holds rd j xs ∧ Holds rd (j + xs.length) ys := by
  induction xs generalizing j with
  | nil => simp [Holds]
  | cons x xs ih =>
    rw [List.cons_append, holds_cons_iff, holds_cons_iff, ih, List.length_cons, and_assoc, Nat.add_assoc,
      Nat.add_comm 1]

theorem readRun_of_holds {rd : Nat → Except Raise Word} {i : Nat} {ws : List Word} (hrd : Holds rd i ws) :
    readRun rd i ws.length = .ok ws := by
  induction ws generalizing i with
  | nil => rfl
  | cons w ws ih =>
    obtain ⟨hfirst, hrest⟩ := holds_cons_iff.1 hrd
    simp [readRun, hfirst, ih hrest]

/-! ### Parsing the group (R188) -/

/-- R122, R188: bucket fields that a valid word B can hold. -/
def BucketInfo.legal (bs b : Nat) (k : BucketInfo) : Prop := 1 ≤ k.e ∧ k.e ≤ 32 - b ∧ 1 ≤ k.c ∧ k.c ≤ bs

/-- R188: the bucket words written for legal fields read back as those fields. -/
theorem readBuckets_of_holds {rd : Nat → Except Raise Word} {bs wend b j : Nat} {ks : List BucketInfo} (hbs : bs ≤ 512)
    (hlegal : ∀ k ∈ ks, k.legal bs b) (hrd : Holds rd j (ks.map fun k => mkB k.e k.c)) (hwin : j + ks.length ≤ wend) :
    readBuckets rd bs wend b j ks.length = .ok ks := by
  induction ks generalizing j with
  | nil => rfl
  | cons k ks ih =>
    obtain ⟨⟨he, heb, hc, hcbs⟩, hrest⟩ := List.forall_mem_cons.1 hlegal
    obtain ⟨hword, hwords⟩ := holds_cons_iff.1 hrd
    rw [List.length_cons] at hwin
    have hinside : ¬wend ≤ j := by omega
    have htail := ih hrest hwords (by omega)
    have he' : k.e ≤ 32 := by omega
    have hc' : k.c ≤ 512 := by omega
    simp [readBuckets, hinside, hword, validB_mkB hbs he heb hc hcbs, htail, field_mkB_width he' hc',
      field_mkB_count he' hc']

/-- R188: the words of a descriptor group read back as the group. -/
theorem readGroup_of_holds {rd : Nat → Except Raise Word} {bs wend b j : Nat} {ks : List Bucket} (hbs : bs ≤ 512)
    (hb : b ≤ 32) (hnb : ks.length ≤ 32 - b) (hlegal : ∀ k ∈ (groupOf b ks).buckets, k.legal bs b)
    (hrd : Holds rd j (groupWords (groupOf b ks))) (hwin : j + (groupWords (groupOf b ks)).length ≤ wend) :
    readGroup rd bs wend j = .ok (groupOf b ks) := by
  obtain ⟨hd, hwords⟩ := holds_cons_iff.1 hrd
  have hlen : (groupOf b ks).buckets.length = ks.length := List.length_map _
  have hnb' : ks.length ≤ 32 := by omega
  rw [groupWords, List.length_cons, List.length_map, hlen] at hwin
  have hinside : ¬wend ≤ j := by omega
  have hbuckets : readBuckets rd bs wend b (j + 1) ks.length = .ok (groupOf b ks).buckets :=
    hlen ▸ readBuckets_of_holds hbs hlegal hwords (by omega)
  have hword : rd j = .ok (mkD b ks.length) := hd
  simp [readGroup, hinside, hword, validD_mkD hb hnb, field_mkD_width hb hnb', field_mkD_buckets hb hnb', hbuckets, groupOf]

/-- R183: the buckets of a block that fits the block size have legal fields. -/
theorem legal_of_mem_groupOf_buckets {bs b : Nat} {vals : List Word} (hlen : vals.length ≤ bs) :
    ∀ k ∈ (groupOf b (buckets vals b)).buckets, k.legal bs b := by
  intro i hi
  obtain ⟨k, hk, rfl⟩ := List.mem_map.1 hi
  obtain ⟨hlo, hup, hpos, -, hne⟩ := mem_buckets_iff.1 hk
  have hcount : k.pos.length ≤ vals.length := hpos ▸ positions_length_le vals b k.e
  exact ⟨hlo, hup, List.length_pos_iff.2 hne, hcount.trans hlen⟩

theorem bucketRuns_length {pw : Nat} {k : Bucket} (hhi : k.hi.length = k.pos.length) :
    (bucketRuns pw k).length = packedLen k.pos.length pw + packedLen k.pos.length k.e := by
  simp [bucketRuns, hhi]

/-- R187: `XLEN` is the length of the exception runs. -/
theorem xlen_groupOf (pw b : Nat) (vals : List Word) :
    xlen pw (groupOf b (buckets vals b)).buckets = (xruns pw vals b).length := by
  rw [xlen, groupOf, xruns, List.length_flatMap, List.map_map]
  congr 1
  refine List.map_congr_left fun k hk => ?_
  obtain ⟨-, -, hpos, hhi, -⟩ := mem_buckets_iff.1 hk
  rw [bucketRuns_length (by rw [hpos, hhi, highBits_length])]
  rfl

end Sys2Proof.Machine
end

section
/-! Patching a block (R189, R196): one bucket's runs ORed into the block, and the buckets one after another. -/

namespace Sys2Proof.Machine

/-! ### Patching one bucket (R189) -/

/-- Values that fit the width come back from their packed run unchanged. -/
theorem unpack_pack_of_bits_le {vals : List Word} {w : Nat} (hfit : ∀ v ∈ vals, bits v ≤ w) :
    unpack (pack vals w) vals.length w = vals := by
  rw [unpack_pack, List.map_congr_left fun v hv => trunc_of_bits_le (hfit v hv), List.map_id']

/-- R184: deltas of positions below `2^pw` fit `pw` bits. -/
theorem bits_le_of_mem_deltas {pos : List Nat} {pw : Nat} (hpos : ∀ p ∈ pos, p < 2 ^ pw) :
    ∀ d ∈ (deltas pos).map (BitVec.ofNat 32), bits d ≤ pw := by
  intro d hd
  obtain ⟨x, hx, rfl⟩ := List.mem_map.1 hd
  rw [bits_le_iff, BitVec.toNat_ofNat]
  exact (Nat.mod_le _ _).trans_lt (deltasFrom_lt hpos 0 x hx)

/-- R189: with the deltas of increasing positions inside the block, each position gets its own high bits ORed in. -/
theorem patchBucket_deltasFrom {n b pw q k prev : Nat} {pos : List Nat} (hi : Nat → Word) (x : List Word) (hn : n ≤ 2 ^ 32)
    (hpos : ∀ p ∈ pos, p < n) (hprev : ∀ p ∈ pos, prev ≤ p) (hsorted : pos.Pairwise (· < ·)) :
    patchBucket n b pw q k prev (((deltasFrom prev pos).map (BitVec.ofNat 32)).zip (pos.map hi)) x =
      .ok (x.mapIdx fun i w => if i ∈ pos then w ||| hi i <<< b else w) := by
  induction pos generalizing k prev x with
  | nil => simp [deltasFrom, patchBucket, List.mapIdx_eq_zipIdx_map]
  | cons p ps ih =>
    obtain ⟨hp, hps⟩ := List.forall_mem_cons.1 hpos
    obtain ⟨hafter, hrest⟩ := List.pairwise_cons.1 hsorted
    have hnew : p ∉ ps := fun hmem => (hafter p hmem).false
    have hdelta : prev + (BitVec.ofNat 32 (p - prev)).toNat = p := by
      have := hprev p List.mem_cons_self
      rw [BitVec.toNat_ofNat]
      omega
    have hinside : ¬n ≤ p := not_le.2 hp
    simp only [deltasFrom, List.map_cons, List.zip_cons_cons, patchBucket, hdelta, if_neg hinside,
      ih _ hps (fun p' hmem => (hafter p' hmem).le) hrest]
    congr 1
    refine List.ext_getElem? fun i => ?_
    by_cases hip : i = p
    · subst hip
      simp [hnew, Function.comp_def]
    · simp [hip, Ne.symm hip]

/-- R189: a bucket whose runs the reader holds is patched, and the rest follow behind its runs. -/
theorem patch_cons_of_holds {rd : Nat → Except Raise Word} {n b pw q : Nat} {k : Bucket} {ts : List BucketInfo}
    {x x' : List Word} (hrd : Holds rd q (bucketRuns pw k)) (hlen : k.hi.length = k.pos.length)
    (hpos : ∀ p ∈ k.pos, p < 2 ^ pw) (hhi : ∀ h ∈ k.hi, bits h ≤ k.e)
    (hpatch : patchBucket n b pw q 0 0 (((deltas k.pos).map (BitVec.ofNat 32)).zip k.hi) x = .ok x') :
    patch rd n b pw q ({ e := k.e, c := k.pos.length } :: ts) x =
      patch rd n b pw (q + (bucketRuns pw k).length) ts x' := by
  obtain ⟨hdeltas, hhigh⟩ := holds_append_iff.1 hrd
  have hreadD : readRun rd q (packedLen k.pos.length pw) = .ok (pack ((deltas k.pos).map (BitVec.ofNat 32)) pw) := by
    simpa using readRun_of_holds hdeltas
  have hreadH : readRun rd (q + packedLen k.pos.length pw) (packedLen k.pos.length k.e) = .ok (pack k.hi k.e) := by
    simpa [hlen] using readRun_of_holds hhigh
  have hunpackD : unpack (pack ((deltas k.pos).map (BitVec.ofNat 32)) pw) k.pos.length pw =
      (deltas k.pos).map (BitVec.ofNat 32) := by
    simpa using unpack_pack_of_bits_le (bits_le_of_mem_deltas hpos)
  have hunpackH : unpack (pack k.hi k.e) k.pos.length k.e = k.hi := hlen ▸ unpack_pack_of_bits_le hhi
  rw [bucketRuns_length hlen, ← Nat.add_assoc]
  simp only [patch, hreadD, hreadH, hunpackD, hunpackH, hpatch]

/-! ### Patching the buckets one after another (R196) -/

/-- R196: a block as patching leaves it when the exceptions of true width up to `m` have been put back: those values are whole,
the wider ones are still their low `b` bits. -/
def patchedUpTo (b m : Nat) (vals : List Word) : List Word :=
  vals.map fun v => if bits v ≤ m then v else BitVec.ofNat 32 (trunc v b)

/-- R181: before any bucket, the block is its main run unpacked. -/
theorem patchedUpTo_main (b : Nat) (vals : List Word) :
    patchedUpTo b b vals = unpack (pack vals b) vals.length b := by
  rw [unpack_pack]
  refine List.map_congr_left fun v _ => ?_
  split
  case isTrue hfit => exact (trunc_of_bits_le hfit).symm
  case isFalse => rfl

/-- After the widest bucket, the block is its values. -/
theorem patchedUpTo_all (b : Nat) (vals : List Word) : patchedUpTo b 32 vals = vals := by
  refine (List.map_congr_left fun v _ => ?_).trans (List.map_id' vals)
  exact if_pos (bits_le_32 v)

/-- R181: ORing the high bits into the positions of extra width `e + 1` puts those values back. -/
theorem patchedUpTo_succ (b e : Nat) (vals : List Word) :
    ((patchedUpTo b (b + e) vals).mapIdx fun i w =>
      if i ∈ positions vals b (e + 1) then w ||| (vals.getD i 0#32 >>> b) <<< b else w) =
      patchedUpTo b (b + (e + 1)) vals := by
  refine List.ext_getElem (by simp [patchedUpTo]) fun i _ hi => ?_
  have hlt : i < vals.length := by simpa [patchedUpTo] using hi
  have hmem : i ∈ positions vals b (e + 1) ↔ bits vals[i] = b + (e + 1) := by simp [mem_positions_iff, hlt]
  simp only [List.getElem_mapIdx, patchedUpTo, List.getElem_map, hmem, List.getD_eq_getElem _ _ hlt]
  by_cases hexc : bits vals[i] = b + (e + 1)
  · have hwide : ¬bits vals[i] ≤ b + e := by omega
    rw [if_pos hexc, if_neg hwide, if_pos hexc.le, trunc_or_high]
  · have hsame : bits vals[i] ≤ b + e ↔ bits vals[i] ≤ b + (e + 1) := by omega
    rw [if_neg hexc]
    simp only [hsame]

/-- R189, R196: patching the bucket of extra width `e + 1` puts its values back. -/
theorem patchBucket_positions {vals : List Word} (hsmall : vals.length ≤ 2 ^ 32) (b pw q e : Nat) :
    patchBucket vals.length b pw q 0 0
      (((deltas (positions vals b (e + 1))).map (BitVec.ofNat 32)).zip (highBits vals b (e + 1)))
      (patchedUpTo b (b + e) vals) = .ok (patchedUpTo b (b + (e + 1)) vals) := by
  rw [highBits_eq_map_positions, ← patchedUpTo_succ]
  exact patchBucket_deltasFrom (fun p => vals.getD p 0#32 >>> b) _ hsmall (fun _ => lt_length_of_mem_positions)
    (fun p _ => Nat.zero_le p) (positions_pairwise_lt vals b (e + 1))

/-- R196: the buckets of the extra widths `e + 1` to `e + m`, patched in order. -/
theorem patch_buckets_of_holds {rd : Nat → Except Raise Word} {b pw q : Nat} {vals : List Word}
    (hfit : vals.length ≤ 2 ^ pw) (hsmall : vals.length ≤ 2 ^ 32) (e m : Nat)
    (hrd : Holds rd q (((List.range' (e + 1) m).filterMap (bucketOf vals b)).flatMap (bucketRuns pw))) :
    patch rd vals.length b pw q (groupOf b ((List.range' (e + 1) m).filterMap (bucketOf vals b))).buckets
      (patchedUpTo b (b + e) vals) = .ok (patchedUpTo b (b + (e + m)) vals) := by
  induction m generalizing e q with
  | zero => rfl
  | succ m ih =>
    have hwidth : e + (m + 1) = e + 1 + m := by omega
    have hbucket := patchBucket_positions hsmall b pw q e
    rw [List.range'_succ] at hrd ⊢
    rw [hwidth]
    by_cases hnone : positions vals b (e + 1) = []
    · rw [List.filterMap_cons_none (bucketOf_of_positions_nil hnone)] at hrd ⊢
      have hsame : patchedUpTo b (b + e) vals = patchedUpTo b (b + (e + 1)) vals := by
        simpa [hnone, deltas, deltasFrom, patchBucket] using hbucket
      rw [hsame]
      exact ih (e + 1) hrd
    · rw [List.filterMap_cons_some (bucketOf_of_positions_ne_nil hnone)] at hrd ⊢
      rw [List.flatMap_cons, holds_append_iff] at hrd
      obtain ⟨hruns, hrest⟩ := hrd
      exact (patch_cons_of_holds hruns (highBits_length vals b (e + 1))
        (fun p hp => (lt_length_of_mem_positions hp).trans_le hfit) (fun h => bits_le_of_mem_highBits) hbucket).trans
        (ih (e + 1) hrest)

/-- R196: a block's exception runs, patched into its main run, give the block. -/
theorem patch_main_of_holds {rd : Nat → Except Raise Word} {b pw q : Nat} {vals : List Word} (hb : b ≤ 32)
    (hfit : vals.length ≤ 2 ^ pw) (hsmall : vals.length ≤ 2 ^ 32) (hrd : Holds rd q (xruns pw vals b)) :
    patch rd vals.length b pw q (groupOf b (buckets vals b)).buckets (unpack (pack vals b) vals.length b) = .ok vals := by
  have hall : b + (0 + (32 - b)) = 32 := by omega
  have hpatch := patch_buckets_of_holds hfit hsmall 0 (32 - b) hrd
  rwa [Nat.add_zero b, patchedUpTo_main, hall, patchedUpTo_all] at hpatch

/-- Settles O55: the record's words parse to the block's own group (`readGroup_of_holds`), and its buckets, patched by increasing
width, put back every value wider than `b` (`patch_main_of_holds`). -/
theorem blockRoundTrip : Obligations.BlockRoundTrip := by
  intro bs b wend j vals rd hbs hb hlen hrd hwin
  have hbs512 : bs ≤ 512 := by
    simp only [List.mem_cons, List.not_mem_nil, or_false] at hbs
    omega
  have hfit : vals.length ≤ 2 ^ bs.log2 := hlen.trans_eq (two_pow_log2_of_blockSize hbs).symm
  obtain ⟨hmeta, hruns⟩ := holds_append_iff.1 hrd
  have hmetaLen : (metaWords vals b).length = 1 + (groupOf b (buckets vals b)).buckets.length := by
    simp [metaWords, groupWords, Nat.add_comm]
  have hlenRec : (record bs.log2 vals b).length = (metaWords vals b).length + (xruns bs.log2 vals b).length :=
    List.length_append
  refine ⟨groupOf b (buckets vals b), ?parses, rfl, ?length, ?patches⟩
  case parses =>
    refine readGroup_of_holds hbs512 hb (buckets_length_le_widths vals b) (legal_of_mem_groupOf_buckets hlen) hmeta ?_
    rw [← metaWords]
    omega
  case length =>
    rw [xlen_groupOf, hlenRec, hmetaLen]
    omega
  case patches =>
    rw [Nat.add_assoc, ← hmetaLen]
    exact patch_main_of_holds hb hfit (by omega) hruns

end Sys2Proof.Machine
end

section
/-! An encoded page read back (R212, R221 to R223): its header, its descriptor groups, and its blocks one after another. -/

namespace Sys2Proof.Machine

/-! ### H0 (R123) -/

theorem log2_lt_of_blockSize {bs : Nat} (hbs : bs ∈ [128, 256, 512]) : bs.log2 < 2 ^ 4 := by
  revert bs
  decide

theorem blockSize_bounds {bs : Nat} (hbs : bs ∈ [128, 256, 512]) : 0 < bs ∧ bs ≤ 512 := by
  revert bs
  decide

theorem toNat_mkH0 {bs n : Nat} (hbs : bs.log2 < 2 ^ 4) (hn : n ≤ Config.maxPageBlocks) :
    (mkH0 bs n).toNat = bs.log2 + 2 ^ 8 * n := by
  rw [Config.maxPageBlocks] at hn
  exact toNat_lowByte_or_field (by omega) (by omega)

theorem field_mkH0_count {bs n : Nat} (hbs : bs.log2 < 2 ^ 4) (hn : n ≤ Config.maxPageBlocks) :
    field (mkH0 bs n) 8 24 = n := by
  rw [field_eq_div_mod, toNat_mkH0 hbs hn]
  rw [Config.maxPageBlocks] at hn
  omega

/-- R123: the H0 of a page of 1 to `BPP` blocks is valid. -/
theorem validH0_mkH0 {bs ps n : Nat} (hconfig : legalConfig bs ps) (hone : 1 ≤ n) (hfit : n ≤ ps / bs) :
    validH0 bs ps (mkH0 bs n) = true := by
  obtain ⟨hbs, -, -, hmax⟩ := hconfig
  have hlog : bs.log2 < 2 ^ 4 := log2_lt_of_blockSize hbs
  have hn : n ≤ Config.maxPageBlocks := hfit.trans hmax
  have hlow : field (mkH0 bs n) 4 4 = 0 ∧ field (mkH0 bs n) 0 4 = bs.log2 := by
    rw [field_eq_div_mod, field_eq_div_mod, toNat_mkH0 hlog hn]
    omega
  simp [validH0, hlow, field_mkH0_count hlog hn, hone, hfit]

/-! ### The blocks of a page (R210, R212) -/

/-- R210, R125: a whole block of `act.BS` values, with a width of 0 to 32. -/
def LegalBlock (bs : Nat) (x : List Word × Nat) : Prop := x.1.length = bs ∧ x.2 ≤ 32

/-- R210, R212: 1 to `BPP` whole blocks, which make one page. -/
structure LegalPage (bs ps : Nat) (blks : List (List Word × Nat)) : Prop where
  nonempty : 1 ≤ blks.length
  fits     : blks.length ≤ ps / bs
  blocks   : ∀ x ∈ blks, LegalBlock bs x

/-- The values of a page, block after block. -/
def pageValues (blks : List (List Word × Nat)) : List Word := blks.flatMap (·.1)

/-- The descriptor group of a block with its width (R212). -/
def blockGroup (x : List Word × Nat) : Group := groupOf x.2 (buckets x.1 x.2)

/-- The header of an encoded page, as R221 parses it. -/
def pageHeader (bs : Nat) (blks : List (List Word × Nat)) : Header :=
  { h := mkH0 bs blks.length, groups := blks.map blockGroup }

theorem pageValues_cons (x : List Word × Nat) (blks : List (List Word × Nat)) :
    pageValues (x :: blks) = x.1 ++ pageValues blks := rfl

theorem pageValues_length {bs : Nat} {blks : List (List Word × Nat)} (hblocks : ∀ x ∈ blks, LegalBlock bs x) :
    (pageValues blks).length = blks.length * bs := by
  rw [pageValues, List.length_flatMap, List.map_congr_left fun x hx => (hblocks x hx).1]
  simp

theorem metaWords_length (x : List Word × Nat) : (metaWords x.1 x.2).length = groupLen (blockGroup x) := by
  simp [metaWords, groupWords, groupLen, blockGroup, Nat.add_comm]

/-- R14: a block's main run fills its words exactly. -/
theorem packedLen_of_blockSize {bs : Nat} (hbs : bs ∈ [128, 256, 512]) (b : Nat) : packedLen bs b = bs * b / 32 := by
  simp only [List.mem_cons, List.not_mem_nil, or_false] at hbs
  obtain rfl | rfl | rfl := hbs <;> rw [packedLen] <;> omega

/-- R211, R222: `BLEN` is the length of the body. -/
theorem body_length {bs : Nat} (hbs : bs ∈ [128, 256, 512]) {x : List Word × Nat} (hx : LegalBlock bs x) :
    (body bs.log2 x.1 x.2).length = blen bs (blockGroup x) := by
  rw [body, List.length_append, pack_length, hx.1, packedLen_of_blockSize hbs, blen, blockGroup, xlen_groupOf]
  rfl

theorem hlen_pageHeader (bs : Nat) (blks : List (List Word × Nat)) :
    (pageHeader bs blks).hlen = 1 + (blks.flatMap fun x => metaWords x.1 x.2).length := by
  rw [Header.hlen, pageHeader, List.length_flatMap, List.map_map]
  simp only [metaWords_length, Function.comp_def]

/-- R222: `PLEN` is the length of the page. -/
theorem plen_pageHeader {bs : Nat} (hbs : bs ∈ [128, 256, 512]) {blks : List (List Word × Nat)}
    (hblocks : ∀ x ∈ blks, LegalBlock bs x) : (pageHeader bs blks).plen bs = (encPage bs blks).length := by
  have hbodies : ((pageHeader bs blks).groups.map (blen bs)).sum =
      (blks.flatMap fun x => body bs.log2 x.1 x.2).length := by
    rw [List.length_flatMap, pageHeader, List.map_map]
    exact congrArg List.sum (List.map_congr_left fun x hx => (body_length hbs (hblocks x hx)).symm)
  rw [Header.plen, hlen_pageHeader, hbodies, encPage, List.length_append, List.length_cons, Nat.add_comm 1]

theorem one_le_encPage_length (bs : Nat) (blks : List (List Word × Nat)) : 1 ≤ (encPage bs blks).length := by
  simp [encPage]

/-! ### The header read back (R221) -/

theorem readGroup_of_block {rd : Nat → Except Raise Word} {bs wend j : Nat} {x : List Word × Nat} (hbs : bs ∈ [128, 256, 512])
    (hx : LegalBlock bs x) (hrd : Holds rd j (metaWords x.1 x.2)) (hwin : j + (metaWords x.1 x.2).length ≤ wend) :
    readGroup rd bs wend j = .ok (blockGroup x) :=
  readGroup_of_holds (blockSize_bounds hbs).2 hx.2 (buckets_length_le_widths x.1 x.2) (legal_of_mem_groupOf_buckets hx.1.le)
    hrd hwin

theorem readGroups_of_holds {rd : Nat → Except Raise Word} {bs wend j : Nat} {blks : List (List Word × Nat)}
    (hbs : bs ∈ [128, 256, 512]) (hblocks : ∀ x ∈ blks, LegalBlock bs x)
    (hrd : Holds rd j (blks.flatMap fun x => metaWords x.1 x.2))
    (hwin : j + (blks.flatMap fun x => metaWords x.1 x.2).length ≤ wend) :
    readGroups rd bs wend j blks.length = .ok (blks.map blockGroup) := by
  induction blks generalizing j with
  | nil => rfl
  | cons x blks ih =>
    obtain ⟨hx, hrest⟩ := List.forall_mem_cons.1 hblocks
    rw [List.flatMap_cons, holds_append_iff] at hrd
    rw [List.flatMap_cons, List.length_append] at hwin
    have hgroup := readGroup_of_block hbs hx hrd.1 (wend := wend) (by omega)
    have hgroups := ih hrest hrd.2 (by omega)
    rw [metaWords_length] at hgroups
    simp [readGroups, hgroup, hgroups]

/-- R221: the header of a page a reader holds, whole inside the window, parses. -/
theorem readHeader_of_holds {rd : Nat → Except Raise Word} {bs ps wend j : Nat} {blks : List (List Word × Nat)}
    (hconfig : legalConfig bs ps) (hpage : LegalPage bs ps blks) (hrd : Holds rd j (encPage bs blks))
    (hwin : j + (encPage bs blks).length ≤ wend) : readHeader rd bs ps wend j = .ok (pageHeader bs blks) := by
  have hbs : bs ∈ [128, 256, 512] := hconfig.1
  have hlen := one_le_encPage_length bs blks
  have hplen := plen_pageHeader hbs hpage.blocks
  obtain ⟨hhead, -⟩ := holds_append_iff.1 hrd
  obtain ⟨hh0, hmeta⟩ := holds_cons_iff.1 hhead
  have hcount : field (mkH0 bs blks.length) 8 24 = blks.length :=
    field_mkH0_count (log2_lt_of_blockSize hbs) (hpage.fits.trans hconfig.2.2.2)
  have hgroups : readGroups rd bs wend (j + 1) blks.length = .ok (blks.map blockGroup) := by
    refine readGroups_of_holds hbs hpage.blocks hmeta ?_
    rw [encPage, List.length_append, List.length_cons] at hwin
    omega
  have hnonempty : ¬wend ≤ j := by omega
  have hinside : ¬wend < j + (pageHeader bs blks).plen bs := by omega
  rw [readHeader, if_neg hnonempty, hh0]
  simp only [validH0_mkH0 hconfig hpage.nonempty hpage.fits, Bool.not_true, Bool.false_eq_true, if_false, hcount, hgroups]
  exact if_neg hinside

/-! ### The blocks decoded (R223) -/

/-- R223, R196: a block whose body a reader holds decodes to its values. -/
theorem decodeBlock_of_holds {rd : Nat → Except Raise Word} {bs a : Nat} {x : List Word × Nat} (hbs : bs ∈ [128, 256, 512])
    (hx : LegalBlock bs x) (hrd : Holds rd a (body bs.log2 x.1 x.2)) :
    decodeBlock rd bs a (blockGroup x) = .ok x.1 := by
  obtain ⟨rfl, hb⟩ := hx
  obtain ⟨hmain, hruns⟩ := holds_append_iff.1 hrd
  have hfit : x.1.length = 2 ^ x.1.length.log2 := (two_pow_log2_of_blockSize hbs).symm
  have hsmall : x.1.length ≤ 2 ^ 32 := (blockSize_bounds hbs).2.trans (by decide)
  have hlen : (pack x.1 x.2).length = x.1.length * x.2 / 32 := by rw [pack_length, packedLen_of_blockSize hbs]
  have hread : readRun rd a (x.1.length * x.2 / 32) = .ok (pack x.1 x.2) := hlen ▸ readRun_of_holds hmain
  rw [hlen] at hruns
  have hpatch := patch_main_of_holds hb hfit.le hsmall hruns
  simp only [decodeBlock, blockGroup, groupOf, hread]
  exact hpatch

/-- R223: blocks whose bodies a reader holds one after another decode to their values, where every word written answers. -/
theorem decodeBlocks_of_holds {rd : Nat → Except Raise Word} {p : Platform} {bs : Nat} {dirty : Nat × Nat} {i o j off : Nat}
    {blks : List (List Word × Nat)} (hbs : bs ∈ [128, 256, 512]) (hblocks : ∀ x ∈ blks, LegalBlock bs x)
    (hrd : Holds rd (j + off) (blks.flatMap fun x => body bs.log2 x.1 x.2))
    (hout : ∀ k < blks.length * bs, p.errs (o + 4 * k) = false) :
    decodeBlocks rd p bs dirty i o ((blks.map blockGroup).zip ((bodyOffsets bs off (blks.map blockGroup)).map (j + ·))) =
      .ok (pageValues blks) := by
  induction blks generalizing i o off with
  | nil => rfl
  | cons x blks ih =>
    obtain ⟨hx, hrest⟩ := List.forall_mem_cons.1 hblocks
    rw [List.flatMap_cons, holds_append_iff, body_length hbs hx, Nat.add_assoc] at hrd
    rw [List.length_cons, Nat.succ_mul] at hout
    have hblock := decodeBlock_of_holds hbs hx hrd.1
    have hwrite : writeFault p o bs = none := writeFault_none fun k hk => hout k (by omega)
    have htail := ih (i := i + 1) (o := o + 4 * bs) hrest hrd.2 fun k hk => by
      rw [Nat.add_assoc, ← Nat.mul_add]
      exact hout (bs + k) (by omega)
    simp only [List.map_cons, bodyOffsets, List.zip_cons_cons, decodeBlocks, hblock, hwrite, htail, pageValues_cons]

end Sys2Proof.Machine
end

section
/-! A paged command between two of its pages (R258): the part of its windows that is left, what a page's commit moves and keeps,
and the state its last commit leaves. -/

namespace Sys2Proof.Machine

/-! ### Ranges inside one another (R84, R260) -/

/-- Every byte of `r` is a byte of `t`. -/
def AddrRange.Within (r t : AddrRange) : Prop := r.lo < r.hi → t.lo ≤ r.lo ∧ r.hi ≤ t.hi

/-- Each window of `w` lies inside that of `v`. -/
structure Windows.Within (w v : Windows) : Prop where
  inWin  : w.inWin.Within v.inWin
  outWin : w.outWin.Within v.outWin
  tabWin : w.tabWin.Within v.tabWin

theorem AddrRange.overlaps_iff (r t : AddrRange) :
    r.overlaps t = true ↔ r.lo < r.hi ∧ t.lo < t.hi ∧ r.lo < t.hi ∧ t.lo < r.hi := by
  simp [AddrRange.overlaps, and_assoc]

theorem AddrRange.overlaps_mono {r r' t t' : AddrRange} (hr : r.Within r') (ht : t.Within t') (hover : r.overlaps t = true) :
    r'.overlaps t' = true := by
  rw [AddrRange.overlaps_iff] at hover ⊢
  obtain ⟨hrne, htne, hrt, htr⟩ := hover
  obtain ⟨hrlo, hrhi⟩ := hr hrne
  obtain ⟨htlo, hthi⟩ := ht htne
  omega

theorem AddrRange.apart_mono {r r' t t' : AddrRange} (hr : r.Within r') (ht : t.Within t') (hapart : r'.overlaps t' = false) :
    r.overlaps t = false :=
  Bool.eq_false_iff.2 fun hover => Bool.eq_false_iff.1 hapart (AddrRange.overlaps_mono hr ht hover)

theorem AddrRange.within_refl (r : AddrRange) : r.Within r := fun _ => ⟨le_rfl, le_rfl⟩

/-- The words of one run inside those of another of the same buffer. -/
theorem wordRange_within {base lo n lo' n' : Nat} (hlo : lo' ≤ lo) (hhi : lo + n ≤ lo' + n') :
    (wordRange base lo n).Within (wordRange base lo' n') := fun _ => by
  simp only [wordRange]
  omega

theorem has_wordRange_iff {base lo n a : Nat} :
    (wordRange base lo n).has a = true ↔ base + 4 * lo ≤ a ∧ a < base + 4 * (lo + n) := by
  rw [AddrRange.has, Bool.and_eq_true, decide_eq_true_eq, decide_eq_true_eq, wordRange]

/-- R260: smaller windows touch no erroring address that the larger ones do not. -/
theorem touchesBusErr_mono {s : State} {w v : Windows} (hwithin : w.Within v) (hcalm : touchesBusErr s v = false) :
    touchesBusErr s w = false := by
  rw [touchesBusErr, List.any_eq_false] at hcalm ⊢
  intro r hr hover
  refine hcalm r hr ?_
  simp only [Bool.or_eq_true] at hover ⊢
  obtain (hin | htab) | hout := hover
  · exact .inl (.inl (AddrRange.overlaps_mono r.within_refl hwithin.inWin hin))
  · exact .inl (.inr (AddrRange.overlaps_mono r.within_refl hwithin.tabWin htab))
  · exact .inr (AddrRange.overlaps_mono r.within_refl hwithin.outWin hout)

/-! ### Runs of words in memory -/

theorem wordsAt_append (s : State) (a m n : Nat) : wordsAt s a (m + n) = wordsAt s a m ++ wordsAt s (a + 4 * m) n := by
  simp [wordsAt, List.range_add, Nat.mul_add, Nat.add_assoc]

theorem inWords_append (s : State) (i m n : Nat) : inWords s i (m + n) = inWords s i m ++ inWords s (i + m) n := by
  rw [inWords, wordsAt_append, Nat.add_assoc, ← Nat.mul_add]
  rfl

theorem outWords_append (s : State) (i m n : Nat) : outWords s i (m + n) = outWords s i m ++ outWords s (i + m) n := by
  rw [outWords, wordsAt_append, outAddr, Nat.add_assoc, ← Nat.mul_add]
  rfl

theorem wordsAt_congr {s t : State} {a n : Nat} (hsame : ∀ k < n, t.mem.word (a + 4 * k) = s.mem.word (a + 4 * k)) :
    wordsAt t a n = wordsAt s a n :=
  List.map_congr_left fun k hk => hsame k (List.mem_range.1 hk)

/-! ### What is left of a command's windows (R84) -/

/-- The `left` words of the input window from the running cursor on, and the output window from there on. -/
def leftWindows (s : State) (run : Run) (left : Nat) : Windows where
  inWin := wordRange s.regs.inBase.toNat run.icur left
  outWin := wordRange s.regs.outBase.toNat run.ocur (s.regs.outBound.toNat - run.ocur)
  tabWin := .empty

/-- At issue, the input words a command may read and its whole output window are R84's windows. -/
theorem leftWindows_within_baseWindows {s : State} {left : Nat} (hfresh : s.scratch.run = none)
    (hleft : left ≤ s.regs.inLen.toNat) : (leftWindows s (issueRun s) left).Within (baseWindows s) := by
  have hrun : currentRun s = issueRun s := by simp [currentRun, hfresh]
  rw [baseWindows, hrun]
  exact ⟨wordRange_within le_rfl (Nat.add_le_add_left hleft _), AddrRange.within_refl _, AddrRange.within_refl _⟩

/-- A command with the plan `plan`, `i` in CMD, about to make its next unit at the cursors `run`: it runs undisturbed by the host,
its cursors agree with the registers and stay inside the buffers, and the input words it may still read are none of the
output words it may still write. -/
structure Paging (i : Instr) (plan : State → Plan) (s : State) (run : Run) (left : Nat) : Prop where
  busy      : s.regs.status.busy = true
  notDone   : s.regs.status.done = false
  command   : decode s.regs.cmd = .ok i
  noEvent   : s.host = []
  duty      : dutyBroken s = false
  config    : legalConfig (actBS s) (actPS s)
  memory    : s.mem.wf
  started   : started s (plan s) = .ok run
  inCursor  : s.regs.inCur.toNat = run.icur
  outCursor : s.regs.outCur.toNat = run.ocur
  inFits    : run.icur + left ≤ s.regs.inBound.toNat
  outFits   : run.ocur ≤ s.regs.outBound.toNat
  apart     : (leftWindows s run left).inWin.overlaps (leftWindows s run left).outWin = false

/-- `t` is `s` after a command at the cursors `run` finished with success, having consumed `used` input words and written `words`. -/
structure Finished (s t : State) (run : Run) (used : Nat) (words : List Word) : Prop where
  done      : t.regs.status.done = true
  idle      : t.regs.status.busy = false
  outBase   : t.regs.outBase = s.regs.outBase
  inCursor  : t.regs.inCur.toNat = run.icur + used
  outCursor : t.regs.outCur.toNat = run.ocur + words.length
  written   : outWords t run.ocur words.length = words
  kept      : ∀ a, a + 4 ≤ outAddr s run.ocur → t.mem.word a = s.mem.word a

/-! ### The prologue passed (R254) -/

theorem prologue_passed {s : State} {p : Plan} (hpass : prologue s p = none) :
    s.regs.inCur.toNat + s.regs.inLen.toNat ≤ s.regs.inBound.toNat ∧ s.regs.outCur.toNat ≤ s.regs.outBound.toNat ∧
      p.inWin.overlaps p.outWin = false := by
  obtain ⟨hin, hout, -, -, -, hlen, -, hapart, -⟩ := by simpa [prologue, ite_eq_iff] using hpass
  exact ⟨by omega, hout, hapart⟩

theorem started_of_prologue {s : State} {p : Plan} (hfresh : s.scratch.run = none) (hpass : prologue s p = none) :
    started s p = .ok (issueRun s) := by
  simp [started, hfresh, hpass]

/-- A fresh command whose windows are R84's input and output windows and whose prologue passes is about to make its first unit. -/
theorem paging_of_prologue {i : Instr} {plan : State → Plan} {s : State} {left : Nat} (hinv : Inv s)
    (hbusy : s.regs.status.busy = true) (hcmd : decode s.regs.cmd = .ok i) (hfresh : s.scratch.run = none)
    (hhost : s.host = []) (hduty : dutyBroken s = false) (hpass : prologue s (plan s) = none)
    (hin : (plan s).inWin = (baseWindows s).inWin) (hout : (plan s).outWin = (baseWindows s).outWin)
    (hleft : left ≤ s.regs.inLen.toNat) : Paging i plan s (issueRun s) left := by
  obtain ⟨hinFits, houtFits, hapart⟩ := prologue_passed hpass
  have hwithin := leftWindows_within_baseWindows hfresh hleft
  rw [hin, hout] at hapart
  exact
    { busy := hbusy
      notDone := (hinv.busyClear hbusy).1
      command := hcmd
      noEvent := hhost
      duty := hduty
      config := hinv.config
      memory := hinv.memory
      started := started_of_prologue hfresh hpass
      inCursor := rfl
      outCursor := rfl
      inFits := (Nat.add_le_add_left hleft _).trans hinFits
      outFits := houtFits
      apart := AddrRange.apart_mono hwithin.inWin hwithin.outWin hapart }

/-! ### A page's commit (R258) -/

section
variable {i : Instr} {plan : State → Plan} {s : State} {run : Run} {left : Nat} {d : UnitDone}

theorem leftWindows_commitUnit_within (hin : d.used ≤ left) (hout : run.ocur + d.words.length ≤ s.regs.outBound.toNat) :
    (leftWindows (commitUnit run d s) (run.after d) (left - d.used)).Within (leftWindows s run left) where
  inWin := wordRange_within (Nat.le_add_right _ _) (by simp only [Run.after]; omega)
  outWin := wordRange_within (Nat.le_add_right _ _) (by simp only [Run.after, commitUnit_regs]; omega)
  tabWin := AddrRange.within_refl _

namespace Paging

variable (hp : Paging i plan s run left)
include hp

theorem mem_after_commitUnit (run' : Run) (d : UnitDone) :
    (commitUnit run' d s).mem = s.mem.setWords (outAddr s run'.ocur) d.words := by
  rw [commitUnit_mem, writtenWords_calm hp.duty]

/-- The commit moves the command on to its next unit. -/
theorem after_commitUnit (hin : d.used ≤ left) (hout : run.ocur + d.words.length ≤ s.regs.outBound.toNat) :
    Paging i plan (commitUnit run d s) (run.after d) (left - d.used) where
  busy := hp.busy
  notDone := hp.notDone
  command := hp.command
  noEvent := hp.noEvent
  duty := hp.duty
  config := hp.config
  memory := commitUnit_wf hp.memory run d
  started := by simp [Machine.started]
  inCursor := by
    have := hp.inFits
    simp only [commitUnit_regs, BitVec.toNat_ofNat, Run.after]
    omega
  outCursor := by
    simp only [commitUnit_regs, BitVec.toNat_ofNat, Run.after]
    omega
  inFits := by
    have := hp.inFits
    simp only [commitUnit_regs, Run.after]
    omega
  outFits := hout
  apart :=
    have hwithin := leftWindows_commitUnit_within hin hout
    AddrRange.apart_mono hwithin.inWin hwithin.outWin hp.apart

/-- The unit's words stand in the output buffer. -/
theorem outWords_commitUnit : outWords (commitUnit run d s) run.ocur d.words.length = d.words :=
  List.ext_getElem (wordsAt_length _ _ _) fun k hk hk' => by
    refine (wordsAt_getElem _ _ _ k hk).trans ?_
    rw [hp.mem_after_commitUnit]
    exact Memory.word_setWords hp.memory _ _ _ hk'

/-- The input words still to be read stay. -/
theorem inWords_commitUnit (hin : d.used ≤ left) (hout : run.ocur + d.words.length ≤ s.regs.outBound.toNat) :
    inWords (commitUnit run d s) (run.icur + d.used) (left - d.used) = inWords s (run.icur + d.used) (left - d.used) := by
  refine wordsAt_congr fun k hk => ?_
  rw [hp.mem_after_commitUnit]
  by_cases hnone : d.words = []
  · rw [hnone]
    rfl
  have hsome : 0 < d.words.length := List.length_pos_iff.2 hnone
  have hapart := Bool.eq_false_iff.1 hp.apart
  rw [Ne, AddrRange.overlaps_iff] at hapart
  simp only [leftWindows, wordRange] at hapart
  refine Memory.word_setWords_other hp.memory _ ?_
  simp only [commitUnit_regs, outAddr]
  omega

/-- With no unit left the command finishes, having done nothing. -/
theorem finished_finish : Finished s (finish s) run 0 [] where
  done := rfl
  idle := rfl
  outBase := rfl
  inCursor := hp.inCursor
  outCursor := hp.outCursor
  written := rfl
  kept _ _ := rfl

/-- What a unit consumed and wrote comes before what the units after it did. -/
theorem finished_of_commitUnit {t : State} {used : Nat} {words : List Word}
    (hrest : Finished (commitUnit run d s) t (run.after d) used words) :
    Finished s t run (d.used + used) (d.words ++ words) where
  done := hrest.done
  idle := hrest.idle
  outBase := hrest.outBase
  inCursor := by rw [hrest.inCursor, Run.after, Nat.add_assoc]
  outCursor := by rw [hrest.outCursor, Run.after, List.length_append, Nat.add_assoc]
  written := by
    have hbefore : outWords t run.ocur d.words.length = outWords (commitUnit run d s) run.ocur d.words.length := by
      have haddr : outAddr t run.ocur = outAddr (commitUnit run d s) run.ocur := by rw [outAddr, hrest.outBase]; rfl
      rw [outWords, outWords, haddr]
      refine wordsAt_congr fun k hk => hrest.kept _ ?_
      simp only [outAddr, Run.after]
      omega
    have hafter : outWords t (run.ocur + d.words.length) words.length = words := hrest.written
    rw [List.length_append, outWords_append, hbefore, hp.outWords_commitUnit, hafter]
  kept a ha := by
    rw [hrest.kept a, hp.mem_after_commitUnit, Memory.word_setWords_other hp.memory _ (.inl ha)]
    simp only [outAddr, commitUnit_regs, Run.after] at ha ⊢
    omega

end Paging

end

end Sys2Proof.Machine
end

section
/-! ENCODE (R210, R232): the values it reads make legal pages, and when it finishes it has written a stream of them. -/

namespace Sys2Proof.Machine

/-! ### Runs of the machine -/

section
variable {s s' t : State}

theorem run_succ_of_step (hstep : step s = .next s') (m : Nat) :
    Host.Core.run Sys2Proof.core (m + 1) s = Host.Core.run Sys2Proof.core m s' := by
  have hcore : Sys2Proof.core.step s = .next s' := hstep
  simp only [Host.Core.run, hcore]

/-- R270: an idle engine without a host event keeps its state. -/
theorem run_of_idle (hhost : s.host = []) (hidle : s.regs.status.busy = false) (m : Nat) :
    Host.Core.run Sys2Proof.core m s = .next s := by
  have hstep : step s = .next s := by simp [step_of_no_event hhost, engineMove, hidle]
  induction m with
  | zero => rfl
  | succ m ih => rw [run_succ_of_step hstep, ih]

/-- A run that comes to DONE by a step after which the engine is idle ends there. -/
theorem eq_of_run_of_last_step {m : Nat} (hstep : step s = .next s') (hhost : s'.host = [])
    (hidle : s'.regs.status.busy = false) (hrun : Host.Core.run Sys2Proof.core (m + 1) s = .next t) : t = s' := by
  rw [run_succ_of_step hstep, run_of_idle hhost hidle] at hrun
  exact (Host.Outcome.next.inj hrun).symm

end

/-! ### Blocks cut from the values (R210) -/

@[simp] theorem blocksOf_length (bs n : Nat) (vals : List Word) : (blocksOf bs n vals).length = n := by
  induction n generalizing vals with
  | zero => rfl
  | succ n ih => rw [blocksOf, List.length_cons, ih]

theorem length_of_mem_blocksOf {bs n : Nat} {vals : List Word} (hlen : vals.length = n * bs) :
    ∀ x ∈ blocksOf bs n vals, x.length = bs := by
  induction n generalizing vals with
  | zero => simp [blocksOf]
  | succ n ih =>
    rw [Nat.succ_mul] at hlen
    refine List.forall_mem_cons.2 ⟨?_, ih ?_⟩
    · rw [List.length_take]
      omega
    · rw [List.length_drop]
      omega

theorem flatten_blocksOf {bs n : Nat} {vals : List Word} (hlen : vals.length = n * bs) : (blocksOf bs n vals).flatten = vals := by
  induction n generalizing vals with
  | zero => exact (List.eq_nil_of_length_eq_zero (hlen.trans (Nat.zero_mul bs))).symm
  | succ n ih =>
    rw [Nat.succ_mul] at hlen
    have hrest : (vals.drop bs).length = n * bs := by
      rw [List.length_drop]
      omega
    rw [blocksOf, List.flatten_cons, ih hrest, List.take_append_drop]

theorem pageValues_zip {xs : List (List Word)} {ws : List Nat} (hlen : xs.length ≤ ws.length) :
    pageValues (xs.zip ws) = xs.flatten := by
  rw [pageValues, List.flatMap_def, List.map_fst_zip hlen]

/-! ### What ENCODE reads (R232) -/

/-- Reads that all answer give the words of memory. -/
theorem eq_inWords_of_readRun {s : State} (hduty : dutyBroken s = false) {i n : Nat} {vals : List Word}
    (hread : readRun (inRd s) i n = .ok vals) : vals = inWords s i n := by
  induction n generalizing i vals with
  | zero => exact (Except.ok.inj hread).symm
  | succ n ih =>
    simp only [readRun] at hread
    split at hread
    case h_1 => cases hread
    case h_2 w hw =>
      split at hread
      case h_1 => cases hread
      case h_2 ws hws =>
        have hword : w = s.mem.word (inAddr s i) := by
          simp only [inRd, memRead, hduty] at hw
          split at hw
          · cases hw
          · exact (Except.ok.inj hw).symm
        rw [← Except.ok.inj hread, ih hws, hword, Nat.add_comm n, inWords_append]
        rfl

theorem width_le_of_validBW {w : Word} (hvalid : validBW w = true) : field w 0 6 ≤ 32 := by
  rw [validBW, Bool.and_eq_true, decide_eq_true_eq] at hvalid
  exact hvalid.2

/-- R125: the widths read from the table are legal. -/
theorem readWidths_ok {rd : Nat → Except Raise Word} {k n : Nat} {ws : List Nat} (hread : readWidths rd k n = .ok ws) :
    ws.length = n ∧ ∀ b ∈ ws, b ≤ 32 := by
  induction n generalizing k ws with
  | zero => simp [← Except.ok.inj hread]
  | succ n ih =>
    simp only [readWidths] at hread
    split at hread
    case h_1 => cases hread
    case h_2 w _ =>
      split at hread
      case isTrue => cases hread
      case isFalse hvalid =>
        split at hread
        case h_1 => cases hread
        case h_2 bs hbs =>
          obtain ⟨hlen, hle⟩ := ih hbs
          have hb : field w 0 6 ≤ 32 := width_le_of_validBW (by simpa using hvalid)
          rw [← Except.ok.inj hread]
          exact ⟨congrArg Nat.succ hlen, List.forall_mem_cons.2 ⟨hb, hle⟩⟩

/-- R232: a page that was read is the next `n` blocks of the input, each with a legal width. -/
theorem readPage_ok {bw : Nat → Except Raise Word} {s : State} {run : Run} {blks : List (List Word × Nat)}
    (hduty : dutyBroken s = false) (hread : readPage bw (inRd s) s run = .ok blks) :
    blks.length = pageCount s run ∧ (∀ x ∈ blks, LegalBlock (actBS s) x) ∧
      pageValues blks = inWords s run.icur (pageCount s run * actBS s) := by
  simp only [readPage] at hread
  split at hread
  case h_1 => cases hread
  case h_2 ws hws =>
    split at hread
    case h_1 => cases hread
    case h_2 vals hvals =>
      obtain rfl := eq_inWords_of_readRun hduty hvals
      obtain ⟨hlen, hwidths⟩ := readWidths_ok hws
      have hcount : (inWords s run.icur (pageCount s run * actBS s)).length = pageCount s run * actBS s :=
        wordsAt_length s _ _
      rw [← Except.ok.inj hread]
      refine ⟨by simp [hlen], fun x hx => ?_, ?_⟩
      · obtain ⟨hblock, hwidth⟩ := List.of_mem_zip hx
        exact ⟨length_of_mem_blocksOf hcount _ hblock, hwidths _ hwidth⟩
      · rw [pageValues_zip (by simp [hlen]), flatten_blocksOf hcount]

theorem pageBlocks_pos {s : State} (hconfig : legalConfig (actBS s) (actPS s)) : 0 < pageBlocks s := by
  obtain ⟨hbs, hps, hmul, -⟩ := hconfig
  exact Nat.div_pos (Nat.le_of_dvd hps (Nat.dvd_of_mod_eq_zero hmul)) (blockSize_bounds hbs).1

/-- R232: a unit of ENCODE that succeeds encodes its next blocks as one legal page that fits the output buffer. -/
theorem encodeUnit_ok {s : State} {run : Run} {d : UnitDone} (hduty : dutyBroken s = false)
    (hconfig : legalConfig (actBS s) (actPS s)) (hmore : run.k < blockCount s) (hunit : encodeUnit s run = .ok d) :
    ∃ blks, LegalPage (actBS s) (actPS s) blks ∧ d.words = encPage (actBS s) blks ∧
      d.used = pageCount s run * actBS s ∧ d.units = pageCount s run ∧ pageValues blks = inWords s run.icur d.used ∧
      run.ocur + d.words.length ≤ s.regs.outBound.toNat := by
  simp only [encodeUnit] at hunit
  split at hunit
  case h_1 => cases hunit
  case h_2 blks hread =>
    split at hunit
    case isTrue => cases hunit
    case isFalse hfits =>
      obtain ⟨hlen, hblocks, hvalues⟩ := readPage_ok hduty hread
      have hpage := pageBlocks_pos hconfig
      rw [← Except.ok.inj hunit]
      refine ⟨blks, ⟨?_, ?_, hblocks⟩, rfl, rfl, rfl, hvalues, not_lt.1 hfits⟩
      · rw [hlen, pageCount]
        omega
      · rw [hlen]
        exact Nat.min_le_left _ _

/-! ### The stream ENCODE writes (R213) -/

/-- R213: the words of a stream, page after page. -/
def streamWords (bs : Nat) (pages : List (List (List Word × Nat))) : List Word := pages.flatMap (encPage bs)

/-- The values of a stream, page after page. -/
def streamValues (pages : List (List (List Word × Nat))) : List Word := pages.flatMap pageValues

theorem streamWords_cons (bs : Nat) (blks : List (List Word × Nat)) (pages : List (List (List Word × Nat))) :
    streamWords bs (blks :: pages) = encPage bs blks ++ streamWords bs pages := rfl

theorem streamValues_cons (blks : List (List Word × Nat)) (pages : List (List (List Word × Nat))) :
    streamValues (blks :: pages) = pageValues blks ++ streamValues pages := rfl

/-- The values of the whole blocks ENCODE has not consumed (R210). -/
def valuesLeft (s : State) (run : Run) : Nat := (blockCount s - run.k) * actBS s

/-- `t` is `s` after ENCODE consumed the whole blocks left, wrote a stream of legal pages that hold their values, and finished. -/
def Encoded (s t : State) (run : Run) : Prop :=
  ∃ pages, (∀ blks ∈ pages, LegalPage (actBS s) (actPS s) blks) ∧ streamValues pages = inWords s run.icur (valuesLeft s run) ∧
    Finished s t run (valuesLeft s run) (streamWords (actBS s) pages)

/-- ENCODE between two of its pages. -/
abbrev Encoding (s : State) (run : Run) : Prop := Paging .encode encodePlan s run (valuesLeft s run)

section
variable {s t : State} {run : Run} {d : UnitDone}

theorem encoded_finish (hp : Encoding s run) (hnone : blockCount s ≤ run.k) : Encoded s (finish s) run := by
  have hleft : valuesLeft s run = 0 := by rw [valuesLeft, Nat.sub_eq_zero_of_le hnone, Nat.zero_mul]
  refine ⟨[], by simp, ?_, ?_⟩ <;> rw [hleft]
  · rfl
  · exact hp.finished_finish

/-- A page ENCODE commits moves it on to the blocks after, and stands before the pages of those. -/
theorem encoded_of_commitUnit (hp : Encoding s run) (hmore : run.k < blockCount s) (hunit : encodeUnit s run = .ok d) :
    Encoding (commitUnit run d s) (run.after d) ∧
      (Encoded (commitUnit run d s) t (run.after d) → Encoded s t run) := by
  obtain ⟨blks, hlegal, hwords, hused, hunits, hvalues, hfits⟩ := encodeUnit_ok hp.duty hp.config hmore hunit
  have hle : d.used ≤ valuesLeft s run := hused.trans_le (Nat.mul_le_mul_right _ (Nat.min_le_right _ _))
  have hleft : valuesLeft (commitUnit run d s) (run.after d) = valuesLeft s run - d.used := by
    rw [valuesLeft, valuesLeft, hused, ← hunits, ← Nat.sub_mul, Nat.sub_sub]
    rfl
  refine ⟨?_, ?_⟩
  · rw [Encoding, hleft]
    exact hp.after_commitUnit hle hfits
  · rintro ⟨pages, hpages, hrest, hfinished⟩
    rw [hleft] at hrest hfinished
    refine ⟨blks :: pages, List.forall_mem_cons.2 ⟨hlegal, hpages⟩, ?_, ?_⟩ <;> rw [← Nat.add_sub_of_le hle]
    · rw [streamValues_cons, hvalues, hrest, inWords_append]
      exact congrArg _ (hp.inWords_commitUnit hle hfits)
    · rw [streamWords_cons, ← hwords]
      exact hp.finished_of_commitUnit hfinished

/-- R232: an ENCODE that comes to DONE has encoded all the whole blocks left. -/
theorem encoded_of_run {m : Nat} (hp : Encoding s run) (hrun : Host.Core.run Sys2Proof.core m s = .next t)
    (hdone : t.regs.status.done = true) : Encoded s t run := by
  induction m generalizing s run with
  | zero =>
    obtain rfl := Host.Outcome.next.inj hrun
    exact absurd hdone (by simp [hp.notDone])
  | succ m ih =>
    have hstep : step s = .next (turn (encodePlan s) (encodeUnits s) s) :=
      step_of_running_command hp.noEvent hp.busy hp.command
    obtain ⟨r, hstart, -⟩ | ⟨run', hstart, hmore, hturn⟩ | ⟨run', r, hstart, -, hturn, -⟩ |
      ⟨run', d, hstart, hmore, -, hunit, -, hturn⟩ := turn_cases (encodePlan s) (encodeUnits s) s <;>
      have hrun' := hp.started.symm.trans hstart
    case inl => cases hrun'
    case inr.inl =>
      obtain rfl := Except.ok.inj hrun'
      rw [hturn] at hstep
      obtain rfl := eq_of_run_of_last_step hstep hp.noEvent rfl hrun
      exact encoded_finish hp (not_lt.1 (of_decide_eq_false hmore))
    case inr.inr.inl =>
      rw [hturn] at hstep
      obtain rfl := eq_of_run_of_last_step hstep (by simp [hp.noEvent]) (by simp) hrun
      simp [hp.notDone] at hdone
    case inr.inr.inr =>
      obtain rfl := Except.ok.inj hrun'
      obtain ⟨hnext, hencoded⟩ := encoded_of_commitUnit (t := t) hp (of_decide_eq_true hmore) hunit
      refine hencoded ?_
      rw [hturn] at hstep
      split at hstep
      case isTrue =>
        rw [run_succ_of_step hstep] at hrun
        exact ih hnext hrun
      case isFalse hlast =>
        obtain rfl := eq_of_run_of_last_step hstep hnext.noEvent rfl hrun
        exact encoded_finish hnext (not_lt.1 (of_decide_eq_false (Bool.eq_false_iff.2 hlast)))

end

end Sys2Proof.Machine
end

section
/-! DECODE (R223, R236): it turns a stream of legal pages back into the stream's values; with ENCODE's half, the round trip (R245). -/

namespace Sys2Proof.Machine

/-! ### A unit that nothing disturbs -/

section
variable {s : State} {run : Run}

theorem turn_of_unit {p : Plan} {u : Units} {d : UnitDone} (hstart : started s p = .ok run) (hmore : u.more run = true)
    (hbus : busOutcome s p.readsOut (u.win run) = none) (hunit : u.unit run = .ok d)
    (hwrite : writeFault s.plat (outAddr s run.ocur) d.words.length = none) :
    turn p u s = if u.more (run.after d) then commitUnit run d s else finish (commitUnit run d s) := by
  simp [turn, hstart, hmore, hbus, hunit, hwrite]

theorem turn_of_no_unit {p : Plan} {u : Units} (hstart : started s p = .ok run) (hnone : u.more run = false) :
    turn p u s = finish s := by
  simp [turn, hstart, hnone]

theorem outputExtent_le (n : Option Nat) : outputExtent s run n ≤ s.regs.outBound.toNat - run.ocur := by
  cases n with
  | none => exact le_rfl
  | some n => exact Nat.min_le_right _ _

/-- Words that stand in the input buffer at addresses that do not err are held by the engine's reader. -/
theorem holds_of_inWords {i : Nat} {ws : List Word} (hduty : dutyBroken s = false) (hin : inWords s i ws.length = ws)
    (hcalm : ∀ k < ws.length, s.plat.errs (inAddr s (i + k)) = false) : Holds (inRd s) i ws := by
  intro k hk
  have hword : s.mem.word (inAddr s (i + k)) = ws[k] := by
    have hget := wordsAt_getElem s (inAddr s i) ws.length k (by simpa using hk)
    simp only [inAddr, Nat.mul_add, ← Nat.add_assoc] at hget ⊢
    rw [← hget]
    exact List.getElem_of_eq hin _
  rw [← hword]
  exact memRead_calm hduty (hcalm k hk)

/-- Where the engine's reader answers, the quiet one reads the same words (R259). -/
theorem holds_quietIn {i : Nat} {ws : List Word} (hrd : Holds (inRd s) i ws) : Holds (quietIn s) i ws :=
  fun k hk => quietRead_of_memRead (hrd k hk)

theorem errs_in_of_calm {left : Nat} (hcalm : touchesBusErr s (leftWindows s run left) = false) {k : Nat} (hk : k < left) :
    s.plat.errs (inAddr s (run.icur + k)) = false := by
  refine errs_of_undisturbed hcalm (.inl (has_wordRange_iff.2 ?_))
  rw [inAddr]
  omega

theorem errs_out_of_calm {left : Nat} (hcalm : touchesBusErr s (leftWindows s run left) = false) {k : Nat}
    (hk : run.ocur + k < s.regs.outBound.toNat) : s.plat.errs (outAddr s run.ocur + 4 * k) = false := by
  refine errs_of_undisturbed hcalm (.inr (.inr (has_wordRange_iff.2 ?_)))
  rw [outAddr]
  omega

end

/-! ### A page of DECODE (R223) -/

/-- DECODE about to decode the stream `pages`: it stands in the input window and ends it, nothing errs in the windows, and its values
fit the output buffer. -/
structure Decoding (s : State) (run : Run) (pages : List (List (List Word × Nat))) : Prop extends
    Paging .decode decodePlan s run (streamWords (actBS s) pages).length where
  calm   : touchesBusErr s (leftWindows s run (streamWords (actBS s) pages).length) = false
  window : run.icur0 + s.regs.inLen.toNat = run.icur + (streamWords (actBS s) pages).length
  legal  : ∀ blks ∈ pages, LegalPage (actBS s) (actPS s) blks
  stream : inWords s run.icur (streamWords (actBS s) pages).length = streamWords (actBS s) pages
  room   : run.ocur + (streamValues pages).length ≤ s.regs.outBound.toNat

/-- What DECODE's unit leaves of an encoded page (R223). -/
def decodedPage (bs : Nat) (blks : List (List Word × Nat)) : UnitDone where
  words := pageValues blks
  used := (encPage bs blks).length
  rd := (encPage bs blks).length
  exc := ((blks.map blockGroup).map fun g => groupExceptions g.buckets).sum
  units := 1
  groups := blks.map blockGroup

section
variable {s : State} {run : Run}

/-- R223: DECODE's unit on a page its reader holds. -/
theorem decodeUnit_of_holds {blks : List (List Word × Nat)} (hconfig : legalConfig (actBS s) (actPS s))
    (hpage : LegalPage (actBS s) (actPS s) blks) (hrd : Holds (inRd s) run.icur (encPage (actBS s) blks))
    (hwin : run.icur + (encPage (actBS s) blks).length ≤ run.icur0 + s.regs.inLen.toNat)
    (hroom : run.ocur + (pageValues blks).length ≤ s.regs.outBound.toNat)
    (hcalm : ∀ k < (pageValues blks).length, s.plat.errs (outAddr s run.ocur + 4 * k) = false) :
    decodeUnit s run = .ok (decodedPage (actBS s) blks) := by
  have hbs : actBS s ∈ [128, 256, 512] := hconfig.1
  have hheader := readHeader_of_holds hconfig hpage hrd hwin
  have hgroups : (pageHeader (actBS s) blks).groups.length * actBS s = (pageValues blks).length := by
    rw [pageValues_length hpage.blocks, pageHeader, List.length_map]
  have hfits : ¬s.regs.outBound.toNat < run.ocur + (pageValues blks).length := not_lt.2 hroom
  have hbodies : Holds (inRd s) (run.icur + (pageHeader (actBS s) blks).hlen)
      (blks.flatMap fun x => body (actBS s).log2 x.1 x.2) := by
    rw [hlen_pageHeader, Nat.add_comm 1]
    exact (holds_append_iff.1 hrd).2
  rw [pageValues_length hpage.blocks] at hcalm
  have hblocks : decodeBlocks (inRd s) s.plat (actBS s) (run.ocur, (pageValues blks).length) 0 (outAddr s run.ocur)
      ((pageHeader (actBS s) blks).groups.zip (((pageHeader (actBS s) blks).offsets (actBS s)).map (run.icur + ·))) =
      .ok (pageValues blks) := decodeBlocks_of_holds hbs hpage.blocks hbodies hcalm
  simp only [decodeUnit, hheader, hgroups, if_neg hfits, hblocks, plen_pageHeader hbs hpage.blocks]
  rfl

/-- A page's own windows are part of what is left of DECODE's (R260). -/
theorem decodeUnitWindows_within {left : Nat} {p : Header} (hheader : quietHeader s run = .ok p) (hlen : p.plen (actBS s) ≤ left) :
    (decodeUnitWindows s run).Within (leftWindows s run left) where
  inWin := by
    simp only [decodeUnitWindows, hheader]
    exact wordRange_within le_rfl (Nat.add_le_add_left hlen _)
  outWin := wordRange_within le_rfl (Nat.add_le_add_left (outputExtent_le _) _)
  tabWin := AddrRange.within_refl _

namespace Decoding

variable {blks : List (List Word × Nat)} {pages : List (List (List Word × Nat))}

/-- R236: a page is left exactly while the stream has one. -/
theorem more_iff (hd : Decoding s run pages) : (decodeUnits s).more run = true ↔ pages ≠ [] := by
  rw [decodeUnits, decide_eq_true_eq, hd.window, Nat.lt_add_right_iff_pos, List.length_pos_iff]
  cases pages with
  | nil => simp [streamWords]
  | cons blks pages => simp [streamWords, encPage]

/-- DECODE's move on the next page of the stream commits the page's values. -/
theorem step_eq (hd : Decoding s run (blks :: pages)) :
    step s = .next (if (decodeUnits s).more (run.after (decodedPage (actBS s) blks))
      then commitUnit run (decodedPage (actBS s) blks) s
      else finish (commitUnit run (decodedPage (actBS s) blks) s)) := by
  have hpage : LegalPage (actBS s) (actPS s) blks := hd.legal blks List.mem_cons_self
  have hlen : (encPage (actBS s) blks).length ≤ (streamWords (actBS s) (blks :: pages)).length := by
    simp [streamWords_cons]
  have hwin : run.icur + (encPage (actBS s) blks).length ≤ run.icur0 + s.regs.inLen.toNat :=
    (Nat.add_le_add_left hlen _).trans_eq hd.window.symm
  have hroom : run.ocur + (pageValues blks).length ≤ s.regs.outBound.toNat := by
    have hstream := hd.room
    rw [streamValues_cons, List.length_append] at hstream
    omega
  have hrd : Holds (inRd s) run.icur (encPage (actBS s) blks) :=
    (holds_append_iff.1 (holds_of_inWords hd.duty hd.stream fun k => errs_in_of_calm hd.calm)).1
  have hout : ∀ k < (pageValues blks).length, s.plat.errs (outAddr s run.ocur + 4 * k) = false :=
    fun k hk => errs_out_of_calm hd.calm (by omega)
  have hquiet : quietHeader s run = .ok (pageHeader (actBS s) blks) :=
    readHeader_of_holds hd.config hpage (holds_quietIn hrd) hwin
  have hbus : touchesBusErr s (decodeUnitWindows s run) = false :=
    touchesBusErr_mono (decodeUnitWindows_within hquiet ((plen_pageHeader hd.config.1 hpage.blocks).trans_le hlen)) hd.calm
  rw [step_of_running_command hd.noEvent hd.busy hd.command, exec, execDecode,
    turn_of_unit hd.started (hd.more_iff.2 (List.cons_ne_nil _ _)) (busOutcome_undisturbed hbus)
      (decodeUnit_of_holds hd.config hpage hrd hwin hroom hout) (writeFault_none hout)]

/-- After a page's commit DECODE stands before the rest of the stream. -/
theorem after_commitUnit (hd : Decoding s run (blks :: pages)) :
    Decoding (commitUnit run (decodedPage (actBS s) blks) s) (run.after (decodedPage (actBS s) blks)) pages := by
  have hleft : (streamWords (actBS s) (blks :: pages)).length - (encPage (actBS s) blks).length =
      (streamWords (actBS s) pages).length := by
    simp [streamWords_cons]
  have hle : (decodedPage (actBS s) blks).used ≤ (streamWords (actBS s) (blks :: pages)).length := by
    simp [streamWords_cons, decodedPage]
  have hfits : run.ocur + (pageValues blks).length + (streamValues pages).length ≤ s.regs.outBound.toNat := by
    have hstream := hd.room
    rwa [streamValues_cons, List.length_append, ← Nat.add_assoc] at hstream
  have hout : run.ocur + (decodedPage (actBS s) blks).words.length ≤ s.regs.outBound.toNat := by
    simp only [decodedPage]
    omega
  have hnext := hd.toPaging.after_commitUnit hle hout
  have hcalm := touchesBusErr_mono (leftWindows_commitUnit_within hle hout) hd.calm
  have hkept := hd.inWords_commitUnit hle hout
  simp only [decodedPage, hleft] at hnext hcalm hkept ⊢
  refine { toPaging := hnext, calm := hcalm, window := ?_, legal := fun b hb => hd.legal b (List.mem_cons_of_mem _ hb),
           stream := ?_, room := hfits }
  · have hwindow := hd.window
    rw [streamWords_cons, List.length_append, ← Nat.add_assoc] at hwindow
    exact hwindow
  · have hstream := hd.stream
    rw [streamWords_cons, List.length_append, inWords_append] at hstream
    exact hkept.trans (List.append_inj_right hstream (wordsAt_length s _ _))

/-- R236: DECODE of a stream of legal pages finishes, having written the stream's values. -/
theorem run_finishes (hd : Decoding s run pages) :
    ∃ (k : Nat) (v : State), Host.Core.run Sys2Proof.core k s = .next v ∧
      Finished s v run (streamWords (actBS s) pages).length (streamValues pages) := by
  induction pages generalizing s run with
  | nil =>
    have hnone : (decodeUnits s).more run = false := Bool.eq_false_iff.2 fun hmore => hd.more_iff.1 hmore rfl
    have hstep : step s = .next (finish s) := by
      rw [step_of_running_command hd.noEvent hd.busy hd.command, exec, execDecode, turn_of_no_unit hd.started hnone]
    exact ⟨1, finish s, run_succ_of_step hstep 0, hd.finished_finish⟩
  | cons blks pages ih =>
    have hnext := hd.after_commitUnit
    have hmore := hnext.more_iff
    have hstep := hd.step_eq
    rw [streamWords_cons, List.length_append, streamValues_cons]
    split at hstep
    case isTrue =>
      obtain ⟨k, v, hrun, hfinished⟩ := ih hnext
      exact ⟨k + 1, v, (run_succ_of_step hstep k).trans hrun, hd.finished_of_commitUnit hfinished⟩
    case isFalse hlast =>
      obtain rfl : pages = [] := not_not.1 fun hne => hlast (hmore.2 hne)
      exact ⟨1, _, run_succ_of_step hstep 0, hd.finished_of_commitUnit hnext.finished_finish⟩

end Decoding

end

/-! ### The round trip (R245) -/

/-- An ENCODE that comes to DONE passed its prologue. -/
theorem encode_prologue_of_run {s t : State} {m : Nat} (hbusy : s.regs.status.busy = true) (hnot : s.regs.status.done = false)
    (hcmd : decode s.regs.cmd = .ok .encode) (hfresh : s.scratch.run = none) (hhost : s.host = [])
    (hrun : Host.Core.run Sys2Proof.core m s = .next t) (hdone : t.regs.status.done = true) :
    prologue s (encodePlan s) = none := by
  cases hpass : prologue s (encodePlan s) with
  | none => rfl
  | some r =>
    have hstep : step s = .next (raiseError r s) := by
      rw [step_of_running_command hhost hbusy hcmd, exec, execEncode]
      simp [turn, started, hfresh, hpass]
    cases m with
    | zero =>
      obtain rfl := Host.Outcome.next.inj hrun
      simp [hnot] at hdone
    | succ m =>
      obtain rfl := eq_of_run_of_last_step hstep hhost rfl hrun
      simp [hnot] at hdone

/-- Settles O57: ENCODE wrote a stream of legal pages (`encoded_of_run`), and DECODE turns it back (`Decoding.run_finishes`). -/
theorem decodeRestoresWhatEncodeConsumed : Obligations.DecodeRestoresWhatEncodeConsumed := by
  intro s t u m hinvS hbusyS hcmdS hfreshS hhostS hcalmS hrun hdone hinvU hbusyU hcmdU hfreshU hhostU hcalmU hpassU hbs hps
    l n hlen hin hroom
  have hpassS := encode_prologue_of_run hbusyS (hinvS.busyClear hbusyS).1 hcmdS hfreshS hhostS hrun hdone
  have hencoding : Encoding s (issueRun s) :=
    paging_of_prologue hinvS hbusyS hcmdS hfreshS hhostS hcalmS.2 hpassS rfl rfl (Nat.div_mul_le_self _ _)
  obtain ⟨pages, hlegal, hvalues, hfinished⟩ := encoded_of_run hencoding hrun hdone
  have hl : l = (streamWords (actBS s) pages).length := by
    simp [l, hfinished.outCursor, issueRun]
  have hn : n = (streamValues pages).length := by
    rw [hvalues]
    exact (wordsAt_length s _ _).symm
  have hstream : outWords t s.regs.outCur.toNat l = streamWords (actBS s) pages := hl ▸ hfinished.written
  have hpaging : Paging .decode decodePlan u (issueRun u) l :=
    paging_of_prologue hinvU hbusyU hcmdU hfreshU hhostU hcalmU.2 hpassU rfl rfl hlen.ge
  have hlenU : (streamWords (actBS u) pages).length = l := by rw [hbs, hl]
  have hdecoding : Decoding u (issueRun u) pages :=
    { toPaging := hlenU ▸ hpaging
      calm := touchesBusErr_mono (leftWindows_within_baseWindows hfreshU (hlenU.trans hlen.symm).le) hcalmU.1
      window := by rw [hlenU, hlen]; rfl
      legal := by rwa [hbs, hps]
      stream := by rw [hlenU, hbs]; exact hin.trans hstream
      room := hn ▸ hroom }
  obtain ⟨k, v, hrunU, hv⟩ := hdecoding.run_finishes
  have hwritten : outWords v u.regs.outCur.toNat n = streamValues pages := hn ▸ hv.written
  exact ⟨k, v, hrunU, hv.done, hv.idle, hwritten.trans hvalues, hlenU ▸ hv.inCursor, hn ▸ hv.outCursor⟩

end Sys2Proof.Machine
end

section
/-! The interrupt line (R262): its level, and the host's writes and resets that move it. -/

namespace Sys2Proof.Machine

/-- R262, as a proposition over the two enabled flags. -/
theorem irq_iff (s : State) : s.irq = true ↔ (s.regs.status.done = true ∧ s.regs.irqEn.doneIe = true) ∨
    (s.regs.status.err = true ∧ s.regs.irqEn.errIe = true) := by
  simp [State.irq]

theorem irq_eq_false_of_flags_clear {s : State} (hdone : s.regs.status.done = false) (herr : s.regs.status.err = false) :
    s.irq = false := by
  simp [State.irq, hdone, herr]

/-- R37: a flag stays up where it was up and the write does not acknowledge it. -/
@[simp] theorem ackWrite_done (t : Status) (v : Word) : (t.ackWrite v).done = (t.done && !v.getLsbD 1) := rfl
@[simp] theorem ackWrite_err (t : Status) (v : Word) : (t.ackWrite v).err = (t.err && !v.getLsbD 2) := rfl

theorem step_of_rstN {s : State} {es : List HostEvent} (hhost : s.host = .rstN :: es) :
    step s = .next (resetEngine { s with host := es }) := by
  simp only [step, hhost, hostMove]

/-- Settles O8: the level is a function of the two flags and the two enables (`irq_iff`); the writes of IRQ_EN and STATUS set or clear
these one by one, and issue and `rst_n` clear both flags. -/
theorem irqFollowsDoneAndErr : Obligations.IrqFollowsDoneAndErr := by
  refine ⟨irq_iff, irq_eq_false_of_flags_clear rfl rfl, ?enable, ?acknowledge, ?issue, ?reset⟩
  case enable =>
    intro s v es hhost
    exact ⟨_, step_of_accepted_write hhost (.inr rfl), irq_iff _⟩
  case acknowledge =>
    intro s v es hhost
    refine ⟨_, step_of_accepted_write hhost (.inr rfl), ?_⟩
    simp [irq_iff, Reg.write, and_assoc]
  case issue =>
    intro s w es hhost hidle
    exact ⟨_, step_of_accepted_write hhost (.inl hidle), irq_eq_false_of_flags_clear rfl rfl⟩
  case reset =>
    intro s es hhost
    exact ⟨_, step_of_rstN hhost, irq_eq_false_of_flags_clear rfl rfl⟩

end Sys2Proof.Machine
end

section
/-! Reset (R290): the reset engine keeps the platform and the host's events, and a register's reading is a function of the register
file. -/

namespace Sys2Proof.Machine

/-! ### The unit a reset drops (R291) -/

theorem unitInFlight_of_idle {s : State} (hidle : s.regs.status.busy = false) : unitInFlight s = none := by
  simp [unitInFlight, hidle]

theorem dropUnit_of_no_unit {s : State} (hunit : unitInFlight s = none) : dropUnit s = s := by
  simp [dropUnit, hunit]

@[simp] theorem dropUnit_plat (s : State) : (dropUnit s).plat = s.plat := by
  unfold dropUnit; split <;> rfl

@[simp] theorem dropUnit_host (s : State) : (dropUnit s).host = s.host := by
  unfold dropUnit; split <;> rfl

/-! ### The engine after a reset (R290) -/

@[simp] theorem resetEngine_scratch (s : State) : (resetEngine s).scratch = Scratch.empty := rfl
@[simp] theorem resetEngine_plat (s : State) : (resetEngine s).plat = s.plat := dropUnit_plat s
@[simp] theorem resetEngine_host (s : State) : (resetEngine s).host = s.host := dropUnit_host s

theorem resetEngine_mem_of_no_unit {s : State} (hunit : unitInFlight s = none) : (resetEngine s).mem = s.mem := by
  simp [resetEngine, dropUnit_of_no_unit hunit]

/-- R33 to R51: what a register reads depends on the register file alone. -/
theorem read_eq_of_regs_eq {s t : State} (hregs : s.regs = t.regs) (r : Reg) : r.read s = r.read t := by
  cases r <;> simp only [Reg.read, hregs]

/-- Settles O1: the reset state reads as the table row by row, and the engine after `rst_n` has its register file, so it reads the
same. -/
theorem resetGivesTheTableValues : Obligations.ResetGivesTheTableValues := by
  unfold Obligations.ResetGivesTheTableValues
  intro table
  have hreset : ∀ x ∈ table, Reg.read State.reset x.1 = x.2 := by decide
  refine ⟨hreset, irq_eq_false_of_flags_clear rfl rfl, rfl, fun s es hhost => ?_⟩
  have hmem (hidle : s.regs.status.busy = false) : (resetEngine { s with host := es }).mem = s.mem :=
    resetEngine_mem_of_no_unit (unitInFlight_of_idle hidle)
  have hread : ∀ x ∈ table, Reg.read (resetEngine { s with host := es }) x.1 = x.2 := fun x hx =>
    (read_eq_of_regs_eq (resetEngine_regs _) x.1).trans (hreset x hx)
  exact ⟨_, step_of_rstN hhost, hread, irq_eq_false_of_flags_clear rfl rfl, resetEngine_scratch _, resetEngine_plat _,
    resetEngine_host _, hmem⟩

end Sys2Proof.Machine
end

section
/-! The decoder and the encoder are inverse to each other (R111 to R113, R116). -/

namespace Sys2Proof.Machine

/-! ### Words built from an opcode and a width (R116) -/

theorem toNat_encodePlain (op : BitVec 8) : (encodePlain op).toNat = op.toNat := by
  rw [encodePlain, BitVec.toNat_setWidth]
  omega

theorem toNat_encodeWidth (op : BitVec 8) (b : BitVec 6) : (encodeWidth op b).toNat = op.toNat + 2 ^ 8 * b.toNat := by
  have hop : op.setWidth 32 = BitVec.ofNat 32 op.toNat := by
    apply BitVec.eq_of_toNat_eq
    simp
  have hb : b.setWidth 32 <<< 8 = BitVec.ofNat 32 (b.toNat <<< 8) := by
    apply BitVec.eq_of_toNat_eq
    simp [Nat.shiftLeft_eq]
  rw [encodeWidth, hop, hb, ← BitVec.ofNat_or]
  exact toNat_lowByte_or_field op.isLt (by omega)

/-! ### What an accepted word holds (R113) -/

section
variable {w : Word} {op : Nat} {i : Instr}

theorem eq_encodePlain_of_decodePlain {i' : Instr} (hop : (cmdOpcode w).toNat = op) (hok : decodePlain w i' = .ok i) :
    i = i' ∧ encodePlain (BitVec.ofNat 8 op) = w := by
  rw [cmdOpcode_toNat] at hop
  rw [decodePlain_of_opcode i' hop] at hok
  split at hok
  case isTrue hword =>
    refine ⟨(Except.ok.inj hok).symm, BitVec.eq_of_toNat_eq ?_⟩
    rw [toNat_encodePlain, hword, BitVec.toNat_ofNat, BitVec.toNat_ofNat]
    omega
  case isFalse => cases hok

theorem eq_encodeWidth_of_decodeWidth {mk : BitVec 6 → Instr} (hop : (cmdOpcode w).toNat = op)
    (hok : decodeWidth w mk = .ok i) :
    i = mk (cmdB w) ∧ legalWidth (cmdB w) = true ∧ encodeWidth (BitVec.ofNat 8 op) (cmdB w) = w := by
  rw [decodeWidth] at hok
  split at hok
  case isTrue => cases hok
  case isFalse hlegal =>
    split at hok
    case isTrue => cases hok
    case isFalse hrsv =>
      rw [not_not, cmdRsv_eq_zero_iff] at hrsv
      refine ⟨(Except.ok.inj hok).symm, decide_eq_true (not_lt.1 hlegal), BitVec.eq_of_toNat_eq ?_⟩
      rw [toNat_encodeWidth, ← hop, BitVec.ofNat_toNat, BitVec.setWidth_eq, cmdOpcode_toNat, cmdB_toNat]
      omega

end

/-- A word that decodes is the encoding of a legal command. -/
theorem encode_of_decode {w : Word} {i : Instr} (hok : decode w = .ok i) : i.wf = true ∧ encode i = w := by
  unfold decode at hok
  split at hok
  case h_1 hop | h_2 hop | h_6 hop | h_7 hop | h_8 hop | h_9 hop =>
    obtain ⟨rfl, hword⟩ := eq_encodePlain_of_decodePlain hop hok
    exact ⟨rfl, hword⟩
  case h_3 hop | h_4 hop | h_5 hop =>
    obtain ⟨rfl, hlegal, hword⟩ := eq_encodeWidth_of_decodeWidth hop hok
    exact ⟨hlegal, hword⟩
  case h_10 => cases hok

/-- A legal command's encoding decodes to it. -/
theorem decode_encode : (i : Instr) → Laws.RoundTrip.Statement i
  | .nop => Laws.RoundTrip.nop
  | .config => Laws.RoundTrip.config
  | .pack b => Laws.RoundTrip.pack b
  | .unpack b => Laws.RoundTrip.unpack b
  | .excExtract b => Laws.RoundTrip.excExtract b
  | .excPatch => Laws.RoundTrip.excPatch
  | .hdrParse => Laws.RoundTrip.hdrParse
  | .encode => Laws.RoundTrip.encode
  | .decode => Laws.RoundTrip.decode

/-- Settles O11: the fields of an accepted word are all of it (`encode_of_decode`), and each command's encoding decodes back
(`decode_encode`). -/
theorem decodeIsTheInverseOfEncode : Obligations.DecodeIsTheInverseOfEncode := by
  intro w i
  constructor
  · exact encode_of_decode
  · rintro ⟨hwf, rfl⟩
    exact decode_encode i hwf

/-- Settles O12: each word is a sample of R112's map, decoded by evaluation. -/
theorem sampleWordsDecode : Obligations.SampleWordsDecode := by
  unfold Obligations.SampleWordsDecode
  decide

end Sys2Proof.Machine
end

section
/-! The exceptions of a page counted (R180, R183), and the page round trip (R212, R221 to R223). -/

namespace Sys2Proof.Machine

/-! ### Counting exceptions (R180, R183) -/

theorem positions_length (vals : List Word) (b e : Nat) :
    (positions vals b e).length = vals.countP fun v => bits v == b + e := by
  rw [← highBits_length, highBits, List.length_map, List.countP_eq_length_filter]

/-- The exceptions in the buckets of the extra widths `e + 1` to `e + m` are the values of a true width in that range. -/
theorem exceptionCount_widths (vals : List Word) (b e m : Nat) :
    exceptionCount ((List.range' (e + 1) m).filterMap (bucketOf vals b)) =
      vals.countP fun v => decide (b + e < bits v ∧ bits v ≤ b + (e + m)) := by
  induction m generalizing e with
  | zero =>
    refine (List.countP_eq_zero.2 fun v _ => ?_).symm
    simp only [decide_eq_true_eq]
    omega
  | succ m ih =>
    have hsplit : (vals.countP fun v => decide (b + e < bits v ∧ bits v ≤ b + (e + (m + 1)))) =
        (positions vals b (e + 1)).length +
          vals.countP fun v => decide (b + (e + 1) < bits v ∧ bits v ≤ b + (e + 1 + m)) := by
      rw [positions_length]
      clear ih
      induction vals with
      | nil => rfl
      | cons v vs ih =>
        simp only [List.countP_cons, ih, decide_eq_true_eq, beq_iff_eq]
        split_ifs <;> omega
    rw [hsplit, ← ih, List.range'_succ]
    by_cases hnone : positions vals b (e + 1) = []
    · rw [List.filterMap_cons_none (bucketOf_of_positions_nil hnone), hnone, List.length_nil, Nat.zero_add]
    · rw [List.filterMap_cons_some (bucketOf_of_positions_ne_nil hnone)]
      rfl

/-- R183: the buckets hold every exception once. -/
theorem exceptionCount_buckets (vals : List Word) {b : Nat} (hb : b ≤ 32) :
    exceptionCount (buckets vals b) = countAbove b vals := by
  have hall : b + (0 + (32 - b)) = 32 := by omega
  rw [buckets, exceptionCount_widths vals b 0, countAbove, ← List.countP_eq_length_filter, hall]
  exact List.countP_congr fun v _ => by simp [bits_le_32]

theorem groupExceptions_blockGroup {x : List Word × Nat} (hx : x.2 ≤ 32) :
    groupExceptions (blockGroup x).buckets = countAbove x.2 x.1 := by
  rw [← exceptionCount_buckets x.1 hx, groupExceptions, blockGroup, groupOf, List.map_map]
  rfl

/-- The exceptions of a page are those of its blocks. -/
theorem exceptions_pageGroups {bs : Nat} {blks : List (List Word × Nat)} (hblocks : ∀ x ∈ blks, LegalBlock bs x) :
    ((blks.map blockGroup).map fun g => groupExceptions g.buckets).sum = (blks.map fun x => countAbove x.2 x.1).sum := by
  rw [List.map_map]
  exact congrArg List.sum (List.map_congr_left fun x hx => groupExceptions_blockGroup (hblocks x hx).2)

/-! ### The bodies of a page (R222) -/

theorem bodyOffsets_length (bs off : Nat) (gs : List Group) : (bodyOffsets bs off gs).length = gs.length := by
  induction gs generalizing off with
  | nil => rfl
  | cons g gs ih => simp [bodyOffsets, ih]

/-- R222: a body stands behind the bodies before it. -/
theorem bodyOffsets_getElem? (bs off : Nat) (gs : List Group) {i : Nat} (hi : i < gs.length) :
    (bodyOffsets bs off gs)[i]? = some (off + ((gs.take i).map (blen bs)).sum) := by
  induction gs generalizing off i with
  | nil => cases hi
  | cons g gs ih =>
    cases i with
    | zero => rfl
    | succ i => simp [bodyOffsets, ih _ (Nat.lt_of_succ_lt_succ hi), Nat.add_assoc]

/-- Each body of an encoded page stands at its offset. -/
theorem holds_body_of_offset {rd : Nat → Except Raise Word} {bs j off i o : Nat} {blks : List (List Word × Nat)}
    {x : List Word × Nat} (hbs : bs ∈ [128, 256, 512]) (hblocks : ∀ x ∈ blks, LegalBlock bs x)
    (hrd : Holds rd (j + off) (blks.flatMap fun x => body bs.log2 x.1 x.2)) (hx : blks[i]? = some x)
    (ho : (bodyOffsets bs off (blks.map blockGroup))[i]? = some o) : Holds rd (j + o) (body bs.log2 x.1 x.2) := by
  induction blks generalizing off i with
  | nil => simp at hx
  | cons y blks ih =>
    obtain ⟨hy, hrest⟩ := List.forall_mem_cons.1 hblocks
    rw [List.flatMap_cons, holds_append_iff, body_length hbs hy, Nat.add_assoc] at hrd
    cases i with
    | zero =>
      obtain rfl : y = x := by simpa using hx
      obtain rfl : off = o := by simpa [bodyOffsets] using ho
      exact hrd.1
    | succ i => exact ih hrest hrd.2 (by simpa using hx) (by simpa [bodyOffsets] using ho)

/-- Settles O56: the page parses to the header of its own blocks (`readHeader_of_holds`), and each block's body stands at its offset
(`holds_body_of_offset`), where it decodes to the block's values (`decodeBlock_of_holds`). -/
theorem pageRoundTrip : Obligations.PageRoundTrip := by
  intro bs ps wend j blks rd hconfig hone hfit hblocks hrd hwin
  have hpage : LegalPage bs ps blks := ⟨hone, hfit, hblocks⟩
  have hbs : bs ∈ [128, 256, 512] := hconfig.1
  refine ⟨pageHeader bs blks, readHeader_of_holds hconfig hpage hrd hwin, plen_pageHeader hbs hblocks,
    List.length_map _, exceptions_pageGroups hblocks, ?decodes⟩
  case decodes =>
    intro i g o x hg ho hx
    have hbodies : Holds rd (j + (pageHeader bs blks).hlen) (blks.flatMap fun x => body bs.log2 x.1 x.2) := by
      rw [hlen_pageHeader, Nat.add_comm 1]
      exact (holds_append_iff.1 hrd).2
    obtain rfl : blockGroup x = g := by simpa [pageHeader, hx] using hg
    exact decodeBlock_of_holds hbs (hblocks x (List.mem_of_getElem? hx)) (holds_body_of_offset hbs hblocks hbodies hx ho)

/-! ### A block without exceptions (R246) -/

theorem positions_of_bits_le {vals : List Word} {b e : Nat} (hfit : ∀ v ∈ vals, bits v ≤ b) (he : 1 ≤ e) :
    positions vals b e = [] := by
  refine List.eq_nil_iff_forall_not_mem.2 fun p hp => ?_
  obtain ⟨hlt, hbits⟩ := mem_positions_iff.1 hp
  have := hfit _ (List.getElem_mem hlt)
  omega

theorem buckets_of_bits_le {vals : List Word} {b : Nat} (hfit : ∀ v ∈ vals, bits v ≤ b) : buckets vals b = [] :=
  List.filterMap_eq_nil_iff.2 fun _ he => bucketOf_of_positions_nil (positions_of_bits_le hfit (List.mem_range'_1.1 he).1)

/-- Settles O59: without exceptions no bucket exists (`buckets_of_bits_le`), and the main run fills its words exactly. -/
theorem blockWithoutExceptionsHasNoSideStream : Obligations.BlockWithoutExceptionsHasNoSideStream := by
  intro bs b vals hbs hlen _ hfit
  have hpage : encPage bs [(vals, b)] = mkH0 bs 1 :: mkD b 0 :: pack vals b := by
    simp [encPage, metaWords, groupWords, groupOf, body, xruns, buckets_of_bits_le hfit]
  refine ⟨hpage, ?_⟩
  rw [hpage, List.length_cons, List.length_cons, pack_length, hlen, packedLen_of_blockSize hbs]
  omega

end Sys2Proof.Machine
end

section
/-! Stored words (R81), stream words (R121 to R125), and the descriptor-group parse and the bucket patch said in full (R188, R189). -/

namespace Sys2Proof.Machine

/-! ### Little-endian words (R81) -/

theorem extractLsb'_byte (v : Word) (k : Nat) : v.extractLsb' (8 * k) 8 = BitVec.ofNat 8 (v.toNat >>> (8 * k)) := rfl

/-- Settles O60: the four byte writes read back one by one (`Memory.byte_setWord_same`). -/
theorem wordsAreStoredLittleEndian : Obligations.WordsAreStoredLittleEndian := by
  intro m a v hm
  refine ⟨Memory.setWord_wf hm a v, Memory.word_setWord_same hm a v, ?bytes, fun b => Memory.byte_setWord_other hm v⟩
  case bytes =>
    intro k hk
    obtain ⟨h0, h1, h2, h3⟩ := Memory.byte_setWord_same hm a v
    rw [← extractLsb'_byte]
    match k, hk with
    | 0, _ => exact h0
    | 1, _ => exact h1
    | 2, _ => exact h2
    | 3, _ => exact h3

/-! ### Valid stream words (R121, R122, R123, R125) -/

/-- A word whose bits between a low byte and a field from bit 8 up are 0 is the two put together. -/
theorem eq_lowByte_or_field {w : Word} {lo hi : Nat} (hlo : lo < 2 ^ 8) (hhi : hi < 2 ^ 24) (hw : w.toNat = lo + 2 ^ 8 * hi) :
    w = BitVec.ofNat 32 (lo ||| hi <<< 8) :=
  BitVec.eq_of_toNat_eq (hw.trans (toNat_lowByte_or_field hlo hhi).symm)

theorem validD_iff (w : Word) : validD w = true ↔
    field w 6 2 = 0 ∧ field w 14 18 = 0 ∧ field w 0 6 ≤ 32 ∧ field w 8 6 ≤ 32 - field w 0 6 := by
  simp [validD, and_assoc]

theorem validB_iff (bs b : Nat) (w : Word) : validB bs w b = true ↔
    field w 6 2 = 0 ∧ field w 18 14 = 0 ∧ 1 ≤ field w 0 6 ∧ field w 0 6 ≤ 32 - b ∧ 1 ≤ field w 8 10 ∧ field w 8 10 ≤ bs := by
  simp [validB, and_assoc]

theorem validH0_iff (bs ps : Nat) (h : Word) : validH0 bs ps h = true ↔
    field h 4 4 = 0 ∧ field h 0 4 = bs.log2 ∧ 1 ≤ field h 8 24 ∧ field h 8 24 ≤ ps / bs := by
  simp [validH0, and_assoc]

theorem validBW_iff (w : Word) : validBW w = true ↔ w.toNat ≤ 32 := by
  simp only [validBW, Bool.and_eq_true, beq_iff_eq, decide_eq_true_eq, field_eq_div_mod]
  omega

/-- R121: a valid D is what `mkD` builds of its fields. -/
theorem eq_mkD_of_validD {w : Word} (hvalid : validD w = true) : w = mkD (field w 0 6) (field w 8 6) := by
  obtain ⟨hlow, hhigh, -, -⟩ := (validD_iff w).1 hvalid
  simp only [field_eq_div_mod] at hlow hhigh ⊢
  exact eq_lowByte_or_field (by omega) (by omega) (by omega)

/-- R122: a valid B is what `mkB` builds of its fields. -/
theorem eq_mkB_of_validB {bs b : Nat} {w : Word} (hvalid : validB bs w b = true) : w = mkB (field w 0 6) (field w 8 10) := by
  obtain ⟨hlow, hhigh, -⟩ := (validB_iff bs b w).1 hvalid
  simp only [field_eq_div_mod] at hlow hhigh ⊢
  exact eq_lowByte_or_field (by omega) (by omega) (by omega)

/-- R123: a valid H0 is what `mkH0` builds of its block count. -/
theorem eq_mkH0_of_validH0 {bs ps : Nat} {h : Word} (hvalid : validH0 bs ps h = true) : h = mkH0 bs (field h 8 24) := by
  obtain ⟨hlow, hlog, -⟩ := (validH0_iff bs ps h).1 hvalid
  rw [mkH0, ← hlog]
  simp only [field_eq_div_mod] at hlow ⊢
  exact eq_lowByte_or_field (by omega) (by omega) (by omega)

theorem field_mkH0_blockSize {bs n : Nat} (hbs : bs.log2 < 2 ^ 4) (hn : n ≤ Config.maxPageBlocks) :
    field (mkH0 bs n) 0 4 = bs.log2 := by
  rw [field_eq_div_mod, toNat_mkH0 hbs hn]
  omega

/-- Settles O53: the builders' words hold their fields, and a valid word is the builder's word of its own fields. -/
theorem headerWordsHoldTheirFields : Obligations.HeaderWordsHoldTheirFields := by
  refine ⟨?mkD, ?mkB, ?mkH0, ?validD, ?validB, ?validH0, validBW_iff⟩
  case mkD =>
    intro b nb hb hnb
    have hnb' : nb ≤ 32 := by omega
    exact ⟨validD_mkD hb hnb, field_mkD_width hb hnb', field_mkD_buckets hb hnb'⟩
  case mkB =>
    intro bs b e c hbs _ he heb hc hcbs
    have hbs512 := (blockSize_bounds hbs).2
    have he' : e ≤ 32 := by omega
    have hc' : c ≤ 512 := by omega
    exact ⟨validB_mkB hbs512 he heb hc hcbs, field_mkB_width he' hc', field_mkB_count he' hc'⟩
  case mkH0 =>
    intro bs ps n hconfig hone hfit
    have hlog := log2_lt_of_blockSize hconfig.1
    have hn : n ≤ Config.maxPageBlocks := hfit.trans hconfig.2.2.2
    exact ⟨validH0_mkH0 hconfig hone hfit, field_mkH0_blockSize hlog hn, field_mkH0_count hlog hn⟩
  case validD =>
    intro w hvalid
    obtain ⟨-, -, hb, hnb⟩ := (validD_iff w).1 hvalid
    exact ⟨_, _, hb, hnb, eq_mkD_of_validD hvalid⟩
  case validB =>
    intro bs b w hvalid
    obtain ⟨-, -, he, heb, hc, hcbs⟩ := (validB_iff bs b w).1 hvalid
    exact ⟨_, _, he, heb, hc, hcbs, eq_mkB_of_validB hvalid⟩
  case validH0 =>
    intro bs ps h hvalid
    obtain ⟨-, -, hone, hfit⟩ := (validH0_iff bs ps h).1 hvalid
    exact ⟨_, hone, hfit, eq_mkH0_of_validH0 hvalid⟩

/-! ### The parse of a descriptor group (R188) -/

/-- The bucket fields of a word B (R122). -/
def bucketInfo (w : Word) : BucketInfo := { e := field w 0 6, c := field w 8 10 }

section
variable {rd : Nat → Except Raise Word} {bs wend : Nat}

theorem readBuckets_past_window {b j n : Nat} (hend : wend ≤ j) :
    readBuckets rd bs wend b j (n + 1) = .error (corrupt 1 wend) := by
  simp [readBuckets, hend]

theorem readBuckets_invalid {b j n : Nat} {w : Word} (hin : j < wend) (hw : rd j = .ok w) (hbad : validB bs w b = false) :
    readBuckets rd bs wend b j (n + 1) = .error (corrupt 4 j) := by
  simp [readBuckets, not_le.2 hin, hw, hbad]

/-- R188: behind valid words B the parse goes on with the rest. -/
theorem readBuckets_append {b j : Nat} {ws : List Word}
    (hws : ∀ k (h : k < ws.length), j + k < wend ∧ rd (j + k) = .ok ws[k] ∧ validB bs ws[k] b = true) (n : Nat) :
    readBuckets rd bs wend b j (ws.length + n) =
      (readBuckets rd bs wend b (j + ws.length) n).map (ws.map bucketInfo ++ ·) := by
  induction ws generalizing j with
  | nil => cases h : readBuckets rd bs wend b j n <;> simp [h, Except.map]
  | cons w ws ih =>
    obtain ⟨hin, hw, hvalid⟩ := hws 0 (Nat.succ_pos _)
    have hrest := ih (j := j + 1) fun k hk => by
      have := hws (k + 1) (Nat.succ_lt_succ hk)
      rwa [show j + (k + 1) = j + 1 + k by omega] at this
    rw [Nat.add_zero] at hin hw
    rw [List.getElem_cons_zero] at hw hvalid
    rw [List.length_cons, show ws.length + 1 + n = (ws.length + n) + 1 by omega, show j + (ws.length + 1) = j + 1 + ws.length by omega]
    simp only [readBuckets, if_neg (not_le.2 hin), hw, hvalid, hrest, Bool.not_true, Bool.false_eq_true, if_false]
    cases readBuckets rd bs wend b (j + 1 + ws.length) n <;> simp [Except.map, bucketInfo]

theorem readGroup_past_window {j : Nat} (hend : wend ≤ j) : readGroup rd bs wend j = .error (corrupt 1 wend) := by
  simp [readGroup, hend]

theorem readGroup_invalid {j : Nat} {d : Word} (hin : j < wend) (hd : rd j = .ok d) (hbad : validD d = false) :
    readGroup rd bs wend j = .error (corrupt 3 j) := by
  simp [readGroup, not_le.2 hin, hd, hbad]

/-- R188: behind a valid D the parse is that of its bucket words. -/
theorem readGroup_valid {j : Nat} {d : Word} (hin : j < wend) (hd : rd j = .ok d) (hvalid : validD d = true) :
    readGroup rd bs wend j = (readBuckets rd bs wend (field d 0 6) (j + 1) (field d 8 6)).map fun ks =>
      { d := d, b := field d 0 6, buckets := ks } := by
  simp only [readGroup, if_neg (not_le.2 hin), hd, hvalid, Bool.not_true, Bool.false_eq_true, if_false]
  cases readBuckets rd bs wend (field d 0 6) (j + 1) (field d 8 6) <;> rfl

end

/-- Settles O54: the words before the failing one are passed over (`readBuckets_append`), and that one raises. -/
theorem descriptorGroupsAreCheckedInOrder : Obligations.DescriptorGroupsAreCheckedInOrder := by
  intro rd bs wend j
  refine ⟨readGroup_past_window, fun d hin hd => ⟨readGroup_invalid hin hd, fun hvalid ws hlen hws => ?_⟩⟩
  have hrest := readBuckets_append hws (field d 8 6 - ws.length)
  rw [Nat.add_sub_cancel' hlen] at hrest
  rw [readGroup_valid hin hd hvalid, hrest]
  have hmore (hlt : ws.length < field d 8 6) : field d 8 6 - ws.length = (field d 8 6 - ws.length - 1) + 1 := by omega
  refine ⟨?whole, ?pastWindow, ?invalid⟩
  case whole =>
    intro heq
    simp [heq, readBuckets, Except.map, bucketInfo]
  case pastWindow =>
    intro hlt hend
    rw [hmore hlt, readBuckets_past_window hend]
    rfl
  case invalid =>
    intro hlt hin' w hw hbad
    rw [hmore hlt, readBuckets_invalid hin' hw hbad]
    rfl

/-! ### One bucket patched (R189) -/

/-- R189: the position an exception's delta adds up to, from the bucket's first delta on. -/
def deltaSum (es : List (Word × Word)) (k : Nat) : Nat := ((es.take (k + 1)).map fun y => y.1.toNat).sum

/-- What exception number `k` makes of slot `i`, whose value is `acc`, where the deltas start at `pos`. -/
def orInto (b : Nat) (es : List (Word × Word)) (pos i : Nat) (acc : Word) (k : Nat) : Word :=
  if pos + deltaSum es k = i then acc ||| ((es.getD k (0#32, 0#32)).2 <<< b) else acc

/-- The slots after every exception of a bucket has been ORed in. -/
def orSlots (b : Nat) (es : List (Word × Word)) (pos : Nat) (x : List Word) : List Word :=
  (List.range x.length).map fun i => (List.range es.length).foldl (orInto b es pos i) (x.getD i 0#32)

theorem deltaSum_zero (d h : Word) (es : List (Word × Word)) : deltaSum ((d, h) :: es) 0 = d.toNat := by
  simp [deltaSum]

theorem deltaSum_succ (d h : Word) (es : List (Word × Word)) (k : Nat) :
    deltaSum ((d, h) :: es) (k + 1) = d.toNat + deltaSum es k := by
  simp [deltaSum]

theorem orInto_zero (b pos i : Nat) (d h : Word) (es : List (Word × Word)) (acc : Word) :
    orInto b ((d, h) :: es) pos i acc 0 = if pos + d.toNat = i then acc ||| h <<< b else acc := by
  simp only [orInto, deltaSum_zero, List.getD_cons_zero]

theorem orInto_succ (b pos i : Nat) (d h : Word) (es : List (Word × Word)) (acc : Word) (k : Nat) :
    orInto b ((d, h) :: es) pos i acc (k + 1) = orInto b es (pos + d.toNat) i acc k := by
  simp only [orInto, deltaSum_succ, ← Nat.add_assoc, List.getD_cons_succ]

theorem getD_modify_of_lt {x : List Word} {i : Nat} (hi : i < x.length) (p : Nat) (f : Word → Word) :
    (x.modify p f).getD i 0#32 = if p = i then f (x.getD i 0#32) else x.getD i 0#32 := by
  rw [List.getD_eq_getElem _ _ (by simpa using hi), List.getElem_modify, List.getD_eq_getElem _ _ hi]

/-- The first exception comes before the rest. -/
theorem orSlots_cons (b pos : Nat) (d h : Word) (es : List (Word × Word)) (x : List Word) :
    orSlots b ((d, h) :: es) pos x = orSlots b es (pos + d.toNat) (x.modify (pos + d.toNat) (· ||| h <<< b)) := by
  simp only [orSlots, List.length_modify]
  refine List.map_congr_left fun i hi => ?_
  rw [List.length_cons, List.range_succ_eq_map, List.foldl_cons, List.foldl_map, getD_modify_of_lt (List.mem_range.1 hi)]
  simp only [Nat.succ_eq_add_one, orInto_succ, orInto_zero]

theorem orSlots_nil (b pos : Nat) (x : List Word) : orSlots b [] pos x = x := by
  refine List.ext_getElem (by simp [orSlots]) fun i _ hi => ?_
  simp [orSlots, hi]

section
variable {n : Nat} (b pw q : Nat)

theorem patchBucket_of_inside {es : List (Word × Word)} {k pos : Nat} (x : List Word)
    (hin : ∀ m < es.length, pos + deltaSum es m < n) : patchBucket n b pw q k pos es x = .ok (orSlots b es pos x) := by
  induction es generalizing k pos x with
  | nil => rw [orSlots_nil]; rfl
  | cons e es ih =>
    obtain ⟨d, h⟩ := e
    have hfirst := hin 0 (Nat.succ_pos _)
    rw [deltaSum_zero] at hfirst
    rw [patchBucket, if_neg (not_le.2 hfirst), orSlots_cons]
    refine ih _ fun m hm => ?_
    have := hin (m + 1) (Nat.succ_lt_succ hm)
    rwa [deltaSum_succ, ← Nat.add_assoc] at this

theorem patchBucket_of_outside {es : List (Word × Word)} {k pos m : Nat} (x : List Word) (hm : m < es.length)
    (hout : n ≤ pos + deltaSum es m) (hbefore : ∀ j < m, pos + deltaSum es j < n) :
    patchBucket n b pw q k pos es x = .error (corrupt 5 (q + (k + m) * pw / 32)) := by
  induction es generalizing k pos m x with
  | nil => cases hm
  | cons e es ih =>
    obtain ⟨d, h⟩ := e
    rw [patchBucket]
    cases m with
    | zero =>
      rw [deltaSum_zero] at hout
      rw [if_pos hout, Nat.add_zero]
    | succ m =>
      have hfirst := hbefore 0 (Nat.succ_pos _)
      rw [deltaSum_zero] at hfirst
      rw [deltaSum_succ, ← Nat.add_assoc] at hout
      rw [if_neg (not_le.2 hfirst), ih _ (Nat.lt_of_succ_lt_succ hm) hout fun j hj => ?_, Nat.add_assoc, Nat.add_comm 1]
      have := hbefore (j + 1) (Nat.succ_lt_succ hj)
      rwa [deltaSum_succ, ← Nat.add_assoc] at this

end

/-- Settles O52: an exception inside the block is ORed in before the rest (`orSlots_cons`), and the first one outside raises. -/
theorem patchOrsIntoTheSlots : Obligations.PatchOrsIntoTheSlots := by
  intro n b pw q es x sumTo
  have hsum : ∀ k, 0 + deltaSum es k = sumTo k := fun k => Nat.zero_add _
  refine ⟨fun hin => ?inside, fun k hk hout hbefore => ?outside⟩
  case inside =>
    rw [patchBucket_of_inside b pw q x (fun m hm => (hsum m).trans_lt (hin m hm))]
    unfold orSlots orInto
    simp only [hsum]
  case outside =>
    rw [patchBucket_of_outside b pw q x hk (hout.trans_eq (hsum k).symm) fun j hj => (hsum j).trans_lt (hbefore j hj),
      Nat.zero_add]
    rfl

end Sys2Proof.Machine
end

section
/-! What a step can do, said once: the engine's move command by command, the host's move event by event, and what neither of them
changes. -/

namespace Sys2Proof.Machine

/-! ### The engine's move (R39, R113) -/

section
variable {i : Instr} {s t : State} {p : Plan} {u : Units}

/-- R80: a command with windows moves by `turn`. -/
theorem exec_eq_turn (hcmd : commandOf i s = some (p, u)) : exec i s = .next (turn p u s) := by
  cases i <;> cases hcmd <;> rfl

theorem commandOf_eq_none_iff : commandOf i s = none ↔ i = .nop ∨ i = .config := by
  cases i <;> simp [commandOf]

/-- Everything a command's move can do. -/
theorem exec_cases (hexec : exec i s = .next t) :
    (∃ p u, commandOf i s = some (p, u) ∧ t = turn p u s) ∨
    (i = .nop ∧ t = finish s) ∨
    (i = .config ∧ ∃ r, configError s.regs.cfgBlockSize.toNat s.regs.cfgPageSize.toNat = some r ∧ t = raiseError r s) ∨
    (i = .config ∧ configError s.regs.cfgBlockSize.toNat s.regs.cfgPageSize.toNat = none ∧
      t = finish (installConfig s)) := by
  cases hcmd : commandOf i s with
  | some x =>
    rw [exec_eq_turn hcmd] at hexec
    exact .inl ⟨x.1, x.2, rfl, (Host.Outcome.next.inj hexec).symm⟩
  | none =>
    refine .inr ?_
    obtain rfl | rfl := commandOf_eq_none_iff.1 hcmd
    · exact .inl ⟨rfl, (Host.Outcome.next.inj hexec).symm⟩
    · refine .inr ?_
      cases hcheck : configError s.regs.cfgBlockSize.toNat s.regs.cfgPageSize.toNat with
      | some r =>
        simp only [exec, execConfig, hcheck] at hexec
        exact .inl ⟨rfl, r, rfl, (Host.Outcome.next.inj hexec).symm⟩
      | none =>
        rw [exec_config_installs hcheck] at hexec
        exact .inr ⟨rfl, rfl, (Host.Outcome.next.inj hexec).symm⟩

/-- Everything a move of the engine can do. -/
theorem engineMove_cases (hmove : engineMove s = .next t) :
    (s.regs.status.busy = false ∧ t = s) ∨
    (s.regs.status.busy = true ∧ ∃ e, decode s.regs.cmd = .error e ∧ t = raiseError (illegalRaise e) s) ∨
    (s.regs.status.busy = true ∧ ∃ i, decode s.regs.cmd = .ok i ∧ exec i s = .next t) := by
  unfold engineMove at hmove
  split at hmove
  case isTrue hbusy =>
    split at hmove
    case h_1 e he => exact .inr (.inl ⟨hbusy, e, he, (Host.Outcome.next.inj hmove).symm⟩)
    case h_2 i hi => exact .inr (.inr ⟨hbusy, i, hi, hmove⟩)
  case isFalse hidle => exact .inl ⟨Bool.eq_false_iff.2 hidle, (Host.Outcome.next.inj hmove).symm⟩

theorem engineMove_of_idle (hidle : s.regs.status.busy = false) : engineMove s = .next s := by
  simp [engineMove, hidle]

theorem engineMove_of_command (hbusy : s.regs.status.busy = true) (hcmd : decode s.regs.cmd = .ok i) :
    engineMove s = exec i s := by
  simp [engineMove, hbusy, hcmd]

/-- Everything a step can do: a move of the engine, with a `quiet` used up or not, or the host's next event. -/
theorem step_cases (hstep : step s = .next t) :
    engineMove s = .next t ∨
    (∃ es, s.host = .quiet :: es ∧ engineMove { s with host := es } = .next t) ∨
    (∃ e es, s.host = e :: es ∧ (e = .await → s.regs.status.busy = false) ∧ t = hostMove e { s with host := es }) := by
  unfold step at hstep
  split at hstep
  case h_1 => exact .inl hstep
  case h_2 es hhost => exact .inr (.inl ⟨es, hhost, hstep⟩)
  case h_3 es hhost =>
    split at hstep
    case isTrue => exact .inl hstep
    case isFalse hidle =>
      exact .inr (.inr ⟨_, es, hhost, fun _ => Bool.eq_false_iff.2 hidle, (Host.Outcome.next.inj hstep).symm⟩)
  case h_4 e es _ hawait hhost =>
    exact .inr (.inr ⟨e, es, hhost, fun he => absurd he hawait, (Host.Outcome.next.inj hstep).symm⟩)

end

/-! ### What the engine leaves alone (R44, R52, R53) -/

/-- `t` is `s` but for memory, scratch, draws, and the registers the engine writes: STATUS, the active pair, the cursors, the error
report and the counters. -/
structure EngineKeeps (s t : State) : Prop where
  plat  : t.plat = s.plat
  host  : t.host = s.host
  reply : t.reply = s.reply
  held  : t.held = s.held
  regs  : t.regs = { s.regs with
    status := t.regs.status
    actBlockSize := t.regs.actBlockSize
    actPageSize := t.regs.actPageSize
    inCur := t.regs.inCur
    outCur := t.regs.outCur
    errDetail := t.regs.errDetail
    errIndex := t.regs.errIndex
    cntRd := t.regs.cntRd
    cntWr := t.regs.cntWr
    cntExc := t.regs.cntExc }

section
variable {i : Instr} {s t : State}

theorem engineKeeps_refl (s : State) : EngineKeeps s s := ⟨rfl, rfl, rfl, rfl, rfl⟩

theorem engineKeeps_raiseError (r : Raise) (s : State) : EngineKeeps s (raiseError r s) := ⟨rfl, rfl, rfl, rfl, rfl⟩

theorem engineKeeps_abortUnit (u : Units) (run : Run) (r : Raise) (s : State) : EngineKeeps s (abortUnit u run r s) := by
  refine ⟨abortUnit_plat .., abortUnit_host .., abortUnit_reply .., abortUnit_held .., ?_⟩
  rw [abortUnit_regs]
  rfl

theorem engineKeeps_turn (p : Plan) (u : Units) (s : State) : EngineKeeps s (turn p u s) := by
  obtain ⟨r, -, hturn⟩ | ⟨run, -, -, hturn⟩ | ⟨run, r, -, -, hturn, -⟩ | ⟨run, d, -, -, -, -, -, hturn⟩ := turn_cases p u s <;>
    rw [hturn]
  · exact engineKeeps_raiseError r s
  · exact ⟨rfl, rfl, rfl, rfl, rfl⟩
  · exact engineKeeps_abortUnit u run r s
  · split <;> exact ⟨rfl, rfl, rfl, rfl, rfl⟩

theorem engineKeeps_of_exec (hexec : exec i s = .next t) : EngineKeeps s t := by
  obtain ⟨p, u, -, rfl⟩ | ⟨-, rfl⟩ | ⟨-, r, -, rfl⟩ | ⟨-, -, rfl⟩ := exec_cases hexec
  · exact engineKeeps_turn p u s
  · exact ⟨rfl, rfl, rfl, rfl, rfl⟩
  · exact engineKeeps_raiseError r s
  · exact ⟨rfl, rfl, rfl, rfl, rfl⟩

theorem engineKeeps_of_engineMove (hmove : engineMove s = .next t) : EngineKeeps s t := by
  obtain ⟨-, rfl⟩ | ⟨-, e, -, rfl⟩ | ⟨-, i, -, hexec⟩ := engineMove_cases hmove
  · exact engineKeeps_refl t
  · exact engineKeeps_raiseError _ s
  · exact engineKeeps_of_exec hexec

/-- R40: a memory command leaves the active pair alone. -/
theorem turn_keeps_config (p : Plan) (u : Units) (s : State) :
    (turn p u s).regs.actBlockSize = s.regs.actBlockSize ∧ (turn p u s).regs.actPageSize = s.regs.actPageSize := by
  obtain ⟨r, -, hturn⟩ | ⟨run, -, -, hturn⟩ | ⟨run, r, -, -, hturn, -⟩ | ⟨run, d, -, -, -, -, -, hturn⟩ := turn_cases p u s <;>
    rw [hturn]
  · exact ⟨rfl, rfl⟩
  · exact ⟨rfl, rfl⟩
  · rw [abortUnit_regs]
    exact ⟨rfl, rfl⟩
  · split <;> exact ⟨rfl, rfl⟩

/-- R40, R151: the engine changes the active pair only by a CONFIG that finishes. -/
theorem engineMove_keeps_config (hmove : engineMove s = .next t) :
    (t.regs.actBlockSize = s.regs.actBlockSize ∧ t.regs.actPageSize = s.regs.actPageSize) ∨
    (s.regs.status.busy = true ∧ decode s.regs.cmd = .ok .config ∧ t.regs.status.done = true) := by
  obtain ⟨-, rfl⟩ | ⟨-, e, -, rfl⟩ | ⟨hbusy, i, hi, hexec⟩ := engineMove_cases hmove
  · exact .inl ⟨rfl, rfl⟩
  · exact .inl ⟨rfl, rfl⟩
  · obtain ⟨p, u, -, rfl⟩ | ⟨-, rfl⟩ | ⟨-, r, -, rfl⟩ | ⟨rfl, -, rfl⟩ := exec_cases hexec
    · exact .inl (turn_keeps_config p u s)
    · exact .inl ⟨rfl, rfl⟩
    · exact .inl ⟨rfl, rfl⟩
    · exact .inr ⟨hbusy, hi, rfl⟩

end

/-- Settles O22: each of these registers is one the engine keeps (`EngineKeeps`). -/
theorem engineWritesNoParameterRegister : Obligations.EngineWritesNoParameterRegister := by
  intro s t hmove r hr
  have hregs := (engineKeeps_of_engineMove hmove).regs
  simp only [List.mem_cons, List.not_mem_nil, or_false] at hr
  obtain rfl | rfl | rfl | rfl | rfl | rfl | rfl | rfl | rfl | rfl | rfl := hr <;> simp only [Reg.read] <;> rw [hregs]

/-! ### The host's move (R31, R32, R53) -/

section
variable {s : State}

theorem add_of_windowOffset {p : Platform} {addr off : Nat} (hoff : windowOffset p addr = some off) : addr = p.regBase + off := by
  simp only [windowOffset, Option.ite_none_right_eq_some, Option.some.injEq] at hoff
  omega

/-- Everything a read on the register port can do. -/
theorem regRead_cases (addr : Nat) (width : AccessWidth) (s : State) :
    (∃ rep, regRead addr width s = { s with reply := rep }) ∨
    (addr = s.plat.regBase + Reg.offset .status ∧ width = .word ∧
      regRead addr width s = { observe s with reply := .data s.regs.status.word }) := by
  unfold regRead
  split
  case h_1 => exact .inl ⟨_, rfl⟩
  case h_2 off hoff =>
    split
    case isFalse => exact .inl ⟨_, rfl⟩
    case isTrue hgood =>
      split
      case h_1 => exact .inl ⟨_, rfl⟩
      case h_2 r hat =>
        by_cases hr : r = .status
        · subst hr
          refine .inr ⟨?_, ?_, by simp [Reg.observed, Reg.read]⟩
          · rw [Reg.offset_of_at hat]
            exact add_of_windowOffset hoff
          · simpa using (Bool.and_eq_true_iff.1 hgood).1
        · exact .inl ⟨_, by rw [Reg.observed, if_neg hr]⟩

/-- Everything a write on the register port can do. -/
theorem regWrite_cases (addr : Nat) (width : AccessWidth) (v : Word) (s : State) :
    (∃ rep, regWrite addr width v s = { s with reply := rep }) ∨
    (s.regs.status.busy = true ∧
      regWrite addr width v s = { s with regs := { s.regs with status := s.regs.status.dropped }, reply := .ack }) ∨
    (∃ r : Reg, (s.regs.status.busy = false ∨ r.openWhileBusy = true) ∧ addr = s.plat.regBase + r.offset ∧ width = .word ∧
      regWrite addr width v s = { r.write v s with reply := .ack }) := by
  unfold regWrite
  split
  case h_1 => exact .inl ⟨_, rfl⟩
  case h_2 off hoff =>
    split
    case isFalse => exact .inl ⟨_, rfl⟩
    case isTrue hgood =>
      unfold regWriteAt
      split
      case isTrue hdrop => exact .inr (.inl ⟨(Bool.and_eq_true_iff.1 hdrop).1, rfl⟩)
      case isFalse htaken =>
        cases hat : Reg.at off with
        | none => exact .inl ⟨_, rfl⟩
        | some r =>
          refine .inr (.inr ⟨r, ?_, ?_, ?_, rfl⟩)
          · simpa [hat, imp_iff_not_or] using htaken
          · rw [Reg.offset_of_at hat]
            exact add_of_windowOffset hoff
          · simpa using (Bool.and_eq_true_iff.1 hgood).1

end

/-! ### Steps of one kind -/

/-- Settles O14: each of the three ways hands the move to the engine, which runs the decoded command. -/
theorem stepRunsTheDecodedCommand : Obligations.StepRunsTheDecodedCommand := by
  intro s i hbusy hcmd
  refine ⟨fun hhost => step_of_running_command hhost hbusy hcmd, fun es hhost => ?quiet, fun es hhost => ?await⟩
  case quiet =>
    simp only [step, hhost]
    exact engineMove_of_command hbusy hcmd
  case await =>
    simp only [step, hhost, hbusy, if_true]
    exact engineMove_of_command hbusy hcmd

/-- Settles O15: a placed word is issued with a `quiet` before the host's events, so the engine moves on it. -/
theorem placedCommandRunsNext : Obligations.PlacedCommandRunsNext := by
  intro s i hwf
  have hword : BitVec.ofNat 32 ((encode i).toNat % 2 ^ 32) = encode i := by
    rw [Nat.mod_eq_of_lt (encode i).isLt, BitVec.ofNat_toNat, BitVec.setWidth_eq]
  rw [State.withFetchWord, hword]
  exact engineMove_of_command (s := issue (encode i) s) rfl (decode_encode i hwf)

/-- Settles O16: the engine's move has a next state (`engineMove_next`), and a host event is one. -/
theorem noStepStops : Obligations.NoStepStops := by
  intro s
  unfold step
  split
  case h_1 => exact engineMove_next s
  case h_2 => exact engineMove_next _
  case h_3 =>
    split
    · exact engineMove_next s
    · exact ⟨_, rfl⟩
  case h_4 => exact ⟨_, rfl⟩

/-- Settles O17: the step is the engine's, and the engine is idle. -/
theorem idleEngineKeepsItsState : Obligations.IdleEngineKeepsItsState := by
  intro s hhost hidle
  rw [step_of_no_event hhost, engineMove_of_idle hidle]

/-- Settles O18: after reset no command runs, and the rest of the invariant is a check. -/
theorem resetMeetsTheInvariant : Obligations.ResetMeetsTheInvariant :=
  inv_of_checks (by decide)

/-- R54: issue resets scratch, so it does not matter what scratch held. -/
theorem issue_forgets_scratch (w : Word) (c : Scratch) (s : State) : issue w { s with scratch := c } = issue w s := rfl

/-- Settles O25: the step is `issue`, which forgets scratch. -/
theorem scratchIsForgottenAtIssue : Obligations.ScratchIsForgottenAtIssue := by
  intro s c w es hhost hidle
  rw [step_of_accepted_write (s := { s with scratch := c }) hhost (.inl hidle), step_of_accepted_write hhost (.inl hidle)]
  exact congrArg (fun t : State => Host.Outcome.next { t with reply := .ack }) (issue_forgets_scratch w c { s with host := es })

/-- Settles O44: the prologue passes and no unit is left, so the move is `finish`. -/
theorem encodeAndDecodeOfNothingFinish : Obligations.EncodeAndDecodeOfNothingFinish := by
  intro s hfresh quietEnd
  have hfinish : quietEnd (.next (finish s)) := ⟨_, rfl, rfl, rfl, rfl, rfl, rfl⟩
  refine ⟨fun hpass hshort => ?encode, fun hpass hempty => ?decode⟩
  case encode =>
    have hnone : blockCount s = 0 := Nat.div_eq_of_lt hshort
    rw [exec_eq_turn rfl, turn_of_no_unit (started_of_prologue hfresh hpass) (by simp [encodeUnits, hnone])]
    exact hfinish
  case decode =>
    rw [exec_eq_turn rfl, turn_of_no_unit (started_of_prologue hfresh hpass) (by simp [decodeUnits, issueRun, hempty])]
    exact hfinish

end Sys2Proof.Machine
end

section
/-! The host's accesses (R31, R32, R89, R116): what each leaves of the machine, register reads and writes in full, the end of R89's
span, and the draws of an access against the duty. -/

namespace Sys2Proof.Machine

/-! ### What a host event leaves of the engine -/

/-- `t` is `s` but for memory, the host, its last answer, the windows held and the draws. -/
structure SameEngine (s t : State) : Prop where
  plat    : t.plat = s.plat
  regs    : t.regs = s.regs
  scratch : t.scratch = s.scratch

section
variable (s : State) (a : Nat) (v : Word)

/-- Everything a host read of data memory can do: a slave error, or the answer after the breach it may make. -/
theorem hostMemRead_cases :
    hostMemRead a s = { s with reply := .slaveError } ∨ ∃ rep, hostMemRead a s = { breach false a s with reply := rep } := by
  unfold hostMemRead
  split
  · exact .inr ⟨_, rfl⟩
  · exact .inl rfl

/-- Everything a host write of data memory can do: a slave error, or the word stored and then the breach it may make. -/
theorem hostMemWrite_cases :
    hostMemWrite a v s = { s with reply := .slaveError } ∨
      hostMemWrite a v s = { breach true a { s with mem := s.mem.setWord a v } with reply := .ack } := by
  unfold hostMemWrite
  split
  · exact .inr rfl
  · exact .inl rfl

theorem sameEngine_hostMemRead : SameEngine s (hostMemRead a s) := by
  obtain h | ⟨rep, h⟩ := hostMemRead_cases s a <;> rw [h]
  · exact ⟨rfl, rfl, rfl⟩
  · exact ⟨breach_plat .., breach_regs .., breach_scratch ..⟩

theorem sameEngine_hostMemWrite : SameEngine s (hostMemWrite a v s) := by
  obtain h | h := hostMemWrite_cases s a v <;> rw [h]
  · exact ⟨rfl, rfl, rfl⟩
  · exact ⟨breach_plat .., breach_regs .., breach_scratch ..⟩

end

/-- Only a register write and `rst_n` touch the engine. -/
theorem sameEngine_hostMove {e : HostEvent} (hwrite : ∀ addr width v, e ≠ .regWrite addr width v) (hreset : e ≠ .rstN)
    (s : State) : SameEngine s (hostMove e s) := by
  cases e with
  | regRead addr width =>
    rw [hostMove]
    obtain ⟨rep, h⟩ | ⟨-, -, h⟩ := regRead_cases addr width s <;> rw [h]
    · exact ⟨rfl, rfl, rfl⟩
    · exact ⟨observe_plat s, observe_regs s, observe_scratch s⟩
  | regWrite addr width v => exact absurd rfl (hwrite addr width v)
  | memRead a => exact sameEngine_hostMemRead s a
  | memWrite a v => exact sameEngine_hostMemWrite s a v
  | rstN => exact absurd rfl hreset
  | quiet => exact ⟨rfl, rfl, rfl⟩
  | await => exact ⟨observe_plat s, observe_regs s, observe_scratch s⟩
  | irqSample =>
    rw [hostMove]
    split
    · exact ⟨observe_plat s, observe_regs s, observe_scratch s⟩
    · exact ⟨rfl, rfl, rfl⟩

/-! ### Register writes (R31, R40) -/

section
variable (r : Reg) (v : Word) (s : State)

theorem write_plat : (r.write v s).plat = s.plat := by
  cases r
  case ctrl =>
    rw [Reg.write]
    split
    · exact resetEngine_plat s
    · rfl
  all_goals rfl

/-- R35, R40: of the register writes only SOFT_RESET touches the active pair. -/
theorem write_keeps_config {r : Reg} {v : Word} (hkeep : ¬(r = .ctrl ∧ v.getLsbD 0 = true)) :
    (r.write v s).regs.actBlockSize = s.regs.actBlockSize ∧ (r.write v s).regs.actPageSize = s.regs.actPageSize := by
  cases r
  case ctrl => rw [write_ctrl_of_not_reset fun hreset => hkeep ⟨rfl, hreset⟩]; exact ⟨rfl, rfl⟩
  all_goals exact ⟨rfl, rfl⟩

end

theorem hostMove_plat (e : HostEvent) (s : State) : (hostMove e s).plat = s.plat := by
  by_cases hwrite : ∀ addr width v, e ≠ .regWrite addr width v
  · by_cases hreset : e = .rstN
    · rw [hreset]
      exact resetEngine_plat s
    · exact (sameEngine_hostMove hwrite hreset s).plat
  · simp only [not_forall, not_not] at hwrite
    obtain ⟨addr, width, v, rfl⟩ := hwrite
    rw [hostMove]
    obtain ⟨rep, h⟩ | ⟨-, h⟩ | ⟨r, -, -, -, h⟩ := regWrite_cases addr width v s <;> rw [h]
    exact write_plat r v s

/-- R40: of the host's events only SOFT_RESET and `rst_n` touch the active pair. -/
theorem hostMove_keeps_config (e : HostEvent) (s : State) :
    ((hostMove e s).regs.actBlockSize = s.regs.actBlockSize ∧ (hostMove e s).regs.actPageSize = s.regs.actPageSize) ∨
    e = .rstN ∨ ∃ v, e = wr s.plat .ctrl v ∧ v.getLsbD 0 = true := by
  by_cases hwrite : ∀ addr width v, e ≠ .regWrite addr width v
  · by_cases hreset : e = .rstN
    · exact .inr (.inl hreset)
    · rw [(sameEngine_hostMove hwrite hreset s).regs]
      exact .inl ⟨rfl, rfl⟩
  · simp only [not_forall, not_not] at hwrite
    obtain ⟨addr, width, v, rfl⟩ := hwrite
    obtain ⟨rep, h⟩ | ⟨-, h⟩ | ⟨r, -, rfl, rfl, h⟩ := regWrite_cases addr width v s
    · rw [hostMove, h]
      exact .inl ⟨rfl, rfl⟩
    · rw [hostMove, h]
      exact .inl ⟨rfl, rfl⟩
    · by_cases hkeep : r = .ctrl ∧ v.getLsbD 0 = true
      · obtain ⟨rfl, hv⟩ := hkeep
        exact .inr (.inr ⟨v, rfl, hv⟩)
      · rw [hostMove, h]
        exact .inl (write_keeps_config s hkeep)

/-- Settles O20: the engine's writer is CONFIG (`engineMove_keeps_config`), the host's are the two resets (`hostMove_keeps_config`). -/
theorem activeConfigurationHasThreeWriters : Obligations.ActiveConfigurationHasThreeWriters := by
  intro s t hstep
  obtain hmove | ⟨es, hhost, hmove⟩ | ⟨e, es, hhost, -, rfl⟩ := step_cases hstep
  · refine ⟨(engineKeeps_of_engineMove hmove).plat, fun hchanged => .inl ?_⟩
    exact (engineMove_keeps_config hmove).resolve_left fun hsame => hchanged.elim (· hsame.1) (· hsame.2)
  · refine ⟨(engineKeeps_of_engineMove hmove).plat, fun hchanged => .inl ?_⟩
    exact (engineMove_keeps_config hmove).resolve_left fun hsame => hchanged.elim (· hsame.1) (· hsame.2)
  · refine ⟨hostMove_plat e _, fun hchanged => .inr ?_⟩
    obtain hsame | rfl | ⟨v, rfl, hv⟩ := hostMove_keeps_config e { s with host := es }
    · exact (hchanged.elim (· hsame.1) (· hsame.2)).elim
    · exact .inl ⟨es, hhost⟩
    · exact .inr ⟨v, es, hhost, hv⟩

/-! ### Register reads in full (R31, R32, R36) -/

/-- The register map of R31 as the host reads it. -/
def readMap (s : State) : List (Nat × Word) := Reg.all.map fun r => (r.offset, r.read s)

/-- R31: reading at an offset looks its register up. -/
theorem readMap_lookup (s : State) (off : Nat) : (readMap s).lookup off = (Reg.at off).map (Reg.read s) := by
  unfold readMap Reg.at
  induction Reg.all with
  | nil => rfl
  | cons r rs ih =>
    rw [List.map_cons, List.lookup_cons, List.find?_cons, ih, BEq.comm (a := off)]
    cases r.offset == off <;> rfl

theorem regRead_of_bad_access {s : State} {off : Nat} {width : AccessWidth} (hlt : off < 256)
    (hbad : ¬(width = .word ∧ off % 4 = 0)) :
    regRead (s.plat.regBase + off) width s = { s with reply := .slaveError } := by
  have hgood : goodAccess off width = false := by simpa [goodAccess] using hbad
  simp [regRead, windowOffset_regBase_add _ hlt, hgood]

theorem regRead_of_word {s : State} {off : Nat} (hlt : off < 256) (halign : off % 4 = 0) :
    regRead (s.plat.regBase + off) .word s = { s with
      reply := .data (((readMap s).lookup off).getD 0#32)
      held := if off = 0x0C ∧ s.regs.status.busy = false then [] else s.held } := by
  simp only [regRead, windowOffset_regBase_add _ hlt, goodAccess, halign, readMap_lookup]
  cases hat : Reg.at off with
  | none =>
    have hoff : off ≠ 0x0C := by
      rintro rfl
      cases (Reg.at_offset .status).symm.trans hat
    simp [hoff]
  | some r =>
    obtain rfl := Reg.offset_of_at hat
    by_cases hr : r = .status
    · subst hr
      cases hbusy : s.regs.status.busy <;> simp [Reg.observed, observe, hbusy, Reg.offset]
    · have hoff : r.offset ≠ 0x0C := fun h => hr (Option.some.inj ((Reg.at_offset r).symm.trans (h ▸ rfl)))
      simp [Reg.observed, hr, hoff]

theorem regRead_eq {s : State} {off : Nat} (hlt : off < 256) (width : AccessWidth) :
    regRead (s.plat.regBase + off) width s = { s with
      reply := if width = .word ∧ off % 4 = 0 then .data (((readMap s).lookup off).getD 0#32) else .slaveError
      held := if width = .word ∧ off = 0x0C ∧ s.regs.status.busy = false then [] else s.held } := by
  by_cases hgood : width = .word ∧ off % 4 = 0
  · obtain ⟨rfl, halign⟩ := hgood
    simp [regRead_of_word hlt halign, halign]
  · have hheld : ¬(width = .word ∧ off = 0x0C ∧ s.regs.status.busy = false) := fun h => hgood ⟨h.1, by rw [h.2.1]⟩
    rw [regRead_of_bad_access hlt hgood, if_neg hgood, if_neg hheld]

theorem step_of_regRead {s : State} {addr : Nat} {width : AccessWidth} {es : List HostEvent}
    (hhost : s.host = .regRead addr width :: es) : step s = .next (regRead addr width { s with host := es }) := by
  simp only [step, hhost, hostMove]

theorem regWrite_of_bad_access {s : State} {off : Nat} {width : AccessWidth} (v : Word) (hlt : off < 256)
    (hbad : ¬(width = .word ∧ off % 4 = 0)) :
    regWrite (s.plat.regBase + off) width v s = { s with reply := .slaveError } := by
  have hgood : goodAccess off width = false := by simpa [goodAccess] using hbad
  simp [regWrite, windowOffset_regBase_add _ hlt, hgood]

/-- R31: the reserved offsets belong to no register. -/
theorem at_of_reserved {off : Nat} (hres : 0x60 ≤ off) : Reg.at off = none := by
  cases hat : Reg.at off with
  | none => rfl
  | some r =>
    have hoff := Reg.offset_of_at hat
    cases r <;> simp only [Reg.offset] at hoff <;> omega

/-- R32: a write to a read-only or reserved offset while no command runs does nothing. -/
theorem regWriteAt_of_readOnly {s : State} {off : Nat} (v : Word) (hidle : s.regs.status.busy = false)
    (hoff : off ∈ [0x00, 0x04, 0x20, 0x24, 0x4C, 0x50] ∨ 0x60 ≤ off) : regWriteAt off v s = s := by
  obtain hro | hres := hoff
  · simp only [List.mem_cons, List.not_mem_nil, or_false] at hro
    obtain rfl | rfl | rfl | rfl | rfl | rfl := hro
    · exact regWriteAt_accepted (r := .id) v (.inl hidle)
    · exact regWriteAt_accepted (r := .version) v (.inl hidle)
    · exact regWriteAt_accepted (r := .actBlockSize) v (.inl hidle)
    · exact regWriteAt_accepted (r := .actPageSize) v (.inl hidle)
    · exact regWriteAt_accepted (r := .errDetail) v (.inl hidle)
    · exact regWriteAt_accepted (r := .errIndex) v (.inl hidle)
  · simp [regWriteAt, hidle, at_of_reserved hres]

/-- Settles O3: a read looks the register up in the map (`regRead_eq`), a bad access is a slave error, and a write to a read-only
register is ignored (`regWriteAt_of_readOnly`). -/
theorem registerReadsAndBadAccessesChangeNothing : Obligations.RegisterReadsAndBadAccessesChangeNothing := by
  refine ⟨?reads, ?badWrites, ?readOnly⟩
  case reads =>
    intro s off width es hhost hlt g code status map
    have hcode : g.status.errCode = code := by
      simp only [Status.errCode, code]
      cases g.status.errKind with
      | none => rfl
      | some k => cases k <;> rfl
    have hstatus : g.status.word = BitVec.ofNat 32 status := by
      rw [Status.word, hcode]
      rfl
    have hmap : readMap { s with host := es } = map := by
      simp only [readMap, Reg.all, List.map_cons, List.map_nil, Reg.read, map, BitVec.ofNat_toNat, ← hstatus]
      rfl
    rw [step_of_regRead hhost, ← hmap]
    exact congrArg _ (regRead_eq (s := { s with host := es }) hlt width)
  case badWrites =>
    intro s off width v es hhost hlt hbad
    rw [step_of_regWrite hhost]
    exact congrArg _ (regWrite_of_bad_access (s := { s with host := es }) v hlt hbad)
  case readOnly =>
    intro s off v es hhost hidle hoff
    have hplace : off < 256 ∧ off % 4 = 0 ∧ (off ∈ [0x00, 0x04, 0x20, 0x24, 0x4C, 0x50] ∨ 0x60 ≤ off) := by
      simp only [List.mem_cons, List.not_mem_nil, or_false] at hoff ⊢
      omega
    obtain ⟨hlt, halign, hro⟩ := hplace
    rw [step_of_wordWrite hhost hlt halign, regWriteAt_of_readOnly (s := { s with host := es }) v hidle hro]

/-! ### Register writes read back (R38, R41 to R48, R51) -/

/-- The registers a host write sets while BUSY=0. -/
def Reg.isWritten : Reg → Bool
  | .irqEn | .cfgBlockSize | .cfgPageSize | .inBase | .inBound | .inLen | .inCur | .outBase | .outBound | .outCur | .argCount
  | .bwBase | .cntRd | .cntWr | .cntExc => true
  | _ => false

/-- R38: the reserved bits of IRQ_EN read 0. -/
theorem irqEn_word_ofWord (v : Word) : (IrqEn.ofWord v).word = v &&& 3#32 := by
  refine BitVec.eq_of_toNat_eq ?_
  have h3 : (v &&& 3#32).toNat = v.toNat % 4 := by
    rw [BitVec.toNat_and]
    exact Nat.and_two_pow_sub_one_eq_mod v.toNat 2
  have h0 := Nat.toNat_testBit v.toNat 0
  have h1 := Nat.toNat_testBit v.toNat 1
  rw [h3, IrqEn.word, BitVec.toNat_ofNat, IrqEn.ofWord]
  simp only [BitVec.getLsbD, h0, h1]
  omega

section
variable {r : Reg} (v : Word) (s : State)

theorem read_write_same (hr : r.isWritten = true) : r.read (r.write v s) =
    if r ∈ [.inBase, .outBase, .bwBase] then BitVec.ofNat 32 (v.toNat % 2 ^ s.plat.aw)
    else if r = .irqEn then v &&& 3#32 else v := by
  cases r <;> cases hr
  case irqEn.refl => exact irqEn_word_ofWord v
  all_goals rfl

theorem read_write_other (hr : r.isWritten = true) {q : Reg} (hq : q ≠ r) : q.read (r.write v s) = q.read s := by
  cases r <;> cases hr <;> cases q <;> first | rfl | exact absurd rfl hq

/-- A write of a parameter, cursor or counter leaves all but the register file alone. -/
theorem write_frame (hr : r.isWritten = true) :
    (r.write v s).mem = s.mem ∧ (r.write v s).plat = s.plat ∧ (r.write v s).scratch = s.scratch ∧ (r.write v s).host = s.host := by
  cases r <;> cases hr <;> exact ⟨rfl, rfl, rfl, rfl⟩

end

/-- Settles O4: a write sets its own register (`read_write_same`) and no other (`read_write_other`). -/
theorem registerWritesReadBack : Obligations.RegisterWritesReadBack := by
  refine ⟨fun s r v es hhost hidle hmem => ?writes, fun s v es hhost hkeep => ?ctrl⟩
  case writes =>
    have hr : r.isWritten = true := List.all_eq_true.1 (by decide) r hmem
    obtain ⟨hmem, hplat, hscratch, hhost'⟩ := write_frame v { s with host := es } hr
    exact ⟨_, step_of_accepted_write hhost (.inl hidle), read_write_same v { s with host := es } hr,
      fun q hq => read_write_other v { s with host := es } hr hq, hmem, hplat, hscratch, hhost', rfl⟩
  case ctrl =>
    rw [step_of_accepted_write hhost (.inr rfl), write_ctrl_of_not_reset (Bool.eq_false_iff.1 hkeep)]

end Sys2Proof.Machine
end

section
/-! R89's span and data memory under the host's accesses: what ends the span, an access outside it, and the draws of an access against
the duty. -/

namespace Sys2Proof.Machine

/-! ### The windows held (R89) -/

@[simp] theorem dropUnit_held (s : State) : (dropUnit s).held = s.held := by
  unfold dropUnit; split <;> rfl

@[simp] theorem resetEngine_held (s : State) : (resetEngine s).held = s.held := dropUnit_held s

/-- Of the register writes only an issue holds windows. -/
theorem write_held {r : Reg} (hr : r ≠ .cmd) (v : Word) (s : State) : (r.write v s).held = s.held := by
  cases r
  case cmd => exact absurd rfl hr
  case ctrl =>
    rw [Reg.write]
    split
    · exact resetEngine_held s
    · rfl
  all_goals rfl

theorem hostMemRead_windows (s : State) (a : Nat) : (hostMemRead a s).held.map (·.windows) = s.held.map (·.windows) := by
  obtain h | ⟨rep, h⟩ := hostMemRead_cases s a <;> rw [h]
  exact breach_windows s false a

theorem hostMemWrite_windows (s : State) (a : Nat) (v : Word) :
    (hostMemWrite a v s).held.map (·.windows) = s.held.map (·.windows) := by
  obtain h | h := hostMemWrite_cases s a v <;> rw [h]
  exact breach_windows { s with mem := s.mem.setWord a v } true a

/-- An observation that changes the windows held is one of BUSY=0, and ends R89's span. -/
theorem observe_ends_span {s : State} (hchanged : (observe s).held.map (·.windows) ≠ s.held.map (·.windows)) :
    s.regs.status.busy = false ∧ (observe s).held = [] := by
  obtain ⟨-, h⟩ | ⟨hidle, h⟩ := observe_cases s
  · exact absurd (congrArg (fun t : State => t.held.map (·.windows)) h) hchanged
  · exact ⟨hidle, congrArg State.held h⟩

/-- Every host event that changes the windows held: an issue, or an observation of BUSY=0. -/
theorem hostMove_changes_windows {e : HostEvent} {s : State}
    (hchanged : (hostMove e s).held.map (·.windows) ≠ s.held.map (·.windows)) :
    s.regs.status.busy = false ∧
      ((∃ w, e = wr s.plat .cmd w ∧
        (hostMove e s).held = (commandWindows (hostMove e s)).toList.map (Held.mk · false) ++ s.held) ∨
      ((hostMove e s).held = [] ∧ (e = rd s.plat .status ∨ e = .await ∨ (e = .irqSample ∧ s.irq = true)))) := by
  cases e with
  | regRead addr width =>
    rw [hostMove] at hchanged ⊢
    obtain ⟨rep, h⟩ | ⟨rfl, rfl, h⟩ := regRead_cases addr width s <;> rw [h] at hchanged ⊢
    · exact absurd rfl hchanged
    · obtain ⟨hidle, hnone⟩ := observe_ends_span hchanged
      exact ⟨hidle, .inr ⟨hnone, .inl rfl⟩⟩
  | regWrite addr width v =>
    rw [hostMove] at hchanged ⊢
    obtain ⟨rep, h⟩ | ⟨-, h⟩ | ⟨r, hopen, rfl, rfl, h⟩ := regWrite_cases addr width v s <;> rw [h] at hchanged ⊢
    · exact absurd rfl hchanged
    · exact absurd rfl hchanged
    · by_cases hr : r = .cmd
      · subst hr
        exact ⟨hopen.resolve_right Bool.false_ne_true, .inl ⟨v, rfl, rfl⟩⟩
      · exact absurd (congrArg (List.map (·.windows)) (write_held hr v s)) hchanged
  | memRead a => exact absurd (hostMemRead_windows s a) hchanged
  | memWrite a v => exact absurd (hostMemWrite_windows s a v) hchanged
  | rstN => exact absurd (congrArg (List.map (·.windows)) (resetEngine_held s)) hchanged
  | quiet => exact absurd rfl hchanged
  | await =>
    obtain ⟨hidle, hnone⟩ := observe_ends_span hchanged
    exact ⟨hidle, .inr ⟨hnone, .inr (.inl rfl)⟩⟩
  | irqSample =>
    rw [hostMove] at hchanged ⊢
    cases hirq : s.irq with
    | false => exact absurd (by simp [hirq]) hchanged
    | true =>
      simp only [hirq, if_true] at hchanged ⊢
      obtain ⟨hidle, hnone⟩ := observe_ends_span hchanged
      exact ⟨hidle, .inr ⟨hnone, .inr (.inr ⟨trivial, trivial⟩)⟩⟩

theorem hostMemRead_host (s : State) (a : Nat) : (hostMemRead a s).host = s.host := by
  obtain h | ⟨rep, h⟩ := hostMemRead_cases s a <;> rw [h]
  exact breach_host s false a

theorem hostMemWrite_host (s : State) (a : Nat) (v : Word) : (hostMemWrite a v s).host = s.host := by
  obtain h | h := hostMemWrite_cases s a v <;> rw [h]
  exact breach_host { s with mem := s.mem.setWord a v } true a

/-! ### Accesses outside the span (R116) -/

theorem breach_of_allowed {s : State} {write : Bool} {a : Nat} (hfree : s.held.any (Held.forbids write a) = false) :
    breach write a s = s := by
  simp [breach, hfree]

section
variable {s : State} {a : Nat}

theorem step_of_memRead {es : List HostEvent} (hhost : s.host = .memRead a :: es) :
    step s = .next (hostMemRead a { s with host := es }) := by
  simp only [step, hhost, hostMove]

theorem step_of_memWrite {v : Word} {es : List HostEvent} (hhost : s.host = .memWrite a v :: es) :
    step s = .next (hostMemWrite a v { s with host := es }) := by
  simp only [step, hhost, hostMove]

theorem hostWordOk_of {s : State} {a : Nat} (halign : a % 4 = 0) (hlt : a + 4 ≤ 2 ^ s.plat.aw) (hok : s.plat.errs a = false) :
    hostWordOk s a = true := by
  simp [hostWordOk, halign, hlt, hok]

end

/-- Settles O9: with no window held no access is a breach, and only an issue or an observation of BUSY=0 changes the windows held
(`hostMove_changes_windows`). -/
theorem hostMemoryAccessesWhileIdle : Obligations.HostMemoryAccessesWhileIdle := by
  refine ⟨?accesses, ?span⟩
  case accesses =>
    intro s a es hwf hheld halign hlt hok
    have hserved : hostWordOk { s with host := es } a = true := hostWordOk_of halign hlt hok
    refine ⟨fun hhost => ?read, fun v hhost => ?write⟩
    case read =>
      rw [step_of_memRead hhost, hostMemRead, if_pos hserved, breach_of_allowed (by simp [hheld])]
      simp [hheld]
    case write =>
      refine ⟨_, step_of_memWrite hhost, ?_⟩
      rw [hostMemWrite, if_pos hserved, breach_of_allowed (by simp [hheld])]
      exact ⟨Memory.word_setWord_same hwf a v, fun b => Memory.byte_setWord_other hwf v, rfl⟩
  case span =>
    intro s t hstep hchanged
    obtain hmove | ⟨es, -, hmove⟩ | ⟨e, es, hhost, -, rfl⟩ := step_cases hstep
    · exact absurd (congrArg (List.map (·.windows)) (engineKeeps_of_engineMove hmove).held) hchanged
    · exact absurd (congrArg (List.map (·.windows)) (engineKeeps_of_engineMove hmove).held) hchanged
    · obtain ⟨hidle, ⟨w, rfl, hheld⟩ | ⟨hnone, he⟩⟩ := hostMove_changes_windows (s := { s with host := es }) hchanged
      · exact ⟨hidle, .inl ⟨w, es, hhost, hheld⟩⟩
      · refine ⟨hidle, .inr ⟨hnone, es, ?_⟩⟩
        obtain rfl | rfl | ⟨rfl, hirq⟩ := he
        · exact .inl hhost
        · exact .inr (.inl hhost)
        · exact .inr (.inr ⟨hhost, hirq⟩)

/-! ### The words an access against the duty loses (R89) -/

theorem AddrRange.hasWord_iff (r : AddrRange) (a : Nat) : r.hasWord a = true ↔ r.lo < r.hi ∧ r.lo < a + 4 ∧ a < r.hi := by
  rw [AddrRange.hasWord, AddrRange.overlaps_iff]
  exact ⟨fun ⟨hne, _, hlo, hhi⟩ => ⟨hne, hlo, hhi⟩, fun ⟨hne, hlo, hhi⟩ => ⟨hne, by simp, hlo, hhi⟩⟩

/-- Every byte of a range's words is a byte of an aligned word that shares a byte with it. -/
theorem AddrRange.hasWord_of_words {p : Platform} {r : AddrRange} {b : Nat} (hlo : (r.words p).1 ≤ b)
    (hhi : b < (r.words p).1 + 4 * (r.words p).2) : r.hasWord (b / 4 * 4) = true := by
  rw [AddrRange.hasWord_iff]
  simp only [AddrRange.words] at hlo hhi
  generalize 2 ^ p.aw = top at hhi
  split at hhi <;> omega

/-- An aligned word that shares a byte with a range is one of its words. -/
theorem AddrRange.words_of_hasWord {p : Platform} {r : AddrRange} {x : Nat} (halign : x % 4 = 0) (htop : x + 4 ≤ 2 ^ p.aw)
    (hshare : r.hasWord x = true) : ∃ k < (r.words p).2, (r.words p).1 + 4 * k = x := by
  obtain ⟨hne, hlo, hhi⟩ := (AddrRange.hasWord_iff r x).1 hshare
  simp only [AddrRange.words, if_pos hne]
  generalize 2 ^ p.aw = top at htop
  exact ⟨x / 4 - r.lo / 4, by omega, by omega⟩

theorem forbids_iff (h : Held) (write : Bool) (a : Nat) : h.forbids write a = true ↔
    h.windows.outWin.hasWord a = true ∨
      (write = true ∧ (h.windows.inWin.hasWord a = true ∨ h.windows.tabWin.hasWord a = true)) := by
  simp [Held.forbids]

section
variable {s : State} {m : Memory} {hs : List Held}

theorem loseOutput_wf (hm : m.wf) (h : Held) : (loseOutput s m h).wf := Memory.setWords_wf hm _ _

theorem byte_loseOutput_other (hm : m.wf) (h : Held) {b : Nat} (hb : h.windows.outWin.hasWord (b / 4 * 4) = false) :
    (loseOutput s m h).byte b = m.byte b := by
  refine Memory.byte_setWords_other hm _ ?_
  rw [freeWords_length]
  by_contra hin
  have := AddrRange.hasWord_of_words (p := s.plat) (r := h.windows.outWin) (b := b) (by omega) (by omega)
  simp [hb] at this

theorem byte_lost_other (hm : m.wf) {b : Nat} (hb : ∀ h ∈ hs, h.windows.outWin.hasWord (b / 4 * 4) = false) :
    (hs.foldl (loseOutput s) m).byte b = m.byte b := by
  induction hs generalizing m with
  | nil => rfl
  | cons h hs ih =>
    obtain ⟨hfirst, hrest⟩ := List.forall_mem_cons.1 hb
    rw [List.foldl_cons, ih (loseOutput_wf hm h) hrest, byte_loseOutput_other hm h hfirst]

theorem word_lost_other (hm : m.wf) {x : Nat} (halign : x % 4 = 0) (hx : ∀ h ∈ hs, h.windows.outWin.hasWord x = false) :
    (hs.foldl (loseOutput s) m).word x = m.word x := by
  have hbyte : ∀ k < 4, (hs.foldl (loseOutput s) m).byte (x + k) = m.byte (x + k) := fun k hk =>
    byte_lost_other hm fun h hh => by
      rw [show (x + k) / 4 * 4 = x by omega]
      exact hx h hh
  have h0 := hbyte 0 (by omega)
  rw [Nat.add_zero] at h0
  rw [Memory.word, hbyte 3 (by omega), hbyte 2 (by omega), hbyte 1 (by omega), h0, Memory.word]

/-- R89: an aligned word of an output window that is lost becomes the draw for its address. -/
theorem word_lost_of_mem (hm : m.wf) {x : Nat} (halign : x % 4 = 0) (htop : x + 4 ≤ 2 ^ s.plat.aw)
    (hx : m.word x = Config.freeWord s.draws x ∨ ∃ h ∈ hs, h.windows.outWin.hasWord x = true) :
    (hs.foldl (loseOutput s) m).word x = Config.freeWord s.draws x := by
  induction hs generalizing m with
  | nil => simpa using hx
  | cons h hs ih =>
    rw [List.foldl_cons]
    refine ih (loseOutput_wf hm h) ?_
    cases hshare : h.windows.outWin.hasWord x with
    | true =>
      obtain ⟨k, hk, rfl⟩ := AddrRange.words_of_hasWord halign htop hshare
      refine .inl ?_
      rw [loseOutput, Memory.word_setWords hm _ _ k (by simpa using hk), freeWords_getElem]
    | false =>
      have hsame : (loseOutput s m h).word x = m.word x :=
        word_lost_other (hs := [h]) hm halign (by simpa using hshare)
      rw [hsame]
      simpa [hshare] using hx

end

section
variable {s : State} {write : Bool} {a : Nat}

theorem byte_breach_other (hm : s.mem.wf) {b : Nat} (hb : ∀ h ∈ s.held, h.windows.outWin.hasWord (b / 4 * 4) = false) :
    (breach write a s).mem.byte b = s.mem.byte b := by
  obtain ⟨-, h⟩ | ⟨-, h⟩ := breach_cases s write a <;> rw [h]
  exact byte_lost_other hm fun h hh => hb h (List.mem_filter.1 hh).1

theorem word_breach_other (hm : s.mem.wf) {x : Nat} (halign : x % 4 = 0)
    (hx : ∀ h ∈ s.held, h.windows.outWin.hasWord x = false) : (breach write a s).mem.word x = s.mem.word x := by
  obtain ⟨-, h⟩ | ⟨-, h⟩ := breach_cases s write a <;> rw [h]
  exact word_lost_other hm halign fun h hh => hx h (List.mem_filter.1 hh).1

theorem breach_of_forbids {h : Held} (hh : h ∈ s.held) (hforbid : h.forbids write a = true) : breach write a s = { s with
    mem := (s.held.filter (Held.forbids write a)).foldl (loseOutput s) s.mem
    held := s.held.map fun h => { h with broken := h.broken || h.forbids write a }
    draws := s.draws + 2 } :=
  if_pos (List.any_eq_true.2 ⟨h, hh, hforbid⟩)

theorem draws_breach_of_forbids {h : Held} (hh : h ∈ s.held) (hforbid : h.forbids write a = true) :
    s.draws < (breach write a s).draws := by
  rw [breach_of_forbids hh hforbid]
  exact Nat.lt_add_of_pos_right Nat.two_pos

/-- R89: a command towards which the access breaks the duty loses its output window. -/
theorem word_breach_of_forbids (hm : s.mem.wf) {h : Held} (hh : h ∈ s.held) (hforbid : h.forbids write a = true) {x : Nat}
    (halign : x % 4 = 0) (htop : x + 4 ≤ 2 ^ s.plat.aw) (hx : h.windows.outWin.hasWord x = true) :
    (breach write a s).mem.word x = Config.freeWord s.draws x := by
  rw [breach_of_forbids hh hforbid]
  exact word_lost_of_mem hm halign htop (.inr ⟨h, List.mem_filter.2 ⟨hh, hforbid⟩, hx⟩)

/-- R89: an access marks the commands towards which it breaks the duty, and no other. -/
theorem getElem?_held_breach {i : Nat} {h : Held} (hi : s.held[i]? = some h) :
    (breach write a s).held[i]? = some { h with broken := h.broken || h.forbids write a } := by
  obtain ⟨hnone, h'⟩ | ⟨-, h'⟩ := breach_cases s write a <;> rw [h']
  · have hfree : h.forbids write a = false := by simpa using List.any_eq_false.1 hnone h (List.mem_of_getElem? hi)
    rw [hi, hfree, Bool.or_false]
  · simp [hi]

theorem byte_hostMemRead_other (hm : s.mem.wf) {b : Nat}
    (hb : ∀ h ∈ s.held, h.windows.outWin.hasWord (b / 4 * 4) = false) : (hostMemRead a s).mem.byte b = s.mem.byte b := by
  obtain h | ⟨rep, h⟩ := hostMemRead_cases s a <;> rw [h]
  exact byte_breach_other hm hb

theorem byte_hostMemWrite_other (hm : s.mem.wf) (v : Word) {b : Nat} (hout : b < a ∨ a + 4 ≤ b)
    (hb : ∀ h ∈ s.held, h.windows.outWin.hasWord (b / 4 * 4) = false) : (hostMemWrite a v s).mem.byte b = s.mem.byte b := by
  obtain h | h := hostMemWrite_cases s a v <;> rw [h]
  exact (byte_breach_other (s := { s with mem := s.mem.setWord a v }) (Memory.setWord_wf hm a v) hb).trans
    (Memory.byte_setWord_other hm v hout)

/-- A served host access: the store of a write, and then the breach it may make. -/
theorem step_of_access {v : Word} {es : List HostEvent} (hhost : s.host = (if write then .memWrite a v else .memRead a) :: es)
    (hserved : hostWordOk s a = true) : ∃ rep,
    step s = .next { breach write a { s with host := es, mem := if write then s.mem.setWord a v else s.mem } with reply := rep } ∧
      (write = true → rep = .ack) ∧
      (write = false → rep = .data
        (if s.held.any (Held.forbids false a) then Config.freeWord (s.draws + 1) a else s.mem.word a)) := by
  have hserved' : hostWordOk { s with host := es } a = true := hserved
  cases write with
  | true =>
    refine ⟨.ack, ?_, fun _ => rfl, nofun⟩
    rw [step_of_memWrite hhost, hostMemWrite, if_pos hserved']
    rfl
  | false =>
    refine ⟨_, ?_, nofun, fun _ => rfl⟩
    rw [step_of_memRead hhost, hostMemRead, if_pos hserved']
    rfl

end

/-! ### The draws of a command towards which the host broke its duty (R89) -/

section
variable {s : State} {p : Plan} {run : Run}

/-- R52: a command goes on at its running cursors, or starts at those of its issue. -/
theorem started_cases (hstart : started s p = .ok run) :
    s.scratch.run = some run ∨ (s.scratch.run = none ∧ prologue s p = none ∧ run = issueRun s) := by
  unfold started at hstart
  split at hstart
  case h_1 hrun => exact .inl (hrun.trans (congrArg some (Except.ok.inj hstart)))
  case h_2 hrun =>
    split at hstart
    case h_1 => cases hstart
    case h_2 hpass => exact .inr ⟨hrun, hpass, (Except.ok.inj hstart).symm⟩

/-- R52: the cursors of a command about to make a unit are those of the registers. -/
theorem Inv.cursors (hinv : Inv s) (hstart : started s p = .ok run) :
    s.regs.inCur.toNat = run.icur ∧ s.regs.outCur.toNat = run.ocur := by
  obtain hrun | ⟨-, -, rfl⟩ := started_cases hstart
  · exact ⟨(hinv.running run hrun).inCursor, (hinv.running run hrun).outCursor⟩
  · exact ⟨rfl, rfl⟩

theorem dutyBroken_of_head {h : Held} (hhead : s.held.head? = some h) : dutyBroken s = h.broken := by
  simp [dutyBroken, hhead]

theorem word_commitUnit_of_broken (hm : s.mem.wf) (hbroken : dutyBroken s = true) {d : UnitDone} {k : Nat}
    (hk : k < d.words.length) : (commitUnit run d s).mem.word (outAddr s (run.ocur + k)) =
      Config.freeWord (s.draws + 1) (outAddr s (run.ocur + k)) := by
  have haddr : outAddr s (run.ocur + k) = outAddr s run.ocur + 4 * k := by simp only [outAddr]; omega
  rw [commitUnit_mem, writtenWords_broken hbroken, haddr, Memory.word_setWords hm _ _ k (by simpa using hk), freeWords_getElem]

/-- R89: each word such a command's unit writes is a draw. -/
theorem word_turn_of_broken (hinv : Inv s) (u : Units) (hbroken : dutyBroken s = true) (hstart : started s p = .ok run)
    (hok : (turn p u s).regs.status.err = false) {k : Nat} (hk : run.ocur + k < (turn p u s).regs.outCur.toNat) :
    (turn p u s).mem.word (outAddr s (run.ocur + k)) = Config.freeWord (s.draws + 1) (outAddr s (run.ocur + k)) := by
  obtain ⟨r, -, hturn⟩ | ⟨run', -, -, hturn⟩ | ⟨run', r, -, -, hturn, -⟩ | ⟨run', d, hstart', -, -, -, -, hturn⟩ :=
    turn_cases p u s <;> rw [hturn] at hok hk ⊢
  · cases hok
  · have hcursor : run.ocur + k < s.regs.outCur.toNat := hk
    rw [(hinv.cursors hstart).2] at hcursor
    omega
  · rw [abortUnit_regs] at hok
    cases hok
  · obtain rfl := Except.ok.inj (hstart.symm.trans hstart')
    have hlt : k < d.words.length := by
      have hcursor : run.ocur + k < (BitVec.ofNat 32 (run.ocur + d.words.length)).toNat := by split at hk <;> exact hk
      rw [BitVec.toNat_ofNat] at hcursor
      omega
    split <;> exact word_commitUnit_of_broken hinv.memory hbroken hlt

end

/-- Settles O10: what an access against the duty loses, keeps and marks is `breach` (`word_breach_of_forbids`, `byte_breach_other`,
`getElem?_held_breach`), and from then on each read and each word written is a draw (`word_turn_of_broken`). -/
theorem hostAccessesAgainstTheDutyAreDraws : Obligations.HostAccessesAgainstTheDutyAreDraws := by
  unfold Obligations.HostAccessesAgainstTheDutyAreDraws
  intro shares
  have hshares : ∀ (r : AddrRange) (x : Nat), r.hasWord x = true ↔ shares r x := AddrRange.hasWord_iff
  have hapart : ∀ {hs : List Held} {x : Nat}, (∀ h ∈ hs, ¬shares h.windows.outWin x) →
      ∀ h ∈ hs, h.windows.outWin.hasWord x = false := fun hall h hh => Bool.eq_false_iff.2 fun hx =>
    hall h hh ((hshares _ _).1 hx)
  refine ⟨?frame, ?access, ?reads, ?writes⟩
  case frame =>
    intro s t a v es hm hhost hstep
    obtain hhost | hhost := hhost
    · rw [step_of_memRead hhost] at hstep
      obtain rfl := Host.Outcome.next.inj hstep
      obtain ⟨hplat, hregs, hscratch⟩ := sameEngine_hostMemRead { s with host := es } a
      refine ⟨hregs, hscratch, hplat, hostMemRead_host _ _, hostMemRead_windows _ _, fun b _ hb => ?_⟩
      exact byte_hostMemRead_other (s := { s with host := es }) hm (hapart hb)
    · rw [step_of_memWrite hhost] at hstep
      obtain rfl := Host.Outcome.next.inj hstep
      obtain ⟨hplat, hregs, hscratch⟩ := sameEngine_hostMemWrite { s with host := es } a v
      refine ⟨hregs, hscratch, hplat, hostMemWrite_host _ _ _, hostMemWrite_windows _ _ _, fun b hout hb => ?_⟩
      exact byte_hostMemWrite_other (s := { s with host := es }) hm v hout (hapart hb)
  case access =>
    intro s a v write es hm halign htop hok hhost hit
    have hhit : ∀ h : Held, h.forbids write a = true ↔ hit h := fun h => by
      simp only [forbids_iff, hshares, hit]
    obtain ⟨rep, hstep, hack, hdata⟩ := step_of_access hhost (hostWordOk_of halign htop hok)
    have hm' : (if write then s.mem.setWord a v else s.mem).wf := by
      split
      · exact Memory.setWord_wf hm a v
      · exact hm
    have hallowed : (∀ h ∈ s.held, ¬hit h) → s.held.any (Held.forbids write a) = false := fun hnone =>
      List.any_eq_false.2 fun h hh hf => hnone h hh ((hhit h).1 hf)
    refine ⟨_, hstep, ?allowed, ?marks, ?lost, ?write, ?read⟩
    case allowed =>
      intro hnone
      rw [breach_of_allowed (s := { s with host := es, mem := _ }) (hallowed hnone)]
      refine ⟨rfl, rfl, fun b hb => ?_⟩
      cases write with
      | true => exact Memory.byte_setWord_other hm v (by simpa using hb)
      | false => rfl
    case marks =>
      intro i h hi
      exact ⟨_, getElem?_held_breach (s := { s with host := es, mem := _ }) hi, rfl, by simp [hhit]⟩
    case lost =>
      intro h hh hforbid
      have hforbid' := (hhit h).2 hforbid
      exact ⟨draws_breach_of_forbids (s := { s with host := es, mem := _ }) hh hforbid', fun x hx htopx hshare =>
        word_breach_of_forbids (s := { s with host := es, mem := _ }) hm' hh hforbid' hx htopx ((hshares _ _).2 hshare)⟩
    case write =>
      rintro rfl
      refine ⟨hack rfl, fun hfree => ?_⟩
      rw [if_pos rfl] at hm'
      refine (word_breach_other (s := { s with host := es, mem := _ }) hm' halign (hapart hfree)).trans ?_
      exact Memory.word_setWord_same hm a v
    case read =>
      rintro rfl
      refine ⟨fun hnone => ?_, fun h hh hforbid => ?_⟩
      · exact (hdata rfl).trans (by rw [hallowed hnone]; rfl)
      · exact (hdata rfl).trans (by rw [if_pos (List.any_eq_true.2 ⟨h, hh, (hhit h).2 hforbid⟩)])
  case reads =>
    intro s h a hhead hbroken hok
    simp [memRead, hok, dutyBroken_of_head hhead, hbroken]
  case writes =>
    intro i s t p u run h hinv hbusy _ hcmd hstart hhead hbroken hexec hok k hk
    rw [exec_eq_turn hcmd] at hexec
    obtain rfl := Host.Outcome.next.inj hexec
    exact word_turn_of_broken hinv u ((dutyBroken_of_head hhead).trans hbroken) hstart hok hk

end Sys2Proof.Machine
end

section
/-! Reset while a unit is in flight (R291, R292): what it may leave unspecified. -/

namespace Sys2Proof.Machine

section
variable {s : State} {u : Units} {run : Run}

theorem unitInFlight_eq_some (hunit : unitInFlight s = some (u, run)) :
    ∃ i p, decode s.regs.cmd = .ok i ∧ commandOf i s = some (p, u) ∧ started s p = .ok run ∧ u.more run = true := by
  unfold unitInFlight at hunit
  split at hunit
  case isFalse => cases hunit
  case isTrue =>
    split at hunit
    case h_1 => cases hunit
    case h_2 i hi =>
      split at hunit
      case h_1 => cases hunit
      case h_2 p u' hcmd =>
        split at hunit
        case h_1 => cases hunit
        case h_2 run' hstart =>
          split at hunit
          case isFalse => cases hunit
          case isTrue hmore =>
            cases hunit
            exact ⟨i, p, hi, hcmd, hstart, hmore⟩

/-- R259: what is scrambled is the words named. -/
theorem byte_scramble_other (hm : s.mem.wf) {lo n b : Nat} (hb : b < outAddr s lo ∨ outAddr s lo + 4 * n ≤ b) :
    (scramble lo n s).mem.byte b = s.mem.byte b :=
  Memory.byte_setWords_other hm _ (by rwa [freeWords_length])

theorem byte_dropUnit_other (hm : s.mem.wf) (hunit : unitInFlight s = some (u, run)) {b : Nat}
    (hb : b < outAddr s run.ocur ∨ outAddr s run.ocur + 4 * (unitRange s u run).2 ≤ b) :
    (dropUnit s).mem.byte b = s.mem.byte b := by
  simp only [dropUnit, hunit]
  exact byte_scramble_other hm hb

/-- R223: the length of a page's output, by its H0. -/
theorem decodeExtent_of_validH0 {h : Word} (hmore : (decodeUnits s).more run = true) (hh : quietIn s run.icur = .ok h)
    (hvalid : validH0 (actBS s) (actPS s) h = true) : decodeExtent s run = some (field h 8 24 * actBS s) := by
  have hin : ¬run.icur0 + s.regs.inLen.toNat ≤ run.icur := not_le.2 (of_decide_eq_true hmore)
  simp [decodeExtent, pageBlockCount, hin, hh, hvalid]

end

/-- Settles O2: both resets are `resetEngine`, which scrambles the output range of the unit in flight and nothing else
(`byte_dropUnit_other`). -/
theorem softResetTouchesOnlyTheUnitInFlight : Obligations.SoftResetTouchesOnlyTheUnitInFlight := by
  intro s v es hm hv hhost
  obtain ⟨rep, hstep⟩ : ∃ rep, step s = .next { resetEngine { s with host := es } with reply := rep } := by
    obtain hhost | hhost := hhost
    · rw [step_of_accepted_write hhost (.inr rfl), write_ctrl_of_reset hv]
      exact ⟨_, rfl⟩
    · exact ⟨_, step_of_rstN hhost⟩
  refine ⟨_, hstep, rfl, rfl, irq_eq_false_of_flags_clear rfl rfl, resetEngine_plat _, resetEngine_host _,
    resetEngine_mem_of_no_unit (s := { s with host := es }), fun u run hunit => ⟨fun a => ?outside, ?decode⟩⟩
  case outside => exact byte_dropUnit_other (s := { s with host := es }) hm hunit
  case decode =>
    intro hcmd h hh hvalid
    obtain ⟨i, p, hi, hunits, -, hmore⟩ := unitInFlight_eq_some hunit
    obtain rfl : Instr.decode = i := Except.ok.inj (hcmd.symm.trans hi)
    obtain ⟨-, rfl⟩ := Prod.mk.inj (Option.some.inj hunits)
    have hextent : decodeExtent { s with host := es } run = some (field h 8 24 * actBS s) :=
      decodeExtent_of_validH0 (s := { s with host := es }) hmore hh hvalid
    simp only [unitRange, decodeUnits, hextent]
    exact Nat.min_le_left _ _

end Sys2Proof.Machine
end

section
/-! Readers (R10): what the stream procedures make of a read that errs. A reader that answers less than another gives the same outcome
or the error of a read it makes, and with a reader that always answers only the procedures' own errors are left. -/

namespace Sys2Proof.Machine

/-! ### Readers that answer -/

/-- Where `rd` answers, `rd'` answers the same. -/
def Answers (rd rd' : Nat → Except Raise Word) : Prop := ∀ x w, rd x = .ok w → rd' x = .ok w

/-- A reader that meets no error. -/
def NeverErrs (rd : Nat → Except Raise Word) : Prop := ∀ x, ∃ w, rd x = .ok w

/-- `out` is the error of a read at an index with `P`. -/
def FailedRead {α : Type} (rd : Nat → Except Raise Word) (P : Nat → Prop) (out : Except Raise α) : Prop :=
  ∃ x r, P x ∧ rd x = .error r ∧ out = .error r

/-- `out` is CorruptStream with one of the details `ds`. -/
def Corrupts (ds : List Nat) (r : Raise) : Prop := ∃ d ∈ ds, ∃ x, r = corrupt d x

theorem FailedRead.mono {α : Type} {rd : Nat → Except Raise Word} {P Q : Nat → Prop} {out : Except Raise α}
    (hfail : FailedRead rd P out) (himp : ∀ x, P x → Q x) : FailedRead rd Q out := by
  obtain ⟨x, r, hx, hread, hout⟩ := hfail
  exact ⟨x, r, himp x hx, hread, hout⟩

/-- Two readers at one index: the same answer, or an error of the first. -/
theorem Answers.read {rd rd' : Nat → Except Raise Word} (hsub : Answers rd rd') (x : Nat) :
    (∃ w, rd x = .ok w ∧ rd' x = .ok w) ∨ ∃ r, rd x = .error r := by
  cases h : rd x with
  | ok w => exact .inl ⟨w, rfl, hsub x w h⟩
  | error r => exact .inr ⟨r, rfl⟩

theorem Corrupts.mono {ds es : List Nat} {r : Raise} (h : Corrupts ds r) (hsub : ds ⊆ es) : Corrupts es r := by
  obtain ⟨d, hd, x, rfl⟩ := h
  exact ⟨d, hsub hd, x, rfl⟩

/-! ### The procedures under two readers -/

section
variable {rd rd' : Nat → Except Raise Word} (hsub : Answers rd rd')
include hsub

theorem readRun_same_or_failed (i n : Nat) :
    readRun rd i n = readRun rd' i n ∨ FailedRead rd (fun x => i ≤ x ∧ x < i + n) (readRun rd i n) := by
  induction n generalizing i with
  | zero => exact .inl rfl
  | succ n ih =>
    obtain ⟨w, hw, hw'⟩ | ⟨r, hr⟩ := hsub.read i
    · obtain hsame | ⟨x, r, hx, hread, hout⟩ := ih (i + 1)
      · exact .inl (by simp only [readRun, hw, hw', hsame])
      · exact .inr ⟨x, r, by omega, hread, by simp only [readRun, hw, hout]⟩
    · exact .inr ⟨i, r, by omega, hr, by simp only [readRun, hr]⟩

theorem readBuckets_same_or_failed (bs wend b j nb : Nat) :
    readBuckets rd bs wend b j nb = readBuckets rd' bs wend b j nb ∨
      FailedRead rd (fun x => j ≤ x ∧ x < wend ∧ x < j + nb) (readBuckets rd bs wend b j nb) := by
  induction nb generalizing j with
  | zero => exact .inl rfl
  | succ nb ih =>
    by_cases hend : wend ≤ j
    · exact .inl (by simp only [readBuckets, if_pos hend])
    obtain ⟨w, hw, hw'⟩ | ⟨r, hr⟩ := hsub.read j
    · cases hvalid : validB bs w b with
      | false => exact .inl (by simp [readBuckets, hend, hw, hw', hvalid])
      | true =>
        obtain hsame | ⟨x, r, hx, hread, hout⟩ := ih (j + 1)
        · exact .inl (by simp [readBuckets, hend, hw, hw', hvalid, hsame])
        · exact .inr ⟨x, r, by omega, hread, by simp [readBuckets, hend, hw, hvalid, hout]⟩
    · exact .inr ⟨j, r, by omega, hr, by simp [readBuckets, hend, hr]⟩

end

theorem readBuckets_length {rd : Nat → Except Raise Word} {bs wend b j nb : Nat} {ks : List BucketInfo}
    (hok : readBuckets rd bs wend b j nb = .ok ks) : ks.length = nb := by
  induction nb generalizing j ks with
  | zero => simp [← Except.ok.inj hok]
  | succ nb ih =>
    simp only [readBuckets] at hok
    split at hok
    case isTrue => cases hok
    case isFalse =>
      split at hok
      case h_1 => cases hok
      case h_2 =>
        split at hok
        case isTrue => cases hok
        case isFalse =>
          split at hok
          case h_1 => cases hok
          case h_2 ks' hks => rw [← Except.ok.inj hok, List.length_cons, ih hks]

section
variable {rd rd' : Nat → Except Raise Word} (hsub : Answers rd rd')
include hsub

/-- Where the fuller reader parses a group, the read that fails is one of the group's words. -/
theorem readGroup_same_or_failed (bs wend j : Nat) :
    readGroup rd bs wend j = readGroup rd' bs wend j ∨
      FailedRead rd (fun x => j ≤ x ∧ x < wend ∧ ∀ g, readGroup rd' bs wend j = .ok g → x < j + groupLen g)
        (readGroup rd bs wend j) := by
  by_cases hend : wend ≤ j
  · exact .inl (by simp only [readGroup, if_pos hend])
  obtain ⟨d, hd, hd'⟩ | ⟨r, hr⟩ := hsub.read j
  · cases hvalid : validD d with
    | false => exact .inl (by simp [readGroup, hend, hd, hd', hvalid])
    | true =>
      have hgroup := readGroup_valid (bs := bs) (not_le.1 hend) hd hvalid
      have hgroup' := readGroup_valid (bs := bs) (not_le.1 hend) hd' hvalid
      obtain hsame | ⟨x, r, ⟨hlo, hwin, hhi⟩, hread, hout⟩ :=
        readBuckets_same_or_failed hsub bs wend (field d 0 6) (j + 1) (field d 8 6)
      · exact .inl (by rw [hgroup, hgroup', hsame])
      · refine .inr ⟨x, r, ⟨by omega, hwin, fun g hg => ?_⟩, hread, by rw [hgroup, hout]; rfl⟩
        cases hks : readBuckets rd' bs wend (field d 0 6) (j + 1) (field d 8 6) with
        | error r => simp [hgroup', hks, Except.map] at hg
        | ok ks =>
          rw [hgroup', hks] at hg
          rw [← Except.ok.inj hg, groupLen, readBuckets_length hks]
          omega
  · refine .inr ⟨j, r, ⟨le_rfl, not_le.1 hend, fun g _ => ?_⟩, hr, by simp [readGroup, hend, hr]⟩
    rw [groupLen]
    omega

theorem readGroups_same_or_failed (bs wend j n : Nat) :
    readGroups rd bs wend j n = readGroups rd' bs wend j n ∨
      FailedRead rd (fun x => j ≤ x ∧ x < wend ∧
        ∀ gs, readGroups rd' bs wend j n = .ok gs → x < j + (gs.map groupLen).sum) (readGroups rd bs wend j n) := by
  induction n generalizing j with
  | zero => exact .inl rfl
  | succ n ih =>
    obtain hsame | ⟨x, r, ⟨hlo, hwin, hhi⟩, hread, hout⟩ := readGroup_same_or_failed hsub bs wend j
    · cases hg : readGroup rd' bs wend j with
      | error r => exact .inl (by simp only [readGroups, hsame, hg])
      | ok g =>
        obtain hsame' | ⟨x, r, ⟨hlo, hwin, hhi⟩, hread, hout⟩ := ih (j + groupLen g)
        · exact .inl (by simp only [readGroups, hsame, hg, hsame'])
        · refine .inr ⟨x, r, ⟨by omega, hwin, fun gs hgs => ?_⟩, hread, by simp only [readGroups, hsame, hg, hout]⟩
          simp only [readGroups, hg] at hgs
          split at hgs
          case h_1 => cases hgs
          case h_2 gs' hgs' =>
            have := hhi gs' hgs'
            rw [← Except.ok.inj hgs, List.map_cons, List.sum_cons]
            omega
    · refine .inr ⟨x, r, ⟨hlo, hwin, fun gs hgs => ?_⟩, hread, by simp only [readGroups, hout]⟩
      simp only [readGroups] at hgs
      split at hgs
      case h_1 => cases hgs
      case h_2 g hg =>
        split at hgs
        case h_1 => cases hgs
        case h_2 gs' hgs' =>
          have := hhi g hg
          rw [← Except.ok.inj hgs, List.map_cons, List.sum_cons]
          omega

end

/-- R221: a header that parses: H0 is inside the window and valid, the groups parse, and PLEN stays inside the window. -/
theorem readHeader_eq_ok_iff {rd : Nat → Except Raise Word} {bs ps wend j : Nat} {p : Header} :
    readHeader rd bs ps wend j = .ok p ↔ j < wend ∧ rd j = .ok p.h ∧ validH0 bs ps p.h = true ∧
      readGroups rd bs wend (j + 1) (field p.h 8 24) = .ok p.groups ∧ j + p.plen bs ≤ wend := by
  constructor
  · intro hok
    simp only [readHeader] at hok
    split at hok
    case isTrue => cases hok
    case isFalse hin =>
      split at hok
      case h_1 => cases hok
      case h_2 h hh =>
        split at hok
        case isTrue => cases hok
        case isFalse hvalid =>
          split at hok
          case h_1 => cases hok
          case h_2 gs hgs =>
            split at hok
            case isTrue => cases hok
            case isFalse hfit =>
              obtain rfl := Except.ok.inj hok
              exact ⟨not_le.1 hin, hh, by simpa using hvalid, hgs, not_lt.1 hfit⟩
  · rintro ⟨hin, hh, hvalid, hgroups, hfit⟩
    rw [readHeader, if_neg (not_le.2 hin), hh]
    simp only [hvalid, Bool.not_true, Bool.false_eq_true, if_false, hgroups]
    exact if_neg (not_lt.2 hfit)

theorem hlen_le_plen (bs : Nat) (p : Header) : p.hlen ≤ p.plen bs := Nat.le_add_right _ _

section
variable {rd rd' : Nat → Except Raise Word} (hsub : Answers rd rd')
include hsub

/-- Where the fuller reader parses a header, the read that fails is one of the header's words. -/
theorem readHeader_same_or_failed (bs ps wend j : Nat) :
    readHeader rd bs ps wend j = readHeader rd' bs ps wend j ∨
      FailedRead rd (fun x => j ≤ x ∧ x < wend ∧ ∀ p, readHeader rd' bs ps wend j = .ok p → x < j + p.hlen)
        (readHeader rd bs ps wend j) := by
  by_cases hend : wend ≤ j
  · exact .inl (by simp only [readHeader, if_pos hend])
  obtain ⟨h, hh, hh'⟩ | ⟨r, hr⟩ := hsub.read j
  · cases hvalid : validH0 bs ps h with
    | false => exact .inl (by simp [readHeader, hend, hh, hh', hvalid])
    | true =>
      obtain hsame | ⟨x, r, ⟨hlo, hwin, hhi⟩, hread, hout⟩ := readGroups_same_or_failed hsub bs wend (j + 1) (field h 8 24)
      · exact .inl (by simp [readHeader, hend, hh, hh', hvalid, hsame])
      · refine .inr ⟨x, r, ⟨by omega, hwin, fun p hp => ?_⟩, hread, by simp [readHeader, hend, hh, hvalid, hout]⟩
        obtain ⟨-, hp0, -, hgroups, -⟩ := readHeader_eq_ok_iff.1 hp
        obtain rfl := Except.ok.inj (hh'.symm.trans hp0)
        have := hhi _ hgroups
        rw [Header.hlen]
        omega
  · refine .inr ⟨j, r, ⟨le_rfl, not_le.1 hend, fun p _ => ?_⟩, hr, by simp [readHeader, hend, hr]⟩
    rw [Header.hlen]
    omega

theorem patch_same_or_failed (n b pw q : Nat) (ks : List BucketInfo) (x : List Word) :
    patch rd n b pw q ks x = patch rd' n b pw q ks x ∨
      FailedRead rd (fun z => q ≤ z ∧ z < q + xlen pw ks) (patch rd n b pw q ks x) := by
  induction ks generalizing q x with
  | nil => exact .inl rfl
  | cons t ts ih =>
    have hlen : xlen pw (t :: ts) = packedLen t.c pw + packedLen t.c t.e + xlen pw ts := rfl
    rw [hlen]
    obtain hd | ⟨z, r, hz, hread, hout⟩ := readRun_same_or_failed hsub q (packedLen t.c pw)
    · cases hdw : readRun rd' q (packedLen t.c pw) with
      | error r => exact .inl (by simp only [patch, hd, hdw])
      | ok dw =>
        obtain hh | ⟨z, r, hz, hread, hout⟩ := readRun_same_or_failed hsub (q + packedLen t.c pw) (packedLen t.c t.e)
        · cases hhw : readRun rd' (q + packedLen t.c pw) (packedLen t.c t.e) with
          | error r => exact .inl (by simp only [patch, hd, hdw, hh, hhw])
          | ok hw =>
            cases hp : patchBucket n b pw q 0 0 ((unpack dw t.c pw).zip (unpack hw t.c t.e)) x with
            | error r => exact .inl (by simp only [patch, hd, hdw, hh, hhw, hp])
            | ok x' =>
              obtain hsame | ⟨z, r, hz, hread, hout⟩ := ih (q + packedLen t.c pw + packedLen t.c t.e) x'
              · exact .inl (by simp only [patch, hd, hdw, hh, hhw, hp, hsame])
              · exact .inr ⟨z, r, by omega, hread, by simp only [patch, hd, hdw, hh, hhw, hp, hout]⟩
        · exact .inr ⟨z, r, by omega, hread, by simp only [patch, hd, hdw, hout]⟩
    · exact .inr ⟨z, r, by omega, hread, by simp only [patch, hout]⟩

theorem decodeBlock_same_or_failed (bs a : Nat) (g : Group) :
    decodeBlock rd bs a g = decodeBlock rd' bs a g ∨
      FailedRead rd (fun x => a ≤ x ∧ x < a + blen bs g) (decodeBlock rd bs a g) := by
  obtain hm | ⟨x, r, hx, hread, hout⟩ := readRun_same_or_failed hsub a (bs * g.b / 32)
  · cases hws : readRun rd' a (bs * g.b / 32) with
    | error r => exact .inl (by simp only [decodeBlock, hm, hws])
    | ok ws =>
      obtain hsame | ⟨x, r, hx, hread, hout⟩ :=
        patch_same_or_failed hsub bs g.b bs.log2 (a + bs * g.b / 32) g.buckets (unpack ws bs g.b)
      · exact .inl (by simp only [decodeBlock, hm, hws, hsame])
      · refine .inr ⟨x, r, ?_, hread, by simp only [decodeBlock, hm, hws, hout]⟩
        rw [blen]
        omega
  · refine .inr ⟨x, r, ?_, hread, by simp only [decodeBlock, hout]⟩
    rw [blen]
    omega

theorem readWidths_same_or_failed (k n : Nat) :
    readWidths rd k n = readWidths rd' k n ∨ FailedRead rd (fun x => k ≤ x ∧ x < k + n) (readWidths rd k n) := by
  induction n generalizing k with
  | zero => exact .inl rfl
  | succ n ih =>
    obtain ⟨w, hw, hw'⟩ | ⟨r, hr⟩ := hsub.read k
    · cases hvalid : validBW w with
      | false => exact .inl (by simp [readWidths, hw, hw', hvalid])
      | true =>
        obtain hsame | ⟨x, r, hx, hread, hout⟩ := ih (k + 1)
        · exact .inl (by simp [readWidths, hw, hw', hvalid, hsame])
        · exact .inr ⟨x, r, by omega, hread, by simp [readWidths, hw, hvalid, hout]⟩
    · exact .inr ⟨k, r, by omega, hr, by simp [readWidths, hr]⟩

end

/-! ### The procedures' own errors -/

section
variable {rd : Nat → Except Raise Word} (htotal : NeverErrs rd)
include htotal

theorem readRun_of_neverErrs (i n : Nat) : ∃ ws, readRun rd i n = .ok ws ∧ ws.length = n := by
  induction n generalizing i with
  | zero => exact ⟨[], rfl, rfl⟩
  | succ n ih =>
    obtain ⟨w, hw⟩ := htotal i
    obtain ⟨ws, hws, hlen⟩ := ih (i + 1)
    exact ⟨w :: ws, by simp only [readRun, hw, hws], congrArg Nat.succ hlen⟩

theorem readBuckets_error_corrupts {bs wend b j nb : Nat} {r : Raise} (herr : readBuckets rd bs wend b j nb = .error r) :
    Corrupts [1, 4] r := by
  induction nb generalizing j with
  | zero => cases herr
  | succ nb ih =>
    obtain ⟨w, hw⟩ := htotal j
    simp only [readBuckets, hw] at herr
    split at herr
    case isTrue => exact ⟨1, by decide, wend, (Except.error.inj herr).symm⟩
    case isFalse =>
      split at herr
      case isTrue => exact ⟨4, by decide, j, (Except.error.inj herr).symm⟩
      case isFalse =>
        split at herr
        case h_1 r' hr' =>
          obtain rfl := Except.error.inj herr
          exact ih hr'
        case h_2 => cases herr

theorem readGroup_error_corrupts {bs wend j : Nat} {r : Raise} (herr : readGroup rd bs wend j = .error r) :
    Corrupts [1, 3, 4] r := by
  obtain ⟨d, hd⟩ := htotal j
  simp only [readGroup, hd] at herr
  split at herr
  case isTrue => exact ⟨1, by decide, wend, (Except.error.inj herr).symm⟩
  case isFalse =>
    split at herr
    case isTrue => exact ⟨3, by decide, j, (Except.error.inj herr).symm⟩
    case isFalse =>
      split at herr
      case h_1 r' hr' =>
        obtain rfl := Except.error.inj herr
        exact (readBuckets_error_corrupts htotal hr').mono (by decide)
      case h_2 => cases herr

theorem readGroups_error_corrupts {bs wend j n : Nat} {r : Raise} (herr : readGroups rd bs wend j n = .error r) :
    Corrupts [1, 3, 4] r := by
  induction n generalizing j with
  | zero => cases herr
  | succ n ih =>
    simp only [readGroups] at herr
    split at herr
    case h_1 r' hr' =>
      obtain rfl := Except.error.inj herr
      exact readGroup_error_corrupts htotal hr'
    case h_2 =>
      split at herr
      case h_1 r' hr' =>
        obtain rfl := Except.error.inj herr
        exact ih hr'
      case h_2 => cases herr

theorem readHeader_error_corrupts {bs ps wend j : Nat} {r : Raise} (herr : readHeader rd bs ps wend j = .error r) :
    Corrupts [1, 2, 3, 4] r := by
  obtain ⟨h, hh⟩ := htotal j
  simp only [readHeader, hh] at herr
  split at herr
  case isTrue => exact ⟨1, by decide, wend, (Except.error.inj herr).symm⟩
  case isFalse =>
    split at herr
    case isTrue => exact ⟨2, by decide, j, (Except.error.inj herr).symm⟩
    case isFalse =>
      split at herr
      case h_1 r' hr' =>
        obtain rfl := Except.error.inj herr
        exact (readGroups_error_corrupts htotal hr').mono (by decide)
      case h_2 =>
        split at herr
        case isTrue => exact ⟨1, by decide, wend, (Except.error.inj herr).symm⟩
        case isFalse => cases herr

end

theorem patchBucket_error_corrupts {n b pw q k pos : Nat} {es : List (Word × Word)} {x : List Word} {r : Raise}
    (herr : patchBucket n b pw q k pos es x = .error r) : Corrupts [5] r := by
  induction es generalizing k pos x with
  | nil => cases herr
  | cons e es ih =>
    obtain ⟨d, h⟩ := e
    rw [patchBucket] at herr
    split at herr
    case isTrue => exact ⟨5, by decide, _, (Except.error.inj herr).symm⟩
    case isFalse => exact ih herr

section
variable {rd : Nat → Except Raise Word} (htotal : NeverErrs rd)
include htotal

theorem patch_error_corrupts {n b pw q : Nat} {ks : List BucketInfo} {x : List Word} {r : Raise}
    (herr : patch rd n b pw q ks x = .error r) : Corrupts [5] r := by
  induction ks generalizing q x with
  | nil => cases herr
  | cons t ts ih =>
    obtain ⟨dw, hdw, -⟩ := readRun_of_neverErrs htotal q (packedLen t.c pw)
    obtain ⟨hw, hhw, -⟩ := readRun_of_neverErrs htotal (q + packedLen t.c pw) (packedLen t.c t.e)
    simp only [patch, hdw, hhw] at herr
    split at herr
    case h_1 r' hr' =>
      obtain rfl := Except.error.inj herr
      exact patchBucket_error_corrupts hr'
    case h_2 => exact ih herr

theorem decodeBlock_error_corrupts {bs a : Nat} {g : Group} {r : Raise} (herr : decodeBlock rd bs a g = .error r) :
    Corrupts [5] r := by
  obtain ⟨ws, hws, -⟩ := readRun_of_neverErrs htotal a (bs * g.b / 32)
  simp only [decodeBlock, hws] at herr
  exact patch_error_corrupts htotal herr

/-- R125: with a reader that answers the table's only error is an invalid entry. -/
theorem readWidths_error_invalid {k n : Nat} {r : Raise} (herr : readWidths rd k n = .error r) :
    ∃ x, r = { kind := .invalidInput, detail := 4, index := x } := by
  induction n generalizing k with
  | zero => cases herr
  | succ n ih =>
    obtain ⟨w, hw⟩ := htotal k
    simp only [readWidths, hw] at herr
    split at herr
    case isTrue => exact ⟨k, (Except.error.inj herr).symm⟩
    case isFalse =>
      split at herr
      case h_1 r' hr' =>
        obtain rfl := Except.error.inj herr
        exact ih hr'
      case h_2 => cases herr

end

end Sys2Proof.Machine
end

section
/-! A command's unit (R258, R259, R260): the windows it keeps to, the errors it can end with, and what it leaves when it succeeds. -/

namespace Sys2Proof.Machine

/-! ### The engine's readers (R10) -/

/-- `OutRd(i)` with no bus error. -/
def quietOut (s : State) (i : Nat) : Except Raise Word := quietRead s (outAddr s i)

section
variable {s : State}

theorem error_of_memRead {a : Nat} {r : Raise} (herr : memRead s a = .error r) : s.plat.errs a = true ∧ r = busRaise .read a := by
  unfold memRead at herr
  split at herr
  case isTrue herrs => exact ⟨herrs, (Except.error.inj herr).symm⟩
  case isFalse => cases herr

theorem answers_inRd_quietIn (s : State) : Answers (inRd s) (quietIn s) := fun _ _ => quietRead_of_memRead
theorem answers_outRd_quietOut (s : State) : Answers (outRd s) (quietOut s) := fun _ _ => quietRead_of_memRead
theorem answers_bwRd_quietBw (s : State) : Answers (bwRd s) (quietBw s) := fun _ _ => quietRead_of_memRead
theorem neverErrs_quietIn (s : State) : NeverErrs (quietIn s) := fun _ => ⟨_, rfl⟩
theorem neverErrs_quietOut (s : State) : NeverErrs (quietOut s) := fun _ => ⟨_, rfl⟩
theorem neverErrs_quietBw (s : State) : NeverErrs (quietBw s) := fun _ => ⟨_, rfl⟩

theorem writeFault_some {p : Platform} {a n : Nat} {r : Raise} (hfault : writeFault p a n = some r) :
    ∃ k < n, p.errs (a + 4 * k) = true ∧ r = busRaise .write (a + 4 * k) := by
  induction n generalizing a with
  | zero => cases hfault
  | succ n ih =>
    rw [writeFault] at hfault
    split at hfault
    case isTrue herrs => exact ⟨0, Nat.succ_pos n, herrs, (Option.some.inj hfault).symm⟩
    case isFalse =>
      obtain ⟨k, hk, herrs, hr⟩ := ih hfault
      rw [show a + 4 + 4 * k = a + 4 * (k + 1) by omega] at herrs hr
      exact ⟨k + 1, Nat.succ_lt_succ hk, herrs, hr⟩

end

/-! ### A unit's windows and errors -/

/-- R84, R260: the windows a unit at the cursors `run` keeps to. -/
def unitWindows (i : Instr) (s : State) (run : Run) : Windows :=
  match i with
  | .encode => encodeUnitWindows s run
  | .decode => decodeUnitWindows s run
  | .excPatch =>
    { leftWindows s run s.regs.inLen.toNat with outWin := wordRange s.regs.outBase.toNat run.ocur s.regs.argCount.toNat }
  | _ => leftWindows s run s.regs.inLen.toNat

/-- How a unit of command `i` whose windows are `w` can end with the error `r`: a read or a write at an erroring address of the windows
(R260), an error of the command's own before its first write, or DECODE's detail 5 after it (R259). -/
inductive UnitError (i : Instr) (s : State) (run : Run) (w : Windows) (r : Raise) : Prop where
  | read (hkind : r.kind = .busError) (hdetail : r.detail = 1) (herrs : s.plat.errs r.index = true)
      (hin : w.inWin.has r.index = true ∨ w.tabWin.has r.index = true ∨ (i = .excPatch ∧ w.outWin.has r.index = true))
  | write (hkind : r.kind = .busError) (hdetail : r.detail = 2) (herrs : s.plat.errs r.index = true)
      (hin : w.outWin.has r.index = true)
  | own (hown : (r.kind, r.detail) ∈ errorsOf i) (hkind : r.kind ≠ .busError) (hclean : r.dirty = none)
  | late (hdecode : i = .decode) (hkind : r.kind = .corruptStream) (hdetail : r.detail = 5)
      (hdirty : r.dirty = some (unitRange s (decodeUnits s) run))

section
variable {i : Instr} {s : State} {run : Run} {w : Windows} {r : Raise}

theorem unitError_of_noSpace {bound : Nat} (hown : (ErrKind.insufficientOutputSpace, 0) ∈ errorsOf i) :
    UnitError i s run w (noSpace bound) := .own hown nofun rfl

theorem unitError_of_corrupt {d x : Nat} (hown : (ErrKind.corruptStream, d) ∈ errorsOf i) : UnitError i s run w (corrupt d x) :=
  .own hown nofun rfl

theorem unitError_of_corrupts {ds : List Nat} (hr : Corrupts ds r) (hown : ∀ d ∈ ds, (ErrKind.corruptStream, d) ∈ errorsOf i) :
    UnitError i s run w r := by
  obtain ⟨d, hd, x, rfl⟩ := hr
  exact unitError_of_corrupt (hown d hd)

theorem unitError_of_write {a : Nat} (herrs : s.plat.errs a = true) (hin : w.outWin.has a = true) :
    UnitError i s run w (busRaise .write a) := .write rfl rfl herrs hin

variable {α : Type} {P : Nat → Prop}

theorem unitError_of_inRd (hfail : FailedRead (inRd s) P (.error r : Except Raise α))
    (hin : ∀ x, P x → w.inWin.has (inAddr s x) = true) : UnitError i s run w r := by
  obtain ⟨x, r', hx, hread, hout⟩ := hfail
  obtain rfl := Except.error.inj hout
  obtain ⟨herrs, rfl⟩ := error_of_memRead hread
  exact .read rfl rfl herrs (.inl (hin x hx))

theorem unitError_of_bwRd (hfail : FailedRead (bwRd s) P (.error r : Except Raise α))
    (hin : ∀ x, P x → w.tabWin.has (s.regs.bwBase.toNat + 4 * x) = true) : UnitError i s run w r := by
  obtain ⟨x, r', hx, hread, hout⟩ := hfail
  obtain rfl := Except.error.inj hout
  obtain ⟨herrs, rfl⟩ := error_of_memRead hread
  exact .read rfl rfl herrs (.inr (.inl (hin x hx)))

theorem unitError_of_outRd (hfail : FailedRead (outRd s) P (.error r : Except Raise α))
    (hin : ∀ x, P x → w.outWin.has (outAddr s x) = true) : UnitError .excPatch s run w r := by
  obtain ⟨x, r', hx, hread, hout⟩ := hfail
  obtain rfl := Except.error.inj hout
  obtain ⟨herrs, rfl⟩ := error_of_memRead hread
  exact .read rfl rfl herrs (.inr (.inr ⟨rfl, hin x hx⟩))

end

/-! ### A unit that succeeds -/

/-- R258: how much of its input a unit takes, and how far it counts. -/
def UnitTakes (i : Instr) (s : State) (run : Run) (d : UnitDone) : Prop :=
  match i with
  | .encode => d.used = pageCount s run * actBS s ∧ d.units = pageCount s run
  | .decode => 0 < d.used ∧ run.icur + d.used ≤ run.icur0 + s.regs.inLen.toNat
  | _ => d.used ≤ s.regs.inLen.toNat ∧ d.units = 1

/-- What a unit of command `i` at the cursors `run` leaves when it succeeds: words that fit the output buffer and its own window, and the
input it takes. -/
structure UnitOk (i : Instr) (s : State) (run : Run) (d : UnitDone) : Prop where
  fits   : run.ocur + d.words.length ≤ s.regs.outBound.toNat
  within : (wordRange s.regs.outBase.toNat run.ocur d.words.length).Within (unitWindows i s run).outWin
  takes  : UnitTakes i s run d

theorem readRun_length {rd : Nat → Except Raise Word} {i n : Nat} {ws : List Word} (hok : readRun rd i n = .ok ws) :
    ws.length = n := by
  induction n generalizing i ws with
  | zero => simp [← Except.ok.inj hok]
  | succ n ih =>
    simp only [readRun] at hok
    split at hok
    case h_1 => cases hok
    case h_2 =>
      split at hok
      case h_1 => cases hok
      case h_2 ws' hws => rw [← Except.ok.inj hok, List.length_cons, ih hws]

section
variable {s : State} {run : Run}

theorem has_inWin_of_lt {x n : Nat} (hlo : run.icur ≤ x) (hhi : x < run.icur + n) :
    (wordRange s.regs.inBase.toNat run.icur n).has (inAddr s x) = true := by
  rw [has_wordRange_iff, inAddr]
  omega

theorem has_outWin_of_lt {x n : Nat} (hlo : run.ocur ≤ x) (hhi : x < run.ocur + n) :
    (wordRange s.regs.outBase.toNat run.ocur n).has (outAddr s x) = true := by
  rw [has_wordRange_iff, outAddr]
  omega

theorem outRange_within_room {n : Nat} (hfits : run.ocur + n ≤ s.regs.outBound.toNat) :
    (wordRange s.regs.outBase.toNat run.ocur n).Within
      (wordRange s.regs.outBase.toNat run.ocur (s.regs.outBound.toNat - run.ocur)) :=
  wordRange_within le_rfl (by omega)

/-- A run of reads from the input that is no answer ends at a read that errs. -/
theorem failed_of_readRun_inRd {i n : Nat} {r : Raise} (herr : readRun (inRd s) i n = .error r) :
    FailedRead (inRd s) (fun x => i ≤ x ∧ x < i + n) (.error r : Except Raise (List Word)) := by
  obtain hsame | hfail := readRun_same_or_failed (answers_inRd_quietIn s) i n
  · obtain ⟨ws, hws, -⟩ := readRun_of_neverErrs (neverErrs_quietIn s) i n
    cases herr.symm.trans (hsame.trans hws)
  · rwa [herr] at hfail

theorem failed_of_readRun_outRd {i n : Nat} {r : Raise} (herr : readRun (outRd s) i n = .error r) :
    FailedRead (outRd s) (fun x => i ≤ x ∧ x < i + n) (.error r : Except Raise (List Word)) := by
  obtain hsame | hfail := readRun_same_or_failed (answers_outRd_quietOut s) i n
  · obtain ⟨ws, hws, -⟩ := readRun_of_neverErrs (neverErrs_quietOut s) i n
    cases herr.symm.trans (hsame.trans hws)
  · rwa [herr] at hfail

end

/-! ### PACK and UNPACK (R164, R165) -/

section
variable {s : State} {run : Run} {r : Raise} {d : UnitDone} (op : BitVec 6) {b : Nat}

theorem packUnit_error (herr : packUnit b s run = .error r) :
    UnitError (.pack op) s run (unitWindows (.pack op) s run) r := by
  simp only [packUnit] at herr
  split at herr
  case isTrue =>
    obtain rfl := Except.error.inj herr
    exact unitError_of_noSpace (by simp [errorsOf, errorsOf.memoryErrors])
  case isFalse =>
    split at herr
    case h_1 r' hread =>
      obtain rfl := Except.error.inj herr
      exact unitError_of_inRd (failed_of_readRun_inRd hread) fun x hx => has_inWin_of_lt hx.1 hx.2
    case h_2 => cases herr

theorem packUnit_ok (hok : packUnit b s run = .ok d) : UnitOk (.pack op) s run d := by
  simp only [packUnit] at hok
  split at hok
  case isTrue => cases hok
  case isFalse hfits =>
    split at hok
    case h_1 => cases hok
    case h_2 vals hread =>
      obtain rfl := Except.ok.inj hok
      have hlen : (pack vals b).length = packedLen s.regs.inLen.toNat b := by rw [pack_length, readRun_length hread]
      have hroom : run.ocur + (pack vals b).length ≤ s.regs.outBound.toNat := by omega
      exact ⟨hroom, outRange_within_room hroom, le_rfl, rfl⟩

theorem unpackUnit_error (herr : unpackUnit b s run = .error r) :
    UnitError (.unpack op) s run (unitWindows (.unpack op) s run) r := by
  simp only [unpackUnit] at herr
  split at herr
  case isTrue =>
    obtain rfl := Except.error.inj herr
    exact unitError_of_corrupt (by simp [errorsOf, errorsOf.memoryErrors])
  case isFalse hin =>
    split at herr
    case isTrue =>
      obtain rfl := Except.error.inj herr
      exact unitError_of_noSpace (by simp [errorsOf, errorsOf.memoryErrors])
    case isFalse =>
      split at herr
      case h_1 r' hread =>
        obtain rfl := Except.error.inj herr
        exact unitError_of_inRd (failed_of_readRun_inRd hread) fun x hx => has_inWin_of_lt hx.1 (by omega)
      case h_2 => cases herr

theorem unpackUnit_ok (hok : unpackUnit b s run = .ok d) : UnitOk (.unpack op) s run d := by
  simp only [unpackUnit] at hok
  split at hok
  case isTrue => cases hok
  case isFalse hin =>
    split at hok
    case isTrue => cases hok
    case isFalse hfits =>
      split at hok
      case h_1 => cases hok
      case h_2 words hread =>
        obtain rfl := Except.ok.inj hok
        have hroom : run.ocur + (unpack words s.regs.argCount.toNat b).length ≤ s.regs.outBound.toNat := by
          rw [unpack_length]
          omega
        exact ⟨hroom, outRange_within_room hroom, not_lt.1 hin, rfl⟩

end

/-! ### EXC_EXTRACT and EXC_PATCH (R190, R195) -/

section
variable {s : State} {run : Run} {r : Raise} {d : UnitDone} (op : BitVec 6) {b : Nat}

theorem extractUnit_error (herr : extractUnit b s run = .error r) :
    UnitError (.excExtract op) s run (unitWindows (.excExtract op) s run) r := by
  simp only [extractUnit] at herr
  split at herr
  case h_1 r' hread =>
    obtain rfl := Except.error.inj herr
    exact unitError_of_inRd (failed_of_readRun_inRd hread) fun x hx => has_inWin_of_lt hx.1 hx.2
  case h_2 =>
    split at herr
    case isTrue =>
      obtain rfl := Except.error.inj herr
      exact unitError_of_noSpace (by simp [errorsOf, errorsOf.memoryErrors])
    case isFalse => cases herr

theorem extractUnit_ok (hok : extractUnit b s run = .ok d) : UnitOk (.excExtract op) s run d := by
  simp only [extractUnit] at hok
  split at hok
  case h_1 => cases hok
  case h_2 vals hread =>
    split at hok
    case isTrue => cases hok
    case isFalse hfits =>
      obtain rfl := Except.ok.inj hok
      exact ⟨not_lt.1 hfits, outRange_within_room (not_lt.1 hfits), le_rfl, rfl⟩

end

theorem patchBucket_length {n b pw q k pos : Nat} {es : List (Word × Word)} {x x' : List Word}
    (hok : patchBucket n b pw q k pos es x = .ok x') : x'.length = x.length := by
  induction es generalizing k pos x with
  | nil => rw [← Except.ok.inj hok]
  | cons e es ih =>
    obtain ⟨d, h⟩ := e
    rw [patchBucket] at hok
    split at hok
    case isTrue => cases hok
    case isFalse => rw [ih hok, List.length_modify]

theorem patch_length {rd : Nat → Except Raise Word} {n b pw q : Nat} {ks : List BucketInfo} {x x' : List Word}
    (hok : patch rd n b pw q ks x = .ok x') : x'.length = x.length := by
  induction ks generalizing q x with
  | nil => rw [← Except.ok.inj hok]
  | cons t ts ih =>
    simp only [patch] at hok
    split at hok
    case h_1 => cases hok
    case h_2 =>
      split at hok
      case h_1 => cases hok
      case h_2 =>
        split at hok
        case h_1 => cases hok
        case h_2 y hy => rw [ih hok, patchBucket_length hy]

section
variable {s : State} {run : Run} {r : Raise} {d : UnitDone}

theorem patchUnit_error (herr : patchUnit s run = .error r) :
    UnitError .excPatch s run (unitWindows .excPatch s run) r := by
  simp only [patchUnit] at herr
  split at herr
  case isTrue =>
    obtain rfl := Except.error.inj herr
    exact unitError_of_noSpace (by decide)
  case isFalse =>
    split at herr
    case h_1 r' hgroup =>
      obtain rfl := Except.error.inj herr
      obtain hsame | hfail := readGroup_same_or_failed (answers_inRd_quietIn s) (actBS s) (run.icur + s.regs.inLen.toNat) run.icur
      · exact unitError_of_corrupts (readGroup_error_corrupts (neverErrs_quietIn s) (hsame.symm.trans hgroup)) (by decide)
      · rw [hgroup] at hfail
        exact unitError_of_inRd hfail fun x hx => has_inWin_of_lt hx.1 hx.2.1
    case h_2 g hgroup =>
      split at herr
      case isTrue =>
        obtain rfl := Except.error.inj herr
        exact unitError_of_corrupt (by decide)
      case isFalse hruns =>
        split at herr
        case h_1 r' hread =>
          obtain rfl := Except.error.inj herr
          exact unitError_of_outRd (failed_of_readRun_outRd hread) fun x hx => has_outWin_of_lt hx.1 hx.2
        case h_2 x hread =>
          split at herr
          case h_1 r' hpatch =>
            obtain rfl := Except.error.inj herr
            obtain hsame | hfail := patch_same_or_failed (answers_inRd_quietIn s) s.regs.argCount.toNat g.b (posWidth s)
              (run.icur + groupLen g) g.buckets x
            · exact unitError_of_corrupts (patch_error_corrupts (neverErrs_quietIn s) (hsame.symm.trans hpatch)) (by decide)
            · rw [hpatch] at hfail
              exact unitError_of_inRd hfail fun x hx => has_inWin_of_lt (by omega) (by omega)
          case h_2 => cases herr

theorem patchUnit_ok (hok : patchUnit s run = .ok d) : UnitOk .excPatch s run d := by
  simp only [patchUnit] at hok
  split at hok
  case isTrue => cases hok
  case isFalse hfits =>
    split at hok
    case h_1 => cases hok
    case h_2 g hgroup =>
      split at hok
      case isTrue => cases hok
      case isFalse hruns =>
        split at hok
        case h_1 => cases hok
        case h_2 x hread =>
          split at hok
          case h_1 => cases hok
          case h_2 x' hpatch =>
            obtain rfl := Except.ok.inj hok
            have hlen : x'.length = s.regs.argCount.toNat := (patch_length hpatch).trans (readRun_length hread)
            refine ⟨by simp only [hlen]; omega, ?_, ?_, rfl⟩
            · simp only [hlen]
              exact AddrRange.within_refl _
            · simp only
              omega

end

end Sys2Proof.Machine
end

section
/-! The units of the page and frame commands (R230, R232, R223), and the unit of any command. -/

namespace Sys2Proof.Machine

/-! ### HDR_PARSE (R230) -/

section
variable {s : State} {run : Run} {r : Raise} {d : UnitDone}

/-- R126: the table's length. -/
theorem metaTable_length (bs : Nat) (p : Header) : (metaTable bs p).length = 3 + 3 * p.groups.length := by
  have hentries : ((p.groups.zip (p.offsets bs)).flatMap fun x =>
      [x.1.d, BitVec.ofNat 32 x.2, BitVec.ofNat 32 (blen bs x.1)]).length = 3 * p.groups.length := by
    rw [List.length_flatMap]
    simp [Header.offsets, bodyOffsets_length, Nat.mul_comm]
  rw [metaTable, List.length_cons, List.length_cons, List.length_cons, hentries]
  omega

theorem parseUnit_error (herr : parseUnit s run = .error r) :
    UnitError .hdrParse s run (unitWindows .hdrParse s run) r := by
  simp only [parseUnit] at herr
  split at herr
  case h_1 r' hheader =>
    obtain rfl := Except.error.inj herr
    obtain hsame | hfail := readHeader_same_or_failed (answers_inRd_quietIn s) (actBS s) (actPS s)
      (run.icur + s.regs.inLen.toNat) run.icur
    · exact unitError_of_corrupts (readHeader_error_corrupts (neverErrs_quietIn s) (hsame.symm.trans hheader)) (by decide)
    · rw [hheader] at hfail
      exact unitError_of_inRd hfail fun x hx => has_inWin_of_lt hx.1 hx.2.1
  case h_2 =>
    split at herr
    case isTrue =>
      obtain rfl := Except.error.inj herr
      exact unitError_of_noSpace (by decide)
    case isFalse => cases herr

theorem parseUnit_ok (hok : parseUnit s run = .ok d) : UnitOk .hdrParse s run d := by
  simp only [parseUnit] at hok
  split at hok
  case h_1 => cases hok
  case h_2 p hheader =>
    split at hok
    case isTrue => cases hok
    case isFalse hfits =>
      obtain rfl := Except.ok.inj hok
      obtain ⟨-, -, -, -, hwin⟩ := readHeader_eq_ok_iff.1 hheader
      have hlen := hlen_le_plen (actBS s) p
      exact ⟨not_lt.1 hfits, outRange_within_room (not_lt.1 hfits), by simp only; omega, rfl⟩

/-! ### ENCODE (R232) -/

theorem readPage_error (herr : readPage (bwRd s) (inRd s) s run = .error r) :
    UnitError .encode s run (unitWindows .encode s run) r := by
  simp only [readPage] at herr
  split at herr
  case h_1 r' hwidths =>
    obtain rfl := Except.error.inj herr
    obtain hsame | hfail := readWidths_same_or_failed (answers_bwRd_quietBw s) run.k (pageCount s run)
    · obtain ⟨x, rfl⟩ := readWidths_error_invalid (neverErrs_quietBw s) (hsame.symm.trans hwidths)
      exact .own (show (ErrKind.invalidInput, 4) ∈ errorsOf .encode by decide) nofun rfl
    · rw [hwidths] at hfail
      refine unitError_of_bwRd hfail fun x hx => ?_
      simp only [unitWindows, encodeUnitWindows, has_wordRange_iff]
      omega
  case h_2 =>
    split at herr
    case h_1 r' hread =>
      obtain rfl := Except.error.inj herr
      exact unitError_of_inRd (failed_of_readRun_inRd hread) fun x hx => has_inWin_of_lt hx.1 hx.2
    case h_2 => cases herr

theorem encodeUnit_error (herr : encodeUnit s run = .error r) :
    UnitError .encode s run (unitWindows .encode s run) r := by
  simp only [encodeUnit] at herr
  split at herr
  case h_1 r' hpage =>
    obtain rfl := Except.error.inj herr
    exact readPage_error hpage
  case h_2 =>
    split at herr
    case isTrue =>
      obtain rfl := Except.error.inj herr
      exact unitError_of_noSpace (by decide)
    case isFalse => cases herr

/-- Where every access of a page answers, the quiet readers read the same page. -/
theorem quietPage_of_readPage {blks : List (List Word × Nat)} (hok : readPage (bwRd s) (inRd s) s run = .ok blks) :
    readPage (quietBw s) (quietIn s) s run = .ok blks := by
  simp only [readPage] at hok
  split at hok
  case h_1 => cases hok
  case h_2 ws hws =>
    split at hok
    case h_1 => cases hok
    case h_2 vals hvals =>
      obtain hsame | ⟨_, _, -, -, hout⟩ := readWidths_same_or_failed (answers_bwRd_quietBw s) run.k (pageCount s run)
      · obtain hsame' | ⟨_, _, -, -, hout⟩ :=
          readRun_same_or_failed (answers_inRd_quietIn s) run.icur (pageCount s run * actBS s)
        · simp only [readPage, ← hsame, hws, ← hsame', hvals, hok]
        · cases hvals.symm.trans hout
      · cases hws.symm.trans hout

theorem encodeUnit_ok' (hok : encodeUnit s run = .ok d) : UnitOk .encode s run d := by
  simp only [encodeUnit] at hok
  split at hok
  case h_1 => cases hok
  case h_2 blks hpage =>
    split at hok
    case isTrue => cases hok
    case isFalse hfits =>
      obtain rfl := Except.ok.inj hok
      have hextent : encodeExtent s run = some (encPage (actBS s) blks).length := by
        simp only [encodeExtent, quietPage_of_readPage hpage]
      refine ⟨not_lt.1 hfits, ?_, rfl, rfl⟩
      simp only [unitWindows, encodeUnitWindows, outputExtent, hextent]
      exact wordRange_within le_rfl (by omega)

end

/-! ### DECODE (R223) -/

theorem readGroups_length {rd : Nat → Except Raise Word} {bs wend j n : Nat} {gs : List Group}
    (hok : readGroups rd bs wend j n = .ok gs) : gs.length = n := by
  induction n generalizing j gs with
  | zero => simp [← Except.ok.inj hok]
  | succ n ih =>
    simp only [readGroups] at hok
    split at hok
    case h_1 => cases hok
    case h_2 =>
      split at hok
      case h_1 => cases hok
      case h_2 gs' hgs => rw [← Except.ok.inj hok, List.length_cons, ih hgs]

/-- R223: what ends the decoding of a page's blocks early: an error of a block, which leaves the page's output unspecified where it is
not the first, or a write at an erroring address. -/
theorem decodeBlocks_error {rd : Nat → Except Raise Word} {p : Platform} {bs : Nat} {dirty : Nat × Nat} {i o : Nat}
    {gas : List (Group × Nat)} {r : Raise} (herr : decodeBlocks rd p bs dirty i o gas = .error r) :
    (∃ ga ∈ gas, ∃ r0 : Raise, decodeBlock rd bs ga.2 ga.1 = .error r0 ∧
      (r = { r0 with dirty := none } ∨ r = { r0 with dirty := some dirty })) ∨
    ∃ k < gas.length * bs, p.errs (o + 4 * k) = true ∧ r = busRaise .write (o + 4 * k) := by
  induction gas generalizing i o with
  | nil => cases herr
  | cons ga gas ih =>
    obtain ⟨g, a⟩ := ga
    simp only [decodeBlocks] at herr
    split at herr
    case h_1 r0 hblock =>
      obtain rfl := Except.error.inj herr
      refine .inl ⟨(g, a), List.mem_cons_self, r0, hblock, ?_⟩
      split
      · exact .inl rfl
      · exact .inr rfl
    case h_2 =>
      rw [List.length_cons, Nat.succ_mul]
      split at herr
      case h_1 r' hfault =>
        obtain rfl := Except.error.inj herr
        obtain ⟨k, hk, herrs, hr⟩ := writeFault_some hfault
        exact .inr ⟨k, by omega, herrs, hr⟩
      case h_2 =>
        split at herr
        case h_1 r' hrest =>
          obtain rfl := Except.error.inj herr
          obtain ⟨ga, hga, hblock⟩ | ⟨k, hk, herrs, hr⟩ := ih hrest
          · exact .inl ⟨ga, List.mem_cons_of_mem _ hga, hblock⟩
          · rw [show o + 4 * bs + 4 * k = o + 4 * (bs + k) by omega] at herrs hr
            exact .inr ⟨bs + k, by omega, herrs, hr⟩
        case h_2 => cases herr

theorem decodeBlock_length {rd : Nat → Except Raise Word} {bs a : Nat} {g : Group} {x : List Word}
    (hok : decodeBlock rd bs a g = .ok x) : x.length = bs := by
  simp only [decodeBlock] at hok
  split at hok
  case h_1 => cases hok
  case h_2 ws hws => rw [patch_length hok, unpack_length]

theorem decodeBlocks_length {rd : Nat → Except Raise Word} {p : Platform} {bs : Nat} {dirty : Nat × Nat} {i o : Nat}
    {gas : List (Group × Nat)} {xs : List Word} (hok : decodeBlocks rd p bs dirty i o gas = .ok xs) :
    xs.length = gas.length * bs := by
  induction gas generalizing i o xs with
  | nil => simp [← Except.ok.inj hok]
  | cons ga gas ih =>
    obtain ⟨g, a⟩ := ga
    simp only [decodeBlocks] at hok
    split at hok
    case h_1 => cases hok
    case h_2 x hblock =>
      split at hok
      case h_1 => cases hok
      case h_2 =>
        split at hok
        case h_1 => cases hok
        case h_2 xs' hrest =>
          rw [← Except.ok.inj hok, List.length_append, decodeBlock_length hblock, ih hrest, List.length_cons, Nat.succ_mul,
            Nat.add_comm]

/-- R222: a page's bodies lie between the end of its header and its end. -/
theorem bodyOffsets_bounds {bs off : Nat} {gs : List Group} {g : Group} {o : Nat} (hmem : (g, o) ∈ gs.zip (bodyOffsets bs off gs)) :
    off ≤ o ∧ o + blen bs g ≤ off + (gs.map (blen bs)).sum := by
  induction gs generalizing off with
  | nil => cases hmem
  | cons g' gs ih =>
    rw [bodyOffsets, List.zip_cons_cons, List.mem_cons] at hmem
    rw [List.map_cons, List.sum_cons]
    obtain heq | hrest := hmem
    · obtain ⟨rfl, rfl⟩ := Prod.mk.inj heq
      omega
    · have := ih hrest
      omega

/-- A page's groups with the IN indices of their bodies. -/
def Header.bodies (bs j : Nat) (p : Header) : List (Group × Nat) := p.groups.zip ((p.offsets bs).map (j + ·))

theorem Header.bodies_length (bs j : Nat) (p : Header) : (p.bodies bs j).length = p.groups.length := by
  simp [Header.bodies, Header.offsets, bodyOffsets_length]

theorem Header.bodies_bounds {bs j : Nat} {p : Header} {ga : Group × Nat} (hmem : ga ∈ p.bodies bs j) :
    j + p.hlen ≤ ga.2 ∧ ga.2 + blen bs ga.1 ≤ j + p.plen bs := by
  rw [Header.bodies, List.zip_map_right, List.mem_map] at hmem
  obtain ⟨⟨g, o⟩, hgo, rfl⟩ := hmem
  have hbounds := bodyOffsets_bounds hgo
  simp only [Prod.map_apply, id_eq, Header.plen] at hbounds ⊢
  omega

section
variable {s : State} {run : Run} {r : Raise} {d : UnitDone}

theorem quietHeader_of_readHeader {p : Header}
    (hok : readHeader (inRd s) (actBS s) (actPS s) (run.icur0 + s.regs.inLen.toNat) run.icur = .ok p) :
    quietHeader s run = .ok p := by
  obtain hsame | ⟨_, _, -, -, hout⟩ := readHeader_same_or_failed (answers_inRd_quietIn s) (actBS s) (actPS s)
    (run.icur0 + s.regs.inLen.toNat) run.icur
  · exact hsame.symm.trans hok
  · cases hok.symm.trans hout

/-- R223, R259: where the page's header reads and its values fit, the unit's output range is the page's values. -/
theorem decodeRange_of_readHeader {p : Header}
    (hok : readHeader (inRd s) (actBS s) (actPS s) (run.icur0 + s.regs.inLen.toNat) run.icur = .ok p)
    (hfits : run.ocur + p.groups.length * actBS s ≤ s.regs.outBound.toNat) :
    unitRange s (decodeUnits s) run = (run.ocur, p.groups.length * actBS s) := by
  obtain ⟨hin, hh, hvalid, hgroups, -⟩ := readHeader_eq_ok_iff.1 hok
  have hextent := decodeExtent_of_validH0 (decide_eq_true hin) (answers_inRd_quietIn s _ _ hh) hvalid
  rw [← readGroups_length hgroups] at hextent
  simp only [unitRange, decodeUnits, hextent, outputExtent]
  rw [Nat.min_eq_left (by omega)]

theorem decodeWindow_out (s : State) (run : Run) : (unitWindows .decode s run).outWin =
    wordRange s.regs.outBase.toNat run.ocur (unitRange s (decodeUnits s) run).2 := rfl

theorem decodeUnit_error (herr : decodeUnit s run = .error r) :
    UnitError .decode s run (unitWindows .decode s run) r := by
  simp only [decodeUnit] at herr
  split at herr
  case h_1 r' hheader =>
    obtain rfl := Except.error.inj herr
    obtain hsame | hfail := readHeader_same_or_failed (answers_inRd_quietIn s) (actBS s) (actPS s)
      (run.icur0 + s.regs.inLen.toNat) run.icur
    · exact unitError_of_corrupts (readHeader_error_corrupts (neverErrs_quietIn s) (hsame.symm.trans hheader)) (by decide)
    · rw [hheader] at hfail
      refine unitError_of_inRd hfail fun x hx => has_inWin_of_lt hx.1 ?_
      obtain ⟨hlo, hwin, hwords⟩ := hx
      cases hquiet : quietHeader s run with
      | error r => simp only; omega
      | ok p => exact (hwords p hquiet).trans_le (Nat.add_le_add_left (hlen_le_plen _ p) _)
  case h_2 p hheader =>
    split at herr
    case isTrue =>
      obtain rfl := Except.error.inj herr
      exact unitError_of_noSpace (by decide)
    case isFalse hfits =>
      have hrange := decodeRange_of_readHeader hheader (not_lt.1 hfits)
      split at herr
      case h_2 => cases herr
      case h_1 r' hblocks =>
        obtain rfl := Except.error.inj herr
        obtain ⟨ga, hga, r0, hblock, hr⟩ | ⟨k, hk, herrs, rfl⟩ := decodeBlocks_error hblocks
        · obtain ⟨hlo, hhi⟩ := Header.bodies_bounds hga
          obtain hsame | hfail := decodeBlock_same_or_failed (answers_inRd_quietIn s) (actBS s) ga.2 ga.1
          · obtain ⟨d, hd, x, rfl⟩ := decodeBlock_error_corrupts (neverErrs_quietIn s) (hsame.symm.trans hblock)
            obtain rfl := List.mem_singleton.1 hd
            obtain rfl | rfl := hr
            · exact unitError_of_corrupt (d := 5) (by decide)
            · exact .late rfl rfl rfl (congrArg some hrange.symm)
          · rw [hblock] at hfail
            obtain ⟨x, r1, hx, hread, hout⟩ := hfail
            obtain rfl := Except.error.inj hout
            obtain ⟨herrs, rfl⟩ := error_of_memRead hread
            have hin : (unitWindows .decode s run).inWin.has (inAddr s x) = true := by
              simp only [unitWindows, decodeUnitWindows, quietHeader_of_readHeader hheader]
              exact has_inWin_of_lt (by omega) (by omega)
            obtain rfl | rfl := hr <;> exact .read rfl rfl herrs (.inl hin)
        · have hlen := p.bodies_length (actBS s) run.icur
          rw [Header.bodies] at hlen
          rw [hlen] at hk
          refine unitError_of_write herrs ?_
          rw [decodeWindow_out, hrange, has_wordRange_iff, outAddr]
          omega

theorem decodeUnit_ok (hok : decodeUnit s run = .ok d) : UnitOk .decode s run d := by
  simp only [decodeUnit] at hok
  split at hok
  case h_1 => cases hok
  case h_2 p hheader =>
    split at hok
    case isTrue => cases hok
    case isFalse hfits =>
      split at hok
      case h_1 => cases hok
      case h_2 xs hblocks =>
        obtain rfl := Except.ok.inj hok
        obtain ⟨-, -, -, -, hwin⟩ := readHeader_eq_ok_iff.1 hheader
        have hrange := decodeRange_of_readHeader hheader (not_lt.1 hfits)
        have hlen : xs.length = p.groups.length * actBS s := by
          rw [decodeBlocks_length hblocks]
          exact congrArg (· * actBS s) (p.bodies_length (actBS s) run.icur)
        have hpos : 0 < p.plen (actBS s) := (Nat.add_pos_left Nat.one_pos _).trans_le (hlen_le_plen _ p)
        refine ⟨by simp only [hlen]; omega, ?_, hpos, hwin⟩
        rw [decodeWindow_out, hrange]
        simp only [hlen]
        exact AddrRange.within_refl _

end

end Sys2Proof.Machine
end

section
/-! A command's move in terms of its unit: where its cursors stand, how it ends with an error (R250, R252, R259, R260), and what it
writes (R86). -/

namespace Sys2Proof.Machine

theorem AddrRange.has_iff {r : AddrRange} {a : Nat} : r.has a = true ↔ r.lo ≤ a ∧ a < r.hi := by
  simp [AddrRange.has]

/-! ### The unit of any command -/

section
variable {i : Instr} {s : State} {p : Plan} {u : Units} {run : Run} {r : Raise} {d : UnitDone}

theorem unit_error (hcmd : commandOf i s = some (p, u)) (herr : u.unit run = .error r) :
    UnitError i s run (unitWindows i s run) r := by
  cases i <;> cases hcmd
  case pack.refl b => exact packUnit_error b herr
  case unpack.refl b => exact unpackUnit_error b herr
  case excExtract.refl b => exact extractUnit_error b herr
  case excPatch.refl => exact patchUnit_error herr
  case hdrParse.refl => exact parseUnit_error herr
  case encode.refl => exact encodeUnit_error herr
  case decode.refl => exact decodeUnit_error herr

theorem unit_ok (hcmd : commandOf i s = some (p, u)) (hok : u.unit run = .ok d) : UnitOk i s run d := by
  cases i <;> cases hcmd
  case pack.refl b => exact packUnit_ok b hok
  case unpack.refl b => exact unpackUnit_ok b hok
  case excExtract.refl b => exact extractUnit_ok b hok
  case excPatch.refl => exact patchUnit_ok hok
  case hdrParse.refl => exact parseUnit_ok hok
  case encode.refl => exact encodeUnit_ok' hok
  case decode.refl => exact decodeUnit_ok hok

/-- R84: at issue a unit's windows are its command's. -/
theorem win_issueRun (hcmd : commandOf i s = some (p, u)) (hfresh : s.scratch.run = none) :
    u.win (issueRun s) = unitWindows i s (issueRun s) := by
  have hrun : currentRun s = issueRun s := by simp [currentRun, hfresh]
  have hbase : baseWindows s = leftWindows s (issueRun s) s.regs.inLen.toNat := by rw [baseWindows, hrun]; rfl
  cases i <;> cases hcmd
  case pack.refl | unpack.refl | excExtract.refl | hdrParse.refl => exact hbase
  case excPatch.refl =>
    change patchWindows s = _
    rw [patchWindows, hbase, hrun]
    rfl
  case encode.refl | decode.refl => rfl

theorem eq_excPatch_of_readsOut (hcmd : commandOf i s = some (p, u)) (hout : p.readsOut = true) : i = .excPatch := by
  cases i <;> cases hcmd <;> cases hout
  rfl

theorem unitError_of_busOutcome (hcmd : commandOf i s = some (p, u))
    (hbus : busOutcome s p.readsOut (u.win run) = some r) : UnitError i s run (u.win run) r := by
  obtain ⟨k, hk, rfl⟩ := busOutcome_some hbus
  simp only [admitsPick, Bool.and_eq_true] at hk
  obtain ⟨⟨-, herrs⟩, hside⟩ := hk
  cases hs : k.side with
  | write =>
    rw [hs] at hside
    exact unitError_of_write herrs hside
  | read =>
    simp only [hs, Bool.or_eq_true, Bool.and_eq_true, or_assoc] at hside
    exact .read rfl rfl herrs (hside.imp_right (Or.imp_right fun h => ⟨eq_excPatch_of_readsOut hcmd h.1, h.2⟩))

theorem unitError_of_writeFault (hcmd : commandOf i s = some (p, u)) (hok : u.unit run = .ok d)
    (hfault : writeFault s.plat (outAddr s run.ocur) d.words.length = some r) :
    UnitError i s run (unitWindows i s run) r := by
  obtain ⟨k, hk, herrs, rfl⟩ := writeFault_some hfault
  refine unitError_of_write herrs ?_
  have hwithin := (unit_ok hcmd hok).within
  simp only [AddrRange.Within, wordRange] at hwithin
  rw [AddrRange.has_iff, outAddr]
  omega

/-! ### A move that ends with an error (R252) -/

/-- A memory command's move that raises an error: the prologue's, or one that ends its unit. -/
theorem turn_error_cases (hcmd : commandOf i s = some (p, u)) (hok : s.regs.status.err = false)
    (herr : (turn p u s).regs.status.err = true) :
    (∃ r, prologue s p = some r ∧ turn p u s = raiseError r s) ∨
    (∃ run r w, started s p = .ok run ∧ u.more run = true ∧ turn p u s = abortUnit u run r s ∧
      (w = u.win run ∨ w = unitWindows i s run) ∧ UnitError i s run w r) := by
  obtain ⟨r, hstart, hturn⟩ | ⟨run, -, -, hturn⟩ | ⟨run, r, hstart, hmore, hturn, hcause⟩ | ⟨run, d, -, -, -, -, -, hturn⟩ :=
    turn_cases p u s
  · refine .inl ⟨r, ?_, hturn⟩
    unfold started at hstart
    split at hstart
    case h_1 => cases hstart
    case h_2 =>
      split at hstart
      case h_1 hpro => exact hpro.trans (congrArg some (Except.error.inj hstart))
      case h_2 => cases hstart
  · rw [hturn] at herr
    exact absurd (hok.symm.trans herr) Bool.false_ne_true
  · refine .inr ⟨run, r, ?_⟩
    obtain hbus | ⟨-, hunit | ⟨d, hunit, hfault⟩⟩ := hcause
    · exact ⟨_, hstart, hmore, hturn, .inl rfl, unitError_of_busOutcome hcmd hbus⟩
    · exact ⟨_, hstart, hmore, hturn, .inr rfl, unit_error hcmd hunit⟩
    · exact ⟨_, hstart, hmore, hturn, .inr rfl, unitError_of_writeFault hcmd hunit hfault⟩
  · rw [hturn] at herr
    split at herr <;> exact absurd (hok.symm.trans herr) Bool.false_ne_true

/-- One check of the prologue: it fails, or the next ones decide. -/
theorem check_cases {c : Prop} [Decidable c] {r' : Raise} {rest : Option Raise}
    (h : (if c then some r' else rest) = some r) : (c ∧ r' = r) ∨ (¬c ∧ rest = some r) := by
  split at h
  case isTrue hc => exact .inl ⟨hc, Option.some.inj h⟩
  case isFalse hc => exact .inr ⟨hc, h⟩

theorem table_isSome_of_any {o : Option Nat} {q : Nat → Bool} (h : o.any q = true) : o.isSome = true := by
  cases o with
  | none => cases h
  | some n => rfl

/-- R254: the prologue's errors: those of every memory command, two of the table and one of the count. -/
theorem prologue_error (hpro : prologue s p = some r) :
    r.kind ≠ .busError ∧ ((r.kind, r.detail) ∈ errorsOf.memoryErrors ∨
      (p.table.isSome = true ∧ (r.kind, r.detail) ∈ [(ErrKind.invalidOffset, 5), (.invalidInput, 5)]) ∨
      (p.count.isSome = true ∧ (r.kind, r.detail) = (.invalidInput, 3))) := by
  simp only [prologue] at hpro
  obtain ⟨-, rfl⟩ | ⟨-, hpro⟩ := check_cases hpro
  · exact ⟨nofun, .inl (show (ErrKind.invalidOffset, 1) ∈ errorsOf.memoryErrors by decide)⟩
  obtain ⟨-, rfl⟩ | ⟨-, hpro⟩ := check_cases hpro
  · exact ⟨nofun, .inl (show (ErrKind.invalidOffset, 2) ∈ errorsOf.memoryErrors by decide)⟩
  obtain ⟨-, rfl⟩ | ⟨-, hpro⟩ := check_cases hpro
  · exact ⟨nofun, .inl (show (ErrKind.invalidOffset, 3) ∈ errorsOf.memoryErrors by decide)⟩
  obtain ⟨-, rfl⟩ | ⟨-, hpro⟩ := check_cases hpro
  · exact ⟨nofun, .inl (show (ErrKind.invalidOffset, 4) ∈ errorsOf.memoryErrors by decide)⟩
  obtain ⟨htable, rfl⟩ | ⟨-, hpro⟩ := check_cases hpro
  · exact ⟨nofun, .inr (.inl ⟨table_isSome_of_any htable, List.mem_cons_self⟩)⟩
  obtain ⟨-, rfl⟩ | ⟨-, hpro⟩ := check_cases hpro
  · exact ⟨nofun, .inl (show (ErrKind.invalidInput, 1) ∈ errorsOf.memoryErrors by decide)⟩
  obtain ⟨hcount, rfl⟩ | ⟨-, hpro⟩ := check_cases hpro
  · exact ⟨nofun, .inr (.inr ⟨table_isSome_of_any hcount, rfl⟩)⟩
  obtain ⟨-, rfl⟩ | ⟨-, hpro⟩ := check_cases hpro
  · exact ⟨nofun, .inl (show (ErrKind.invalidInput, 2) ∈ errorsOf.memoryErrors by decide)⟩
  obtain ⟨htable, rfl⟩ | ⟨-, hpro⟩ := check_cases hpro
  · exact ⟨nofun, .inr (.inl ⟨(Bool.and_eq_true_iff.1 htable).1, List.mem_cons_of_mem _ List.mem_cons_self⟩)⟩
  cases hpro

theorem memoryErrors_subset (hcmd : commandOf i s = some (p, u)) : errorsOf.memoryErrors ⊆ errorsOf i := by
  intro x hx
  cases i <;> cases hcmd <;> simp [errorsOf, hx]

theorem prologue_error_mem (hcmd : commandOf i s = some (p, u)) (hpro : prologue s p = some r) :
    r.kind ≠ .busError ∧ (r.kind, r.detail) ∈ errorsOf i := by
  obtain ⟨hkind, hown | ⟨htable, hown⟩ | ⟨hcount, hown⟩⟩ := prologue_error hpro
  · exact ⟨hkind, memoryErrors_subset hcmd hown⟩
  · obtain rfl : i = .encode := by cases i <;> cases hcmd <;> cases htable; rfl
    exact ⟨hkind, (show [(ErrKind.invalidOffset, 5), (.invalidInput, 5)] ⊆ errorsOf .encode by decide) hown⟩
  · rw [hown]
    refine ⟨hkind, ?_⟩
    cases i <;> cases hcmd <;> cases hcount <;> simp [errorsOf]

theorem UnitError.mem_errorsOf {w : Windows} (hcmd : commandOf i s = some (p, u)) (herr : UnitError i s run w r) :
    (r.kind, r.detail) ∈ errorsOf i := by
  cases herr with
  | read hkind hdetail =>
    rw [hkind, hdetail]
    exact memoryErrors_subset hcmd (by decide)
  | write hkind hdetail =>
    rw [hkind, hdetail]
    exact memoryErrors_subset hcmd (by decide)
  | own hown => exact hown
  | late hdecode hkind hdetail =>
    rw [hkind, hdetail, hdecode]
    decide

theorem configError_mem {bs ps : Nat} (herr : configError bs ps = some r) :
    r.kind ≠ .busError ∧ (r.kind, r.detail) ∈ errorsOf .config := by
  simp only [configError] at herr
  obtain ⟨-, rfl⟩ | ⟨-, herr⟩ := check_cases herr
  · exact ⟨nofun, show (ErrKind.invalidConfiguration, 1) ∈ errorsOf .config by decide⟩
  obtain ⟨-, rfl⟩ | ⟨-, herr⟩ := check_cases herr
  · exact ⟨nofun, show (ErrKind.invalidConfiguration, 2) ∈ errorsOf .config by decide⟩
  obtain ⟨-, rfl⟩ | ⟨-, herr⟩ := check_cases herr
  · exact ⟨nofun, show (ErrKind.invalidConfiguration, 3) ∈ errorsOf .config by decide⟩
  cases herr

/-- Every command's move that raises an error: one of its own before a unit, or one that ends its unit. -/
theorem exec_error_cases {t : State} (hok : s.regs.status.err = false) (hexec : exec i s = .next t)
    (herr : t.regs.status.err = true) :
    (∃ r, r.kind ≠ .busError ∧ (r.kind, r.detail) ∈ errorsOf i ∧ t = raiseError r s) ∨
    (∃ p u run r w, commandOf i s = some (p, u) ∧ started s p = .ok run ∧ u.more run = true ∧ t = abortUnit u run r s ∧
      (w = u.win run ∨ w = unitWindows i s run) ∧ UnitError i s run w r) := by
  obtain ⟨p, u, hcmd, rfl⟩ | ⟨-, rfl⟩ | ⟨rfl, r, hcheck, rfl⟩ | ⟨-, -, rfl⟩ := exec_cases hexec
  · obtain ⟨r, hpro, hturn⟩ | ⟨run, r, w, hstart, hmore, hturn, hw, hunit⟩ := turn_error_cases hcmd hok herr
    · obtain ⟨hkind, hown⟩ := prologue_error_mem hcmd hpro
      exact .inl ⟨r, hkind, hown, hturn⟩
    · exact .inr ⟨p, u, run, r, w, hcmd, hstart, hmore, hturn, hw, hunit⟩
  · exact absurd (hok.symm.trans herr) Bool.false_ne_true
  · obtain ⟨hkind, hown⟩ := configError_mem hcheck
    exact .inl ⟨r, hkind, hown, rfl⟩
  · exact absurd (hok.symm.trans herr) Bool.false_ne_true

end

/-- Settles O26: whatever raised the error (`exec_error_cases`), it is one of the command's, and the report is `raiseError`'s. -/
theorem errorsAreTheCommandsOwnAndPrecise : Obligations.ErrorsAreTheCommandsOwnAndPrecise := by
  intro i s t hok hexec herr
  obtain ⟨r, -, hown, rfl⟩ | ⟨p, u, run, r, w, hcmd, -, -, rfl, -, hunit⟩ := exec_error_cases hok hexec herr
  · exact ⟨r.kind, r.detail, sat32 r.index, hown, rfl, rfl, rfl, rfl⟩
  · exact ⟨r.kind, r.detail, sat32 r.index, hunit.mem_errorsOf hcmd, abortUnit_regs u run r s, abortUnit_plat u run r s,
      abortUnit_host u run r s, abortUnit_reply u run r s⟩

/-! ### What an error leaves of memory (R259) -/

section
variable {i : Instr} {s : State} {p : Plan} {u : Units} {run : Run} {r : Raise} {w : Windows}

theorem abortUnit_errKind : (abortUnit u run r s).regs.status.errKind = some r.kind := by rw [abortUnit_regs]; rfl

theorem abortUnit_errDetail : (abortUnit u run r s).regs.errDetail = BitVec.ofNat 8 r.detail := by rw [abortUnit_regs]; rfl

/-- R259: a unit's error leaves memory as it was outside the unit's output range. -/
theorem byte_abortUnit_other (hm : s.mem.wf) (hcmd : commandOf i s = some (p, u)) (herr : UnitError i s run w r) {b : Nat}
    (hb : b < outAddr s run.ocur ∨ outAddr s run.ocur + 4 * (unitRange s u run).2 ≤ b) :
    (abortUnit u run r s).mem.byte b = s.mem.byte b := by
  obtain ⟨m, habort, hmem⟩ := abortUnit_eq u run r s
  rw [habort, raiseError_mem]
  obtain rfl | ⟨lo, n, rfl, hrange⟩ := hmem
  · rfl
  · have hown : (lo, n) = unitRange s u run := by
      split at hrange
      case isTrue => exact hrange
      case isFalse hkind =>
        cases herr with
        | read hbus => exact absurd hbus hkind
        | write hbus => exact absurd hbus hkind
        | own _ _ hclean => cases hclean.symm.trans hrange
        | late hdecode _ _ hdirty =>
          subst hdecode
          obtain ⟨-, rfl⟩ := Prod.mk.inj (Option.some.inj hcmd)
          exact Option.some.inj (hrange.symm.trans hdirty)
    obtain ⟨rfl, rfl⟩ := Prod.mk.inj hown
    exact byte_scramble_other hm hb

/-- R223, R259: an error in the page's first block is met before the first write. -/
theorem decodeUnit_first_block_error {h : Header} {g : Group}
    (hheader : readHeader (inRd s) (actBS s) (actPS s) (run.icur0 + s.regs.inLen.toNat) run.icur = .ok h)
    (hg : h.groups[0]? = some g) (hblock : decodeBlock (inRd s) (actBS s) (run.icur + h.hlen) g = .error r) :
    ∃ r', decodeUnit s run = .error r' ∧ r'.dirty = none := by
  obtain ⟨gs, hgs⟩ : ∃ gs, h.groups = g :: gs := by
    cases hgroups : h.groups with
    | nil => simp [hgroups] at hg
    | cons g' gs => exact ⟨gs, by simpa [hgroups] using hg⟩
  by_cases hfits : s.regs.outBound.toNat < run.ocur + h.groups.length * actBS s
  · exact ⟨_, by simp only [decodeUnit, hheader, if_pos hfits]; rfl, rfl⟩
  · refine ⟨{ r with dirty := none }, ?_, rfl⟩
    simp only [decodeUnit, hheader, if_neg hfits, Header.offsets]
    rw [hgs]
    simp only [bodyOffsets, List.map_cons, List.zip_cons_cons, decodeBlocks, hblock, if_true]

end

/-- Settles O27: an error of the command's own before the first write is clean (`UnitError.own`, `decodeUnit_first_block_error`), and any
other loses the unit's output range at most (`byte_abortUnit_other`). -/
theorem cleanErrorsLeaveMemoryAlone : Obligations.CleanErrorsLeaveMemoryAlone := by
  refine ⟨?clean, ?firstBlock, ?range⟩
  case clean =>
    intro i s t hok hexec herr hbus hlate
    obtain ⟨r, -, -, rfl⟩ | ⟨p, u, run, r, w, -, -, -, rfl, -, hunit⟩ := exec_error_cases hok hexec herr
    · rfl
    · rw [abortUnit_errKind] at hbus
      rw [abortUnit_errDetail] at hlate
      cases hunit with
      | read hkind => exact absurd (congrArg some hkind) hbus
      | write hkind => exact absurd (congrArg some hkind) hbus
      | own _ hkind hclean => exact abortUnit_mem_clean u run r s hkind hclean
      | late hdecode _ hdetail => exact absurd ⟨hdecode, by rw [hdetail]⟩ hlate
  case firstBlock =>
    intro s t run h g r hok hstart hexec herr hbus hheader hg hblock
    obtain ⟨r', hunit, hclean⟩ := decodeUnit_first_block_error hheader hg hblock
    rw [exec_eq_turn rfl] at hexec
    obtain rfl := Host.Outcome.next.inj hexec
    obtain ⟨r, hstart', -⟩ | ⟨run', -, -, hturn⟩ | ⟨run', r, hstart', -, hturn, hcause⟩ | ⟨run', d, -, -, -, -, -, hturn⟩ :=
      turn_cases (decodePlan s) (decodeUnits s) s
    · cases hstart.symm.trans hstart'
    · rw [hturn] at herr
      exact absurd (hok.symm.trans herr) Bool.false_ne_true
    · obtain rfl := Except.ok.inj (hstart.symm.trans hstart')
      rw [hturn, abortUnit_errKind] at hbus
      rw [hturn]
      obtain hpick | ⟨-, hunit' | ⟨d, hunit', -⟩⟩ := hcause
      · obtain ⟨k, -, rfl⟩ := busOutcome_some hpick
        exact absurd (by cases k.side <;> rfl) hbus
      · obtain rfl := Except.error.inj (hunit.symm.trans hunit')
        exact abortUnit_mem_clean _ _ _ _ (fun hkind => hbus (congrArg some hkind)) hclean
      · cases hunit.symm.trans hunit'
    · rw [hturn] at herr
      split at herr <;> exact absurd (hok.symm.trans herr) Bool.false_ne_true
  case range =>
    intro i s t p u run hm hok hcmd hstart hexec herr a ha
    obtain ⟨r, -, -, rfl⟩ | ⟨p', u', run', r, w, hcmd', hstart', -, rfl, -, hunit⟩ := exec_error_cases hok hexec herr
    · rfl
    · obtain ⟨rfl, rfl⟩ := Prod.mk.inj (Option.some.inj (hcmd.symm.trans hcmd'))
      obtain rfl := Except.ok.inj (hstart.symm.trans hstart')
      exact byte_abortUnit_other hm hcmd hunit ha

end Sys2Proof.Machine
end

section
/-! The invariant (R36, R40, R52, R89, R258): every move of the engine and of the host keeps it; and what follows from the cursors it
holds: they only move forward (R45), every command ends (R303), and the engine keeps to its windows (R86, R260). -/

namespace Sys2Proof.Machine

/-! ### The cursors of a command about to make a unit (R52, R258) -/

/-- The cursors `run` of command `i` about to make a unit: those of the registers, inside R84's windows. -/
structure AtUnit (i : Instr) (s : State) (run : Run) : Prop where
  inCursor  : s.regs.inCur.toNat = run.icur
  outCursor : s.regs.outCur.toNat = run.ocur
  inFrom    : run.icur0 ≤ run.icur
  inTo      : run.icur ≤ run.icur0 + s.regs.inLen.toNat
  inWithin  : run.icur0 + s.regs.inLen.toNat ≤ s.regs.inBound.toNat
  outFrom   : run.ocur0 ≤ run.ocur
  outTo     : run.ocur ≤ s.regs.outBound.toNat
  blocks    : i = .encode → run.icur = run.icur0 + run.k * actBS s
  /-- Only ENCODE and DECODE have a second unit. -/
  fresh     : i = .encode ∨ i = .decode ∨ run = issueRun s

section
variable {i : Instr} {s : State} {p : Plan} {u : Units} {run : Run} {r : Raise} {d : UnitDone}

theorem atUnit_of_started (hinv : Inv s) (hdec : decode s.regs.cmd = .ok i) (hstart : started s p = .ok run) :
    AtUnit i s run := by
  obtain hrun | ⟨-, hpass, rfl⟩ := started_cases hstart
  · have hok := hinv.running run hrun
    exact
      { inCursor := hok.inCursor
        outCursor := hok.outCursor
        inFrom := hok.inFrom
        inTo := hok.inTo
        inWithin := hok.inWithin
        outFrom := hok.outFrom
        outTo := hok.outTo
        blocks := fun hi => hok.blocks (hi ▸ hdec)
        fresh := hok.frame.imp (fun h => Except.ok.inj (hdec.symm.trans h))
          fun h => .inl (Except.ok.inj (hdec.symm.trans h)) }
  · obtain ⟨hin, hout, -⟩ := prologue_passed hpass
    exact
      { inCursor := rfl
        outCursor := rfl
        inFrom := le_rfl
        inTo := Nat.le_add_right _ _
        inWithin := hin
        outFrom := le_rfl
        outTo := hout
        blocks := fun _ => by simp [issueRun]
        fresh := .inr (.inr rfl) }

theorem currentRun_of_started (hstart : started s p = .ok run) : currentRun s = run := by
  obtain hrun | ⟨hrun, -, rfl⟩ := started_cases hstart <;> simp [currentRun, hrun]

/-- R84, R260: a unit's windows are those it keeps to. -/
theorem win_of_started (hinv : Inv s) (hdec : decode s.regs.cmd = .ok i) (hcmd : commandOf i s = some (p, u))
    (hstart : started s p = .ok run) : u.win run = unitWindows i s run := by
  obtain hrun | ⟨hrun, -, rfl⟩ := started_cases hstart
  · obtain hframe | hframe := (hinv.running run hrun).frame <;> obtain rfl := Except.ok.inj (hdec.symm.trans hframe) <;>
      cases hcmd <;> rfl
  · exact win_issueRun hcmd hrun

/-- R258: a unit takes no more than what is left of the input window. -/
theorem AtUnit.used_le (hat : AtUnit i s run) (hok : UnitOk i s run d) :
    run.icur + d.used ≤ run.icur0 + s.regs.inLen.toNat := by
  have htakes := hok.takes
  cases i
  case encode =>
    obtain ⟨hused, -⟩ := htakes
    have hblocks := hat.blocks rfl
    have hto := hat.inTo
    have hcount : pageCount s run ≤ blockCount s - run.k := Nat.min_le_right _ _
    have hall : blockCount s * actBS s ≤ s.regs.inLen.toNat := Nat.div_mul_le_self _ _
    by_cases hmore : run.k < blockCount s
    · have hsum : (run.k + pageCount s run) * actBS s ≤ blockCount s * actBS s := Nat.mul_le_mul_right _ (by omega)
      rw [Nat.add_mul] at hsum
      omega
    · have hnone : pageCount s run = 0 := by omega
      rw [hnone, Nat.zero_mul] at hused
      omega
  case decode => exact htakes.2
  all_goals
    obtain rfl : run = issueRun s := (hat.fresh.resolve_left nofun).resolve_left nofun
    exact Nat.add_le_add_left htakes.1 _

/-- R258: no cursor wraps at a commit. -/
theorem AtUnit.cursors_commitUnit (hat : AtUnit i s run) (hok : UnitOk i s run d) :
    (commitUnit run d s).regs.inCur.toNat = run.icur + d.used ∧
      (commitUnit run d s).regs.outCur.toNat = run.ocur + d.words.length := by
  have hin := hat.used_le hok
  have hwithin := hat.inWithin
  have hout := hok.fits
  simp only [commitUnit_regs, BitVec.toNat_ofNat]
  omega

/-- R232, R236: a unit of ENCODE or DECODE takes some input. -/
theorem used_pos (hconfig : legalConfig (actBS s) (actPS s)) (hcmd : commandOf i s = some (p, u)) (hi : i = .encode ∨ i = .decode)
    (hmore : u.more run = true) (hok : UnitOk i s run d) : 0 < d.used := by
  have htakes := hok.takes
  obtain rfl | rfl := hi <;> cases hcmd
  · have hpage := pageBlocks_pos hconfig
    have hleft : run.k < blockCount s := of_decide_eq_true hmore
    rw [htakes.1, pageCount]
    exact Nat.mul_pos (by omega) (blockSize_bounds hconfig.1).1
  · exact htakes.1

/-- R258: a command that is one unit has none left after it. -/
theorem paged_of_more_after (hcmd : commandOf i s = some (p, u)) (hok : UnitOk i s run d)
    (hmore : u.more (run.after d) = true) : i = .encode ∨ i = .decode := by
  have htakes := hok.takes
  cases i <;> cases hcmd
  case encode.refl => exact .inl rfl
  case decode.refl => exact .inr rfl
  all_goals
    have hone : run.k + d.units = 0 := beq_iff_eq.1 hmore
    rw [htakes.2] at hone
    omega

/-- R258: a command still runs after a move exactly where it has committed a page and has another one. -/
theorem turn_ends_or_commits (hcmd : commandOf i s = some (p, u)) :
    (turn p u s).regs.status.busy = false ∨ ∃ run d, started s p = .ok run ∧ u.more run = true ∧ UnitOk i s run d ∧
      u.more (run.after d) = true ∧ turn p u s = commitUnit run d s := by
  obtain ⟨r, -, hturn⟩ | ⟨run, -, -, hturn⟩ | ⟨run, r, -, -, hturn, -⟩ | ⟨run, d, hstart, hmore, -, hunit, -, hturn⟩ :=
    turn_cases p u s
  · exact .inl (by rw [hturn]; rfl)
  · exact .inl (by rw [hturn]; rfl)
  · exact .inl (by rw [hturn, abortUnit_regs]; rfl)
  · split at hturn
    case isTrue hnext => exact .inr ⟨run, d, hstart, hmore, unit_ok hcmd hunit, hnext, hturn⟩
    case isFalse => exact .inl (by rw [hturn]; rfl)

end

/-- Settles O21: a move that commits adds what its unit took and wrote (`AtUnit.cursors_commitUnit`), and any other keeps the cursors. -/
theorem engineNeverMovesACursorBack : Obligations.EngineNeverMovesACursorBack := by
  intro s t hinv hmove
  obtain ⟨-, rfl⟩ | ⟨-, e, -, rfl⟩ | ⟨-, i, hdec, hexec⟩ := engineMove_cases hmove
  · exact ⟨le_rfl, le_rfl⟩
  · exact ⟨le_rfl, le_rfl⟩
  obtain ⟨p, u, hcmd, rfl⟩ | ⟨-, rfl⟩ | ⟨-, r, -, rfl⟩ | ⟨-, -, rfl⟩ := exec_cases hexec
  · obtain ⟨r, -, hturn⟩ | ⟨run, -, -, hturn⟩ | ⟨run, r, -, -, hturn, -⟩ | ⟨run, d, hstart, -, -, hunit, -, hturn⟩ :=
      turn_cases p u s
    · rw [hturn]
      exact ⟨le_rfl, le_rfl⟩
    · rw [hturn]
      exact ⟨le_rfl, le_rfl⟩
    · rw [hturn, abortUnit_regs]
      exact ⟨le_rfl, le_rfl⟩
    · have hat := atUnit_of_started hinv hdec hstart
      obtain ⟨hin, hout⟩ := hat.cursors_commitUnit (unit_ok hcmd hunit)
      have hsame : (turn p u s).regs.inCur = (commitUnit run d s).regs.inCur ∧
          (turn p u s).regs.outCur = (commitUnit run d s).regs.outCur := by
        rw [hturn]
        split <;> exact ⟨rfl, rfl⟩
      rw [hsame.1, hsame.2, hin, hout, hat.inCursor, hat.outCursor]
      exact ⟨Nat.le_add_right _ _, Nat.le_add_right _ _⟩
  · exact ⟨le_rfl, le_rfl⟩
  · exact ⟨le_rfl, le_rfl⟩
  · exact ⟨le_rfl, le_rfl⟩

/-! ### The engine's move keeps the invariant -/

section
variable {i : Instr} {s t : State} {p : Plan} {u : Units} {run : Run} {d : UnitDone}

/-- A running command that a move ends, with an error or with success, leaves the invariant. -/
theorem inv_of_ended (hinv : Inv s) (hbusy : s.regs.status.busy = true) (hkeeps : EngineKeeps s t) (hmem : t.mem.wf)
    (hconfig : legalConfig (actBS t) (actPS t)) (hrun : t.scratch.run = none)
    (hended : (∃ k, t.regs.status = s.regs.status.raised k) ∨ t.regs.status = s.regs.status.finished) : Inv t := by
  obtain ⟨hdone, herr, hkind, -, -⟩ := hinv.busyClear hbusy
  have hcmd : t.regs.cmd = s.regs.cmd := by rw [hkeeps.regs]
  have hbases : t.regs.inBase = s.regs.inBase ∧ t.regs.outBase = s.regs.outBase ∧ t.regs.bwBase = s.regs.bwBase := by
    rw [hkeeps.regs]
    exact ⟨rfl, rfl, rfl⟩
  refine inv_of_checks ⟨hkeeps.plat ▸ hinv.platform, hmem, hconfig, ?_, ?_, ?_, ?_, ?_, ?_, hrun, ?_⟩
  case refine_6 =>
    rw [hbases.1, hbases.2.1, hbases.2.2, hkeeps.plat]
    exact hinv.bases
  case refine_5 =>
    rw [hcmd, ← hinv.lastOp]
    obtain ⟨k, hk⟩ | hk := hended <;> rw [hk] <;> rfl
  all_goals obtain ⟨k, hk⟩ | hk := hended <;> simp [hk, hdone, herr, hkind]

/-- R52: the windows of the command in CMD are a matter of the register file and of where its cursors started. -/
theorem commandWindows_commitUnit (hstart : started s p = .ok run) (d : UnitDone) :
    commandWindows (commitUnit run d s) = commandWindows s := by
  have hrun := currentRun_of_started hstart
  have hafter : currentRun (commitUnit run d s) = run.after d := rfl
  have hbase : baseWindows (commitUnit run d s) = baseWindows s := by
    rw [baseWindows, baseWindows, hafter, hrun]
    rfl
  unfold commandWindows
  rw [show (commitUnit run d s).regs.cmd = s.regs.cmd from rfl]
  split
  case h_1 => rfl
  case h_2 i _ =>
    refine congrArg some ?_
    cases i <;> simp only [windowsOf, patchWindows, encodeWindows, hbase, hafter, hrun] <;> rfl

/-- R258: a page committed with another one left keeps the invariant. -/
theorem inv_commitUnit (hinv : Inv s) (hbusy : s.regs.status.busy = true) (hdec : decode s.regs.cmd = .ok i)
    (hi : i = .encode ∨ i = .decode) (hstart : started s p = .ok run) (hok : UnitOk i s run d) : Inv (commitUnit run d s) := by
  have hat := atUnit_of_started hinv hdec hstart
  obtain ⟨hin, hout⟩ := hat.cursors_commitUnit hok
  refine
    { platform := hinv.platform
      memory := commitUnit_wf hinv.memory run d
      config := hinv.config
      oneOutcome := hinv.oneOutcome
      busyClear := hinv.busyClear
      doneClean := hinv.doneClean
      errCoded := hinv.errCoded
      lastOp := hinv.lastOp
      bases := hinv.bases
      running := ?running
      windows := fun _ => commandWindows_commitUnit hstart d ▸ hinv.windows hbusy }
  case running =>
    rintro _ ⟨⟩
    exact
      { busy := hbusy
        frame := hi.imp (fun h => hdec.trans (congrArg _ h)) fun h => hdec.trans (congrArg _ h)
        inCursor := hin
        outCursor := hout
        inFrom := hat.inFrom.trans (Nat.le_add_right _ _)
        inTo := hat.used_le hok
        inWithin := hat.inWithin
        outFrom := hat.outFrom.trans (Nat.le_add_right _ _)
        outTo := hok.fits
        blocks := fun hencode => by
          obtain rfl : i = .encode := Except.ok.inj (hdec.symm.trans hencode)
          obtain ⟨hused, hunits⟩ := hok.takes
          have hblocks := hat.blocks rfl
          simp only [Run.after, hused, hunits, Nat.add_mul, hblocks, Nat.add_assoc]
          rfl }

theorem inv_turn (hinv : Inv s) (hbusy : s.regs.status.busy = true) (hdec : decode s.regs.cmd = .ok i)
    (hcmd : commandOf i s = some (p, u)) : Inv (turn p u s) := by
  have hconfig : legalConfig (actBS (turn p u s)) (actPS (turn p u s)) := by
    obtain ⟨hbs, hps⟩ := turn_keeps_config p u s
    rw [actBS, actPS, hbs, hps]
    exact hinv.config
  have hended := inv_of_ended hinv hbusy (engineKeeps_turn p u s) (turn_wf hinv.memory p u) hconfig
  obtain ⟨r, -, hturn⟩ | ⟨run, -, -, hturn⟩ | ⟨run, r, -, -, hturn, -⟩ | ⟨run, d, hstart, -, -, hunit, -, hturn⟩ :=
    turn_cases p u s <;> rw [hturn] at hended ⊢
  · exact hended rfl (.inl ⟨r.kind, rfl⟩)
  · exact hended rfl (.inr rfl)
  · exact hended (abortUnit_run ..) (.inl ⟨r.kind, by rw [abortUnit_regs]; rfl⟩)
  · have hok := unit_ok hcmd hunit
    split at hended
    case isTrue hnext =>
      rw [if_pos hnext]
      exact inv_commitUnit hinv hbusy hdec (paged_of_more_after hcmd hok hnext) hstart hok
    case isFalse hlast =>
      rw [if_neg hlast]
      exact hended rfl (.inr rfl)

theorem legalConfig_of_configError {bs ps : Nat} (hcheck : configError bs ps = none) : legalConfig bs ps := by
  have hchecks : bs ∈ Config.blockSizes ∧ ¬(ps = 0 ∨ ps % bs ≠ 0) ∧ ¬Config.maxPageBlocks < ps / bs := by
    simpa [configError, ite_eq_iff] using hcheck
  obtain ⟨hbs, hps, hmany⟩ := hchecks
  exact ⟨hbs, by omega, by omega, not_lt.1 hmany⟩

theorem inv_engineMove (hinv : Inv s) (hmove : engineMove s = .next t) : Inv t := by
  have hkeeps := engineKeeps_of_engineMove hmove
  obtain ⟨-, rfl⟩ | ⟨hbusy, e, -, rfl⟩ | ⟨hbusy, i, hdec, hexec⟩ := engineMove_cases hmove
  · exact hinv
  · exact inv_of_ended hinv hbusy hkeeps hinv.memory hinv.config rfl (.inl ⟨_, rfl⟩)
  obtain ⟨p, u, hcmd, rfl⟩ | ⟨-, rfl⟩ | ⟨-, r, -, rfl⟩ | ⟨-, hcheck, rfl⟩ := exec_cases hexec
  · exact inv_turn hinv hbusy hdec hcmd
  · exact inv_of_ended hinv hbusy hkeeps hinv.memory hinv.config rfl (.inr rfl)
  · exact inv_of_ended hinv hbusy hkeeps hinv.memory hinv.config rfl (.inl ⟨_, rfl⟩)
  · exact inv_of_ended hinv hbusy hkeeps hinv.memory (legalConfig_of_configError hcheck) rfl (.inr rfl)

end

/-! ### The host's move keeps the invariant -/

section
variable {s t : State}

/-- What does not touch the engine, its memory's form or the windows a running command holds keeps the invariant. -/
theorem inv_of_sameEngine (hinv : Inv s) (hsame : SameEngine s t) (hmem : t.mem.wf)
    (hheld : s.regs.status.busy = true → t.held.map (·.windows) = s.held.map (·.windows)) : Inv t := by
  obtain ⟨hplat, hregs, hscratch⟩ := hsame
  cases s with
  | mk plat regs scratch mem host reply held draws =>
    cases t with
    | mk plat' regs' scratch' mem' host' reply' held' draws' =>
      obtain ⟨rfl, rfl, rfl⟩ : plat' = plat ∧ regs' = regs ∧ scratch' = scratch := ⟨hplat, hregs, hscratch⟩
      exact
        { platform := hinv.platform
          memory := hmem
          config := hinv.config
          oneOutcome := hinv.oneOutcome
          busyClear := hinv.busyClear
          doneClean := hinv.doneClean
          errCoded := hinv.errCoded
          lastOp := hinv.lastOp
          bases := hinv.bases
          running := fun r hr =>
            have h := hinv.running r hr
            ⟨h.busy, h.frame, h.inCursor, h.outCursor, h.inFrom, h.inTo, h.inWithin, h.outFrom, h.outTo, h.blocks⟩
          windows := fun hbusy w hw => by
            have hhead := hinv.windows hbusy w hw
            rw [← List.head?_map] at hhead ⊢
            rwa [hheld hbusy] }

/-- R37, R38, R53: what lowers flags of STATUS other than BUSY, or writes WBUSY or the enables, keeps the invariant. -/
theorem inv_of_flags (hinv : Inv s) {st : Status} (q : IrqEn) (hbusy : st.busy = s.regs.status.busy)
    (hdone : st.done = true → s.regs.status.done = true) (herr : st.err = true → s.regs.status.err = true)
    (hkind : st.errKind = s.regs.status.errKind) (hop : st.lastOp = s.regs.status.lastOp) :
    Inv { s with regs := { s.regs with status := st, irqEn := q } } where
  platform := hinv.platform
  memory := hinv.memory
  config := hinv.config
  oneOutcome h := hinv.oneOutcome ⟨hdone h.1, herr h.2⟩
  busyClear h := by
    obtain ⟨hd, he, hk, hdetail, hindex⟩ := hinv.busyClear (hbusy.symm.trans h)
    exact ⟨Bool.eq_false_iff.2 fun h' => Bool.eq_false_iff.1 hd (hdone h'),
      Bool.eq_false_iff.2 fun h' => Bool.eq_false_iff.1 he (herr h'), hkind.trans hk, hdetail, hindex⟩
  doneClean h := hkind.trans (hinv.doneClean (hdone h))
  errCoded h := hkind ▸ hinv.errCoded (herr h)
  lastOp := hop.trans hinv.lastOp
  bases := hinv.bases
  running r hr :=
    have h := hinv.running r hr
    ⟨hbusy.trans h.busy, h.frame, h.inCursor, h.outCursor, h.inFrom, h.inTo, h.inWithin, h.outFrom, h.outTo, h.blocks⟩
  windows h := hinv.windows (hbusy.symm.trans h)

/-- While no command runs, a write of a parameter, cursor or counter keeps the invariant where the base registers keep their form. -/
theorem inv_of_idle_regs (hinv : Inv s) (hidle : s.regs.status.busy = false) {g : Regs} (hstatus : g.status = s.regs.status)
    (hcmd : g.cmd = s.regs.cmd) (hbs : g.actBlockSize = s.regs.actBlockSize) (hps : g.actPageSize = s.regs.actPageSize)
    (hbases : g.inBase.toNat < 2 ^ s.plat.aw ∧ g.outBase.toNat < 2 ^ s.plat.aw ∧ g.bwBase.toNat < 2 ^ s.plat.aw) :
    Inv { s with regs := g } := by
  have hrun : s.scratch.run = none := by
    cases hr : s.scratch.run with
    | none => rfl
    | some r => exact absurd (hidle.symm.trans (hinv.running r hr).busy) Bool.false_ne_true
  refine inv_of_checks ⟨hinv.platform, hinv.memory, ?_, ?_, ?_, ?_, ?_, ?_, hbases, hrun, ?_⟩
  · simpa only [actBS, actPS, hbs, hps] using hinv.config
  · simpa only [hstatus] using hinv.oneOutcome
  · simp [hstatus, hidle]
  · simpa only [hstatus] using hinv.doneClean
  · simpa only [hstatus] using hinv.errCoded
  · simpa only [hstatus, hcmd] using hinv.lastOp
  · simp [hstatus, hidle]

theorem toNat_baseBits_lt (p : Platform) (v : Word) : (baseBits p v).toNat < 2 ^ p.aw := by
  rw [baseBits, BitVec.toNat_ofNat]
  exact (Nat.mod_le _ _).trans_lt (Nat.mod_lt _ (Nat.two_pow_pos _))

/-- R39: an issue keeps the invariant, and holds the windows of the command issued. -/
theorem inv_issue (hinv : Inv s) (w : Word) : Inv (issue w s) := by
  refine inv_of_checks ⟨hinv.platform, hinv.memory, hinv.config, ?_, ?_, ?_, ?_, rfl, hinv.bases, rfl, fun _ v hv => ?_⟩
  · simp
  · simp
  · simp
  · simp
  · rw [issue_held, Option.mem_def.1 hv]
    rfl

theorem dropUnit_wf (hm : s.mem.wf) : (dropUnit s).mem.wf := by
  unfold dropUnit
  split
  · exact hm
  · exact Memory.setWords_wf hm _ _

/-- R290: the reset engine keeps the invariant. -/
theorem inv_resetEngine (hinv : Inv s) : Inv (resetEngine s) := by
  have hbase : (0#32).toNat < 2 ^ (resetEngine s).plat.aw := Nat.two_pow_pos _
  have hreset : Inv State.reset := resetMeetsTheInvariant
  exact inv_of_checks ⟨resetEngine_plat s ▸ hinv.platform, dropUnit_wf hinv.memory, hreset.config, hreset.oneOutcome, nofun, nofun,
    nofun, hreset.lastOp, ⟨hbase, hbase, hbase⟩, rfl, nofun⟩

theorem inv_write (hinv : Inv s) {r : Reg} (hopen : s.regs.status.busy = false ∨ r.openWhileBusy = true) (v : Word) :
    Inv (r.write v s) := by
  obtain ⟨hin, hout, hbw⟩ := hinv.bases
  cases r
  case ctrl =>
    rw [Reg.write]
    split
    · exact inv_resetEngine hinv
    · exact hinv
  case status =>
    refine inv_of_flags hinv s.regs.irqEn rfl (fun h => ?_) (fun h => ?_) rfl rfl
    · exact (Bool.and_eq_true_iff.1 h).1
    · exact (Bool.and_eq_true_iff.1 h).1
  case irqEn => exact inv_of_flags hinv (st := s.regs.status) _ rfl id id rfl rfl
  case cmd => exact inv_issue hinv v
  case id | version | actBlockSize | actPageSize | errDetail | errIndex => exact hinv
  all_goals have hidle := hopen.resolve_right Bool.false_ne_true
  case inBase => exact inv_of_idle_regs hinv hidle rfl rfl rfl rfl ⟨toNat_baseBits_lt _ v, hout, hbw⟩
  case outBase => exact inv_of_idle_regs hinv hidle rfl rfl rfl rfl ⟨hin, toNat_baseBits_lt _ v, hbw⟩
  case bwBase => exact inv_of_idle_regs hinv hidle rfl rfl rfl rfl ⟨hin, hout, toNat_baseBits_lt _ v⟩
  all_goals exact inv_of_idle_regs hinv hidle rfl rfl rfl rfl ⟨hin, hout, hbw⟩

/-- R53: an access whose answer alone is new keeps the invariant. -/
theorem inv_with_reply (hinv : Inv s) (rep : Reply) : Inv { s with reply := rep } :=
  inv_of_sameEngine hinv ⟨rfl, rfl, rfl⟩ hinv.memory fun _ => rfl

theorem inv_regWrite (hinv : Inv s) (addr : Nat) (width : AccessWidth) (v : Word) : Inv (regWrite addr width v s) := by
  obtain ⟨rep, h⟩ | ⟨-, h⟩ | ⟨r, hopen, -, -, h⟩ := regWrite_cases addr width v s <;> rw [h]
  · exact inv_with_reply hinv rep
  · exact inv_with_reply (inv_of_flags hinv (st := s.regs.status.dropped) s.regs.irqEn rfl id id rfl rfl) _
  · exact inv_with_reply (inv_write hinv hopen v) _

/-- Every host access keeps memory's canonical form. -/
theorem hostMove_wf {e : HostEvent} (hwrite : ∀ addr width v, e ≠ .regWrite addr width v) (hreset : e ≠ .rstN) (hm : s.mem.wf) :
    (hostMove e s).mem.wf := by
  cases e with
  | regRead addr width =>
    rw [hostMove]
    obtain ⟨rep, h⟩ | ⟨-, -, h⟩ := regRead_cases addr width s <;> rw [h]
    · exact hm
    · exact observe_mem s ▸ hm
  | regWrite addr width v => exact absurd rfl (hwrite addr width v)
  | memRead a =>
    rw [hostMove]
    obtain h | ⟨rep, h⟩ := hostMemRead_cases s a <;> rw [h]
    · exact hm
    · exact breach_wf hm false a
  | memWrite a v =>
    rw [hostMove]
    obtain h | h := hostMemWrite_cases s a v <;> rw [h]
    · exact hm
    · exact breach_wf (s := { s with mem := s.mem.setWord a v }) (Memory.setWord_wf hm a v) true a
  | rstN => exact absurd rfl hreset
  | quiet => exact hm
  | await => exact observe_mem s ▸ hm
  | irqSample =>
    rw [hostMove]
    split
    · exact observe_mem s ▸ hm
    · exact hm

theorem inv_hostMove (hinv : Inv s) (e : HostEvent) : Inv (hostMove e s) := by
  by_cases hwrite : ∀ addr width v, e ≠ .regWrite addr width v
  · by_cases hreset : e = .rstN
    · rw [hreset]
      exact inv_resetEngine hinv
    · refine inv_of_sameEngine hinv (sameEngine_hostMove hwrite hreset s) (hostMove_wf hwrite hreset hinv.memory) fun hbusy => ?_
      by_contra hchanged
      exact Bool.false_ne_true ((hostMove_changes_windows hchanged).1.symm.trans hbusy)
  · simp only [not_forall, not_not] at hwrite
    obtain ⟨addr, width, v, rfl⟩ := hwrite
    exact inv_regWrite hinv addr width v

end

/-- What the host still does is no part of the invariant. -/
theorem inv_with_host {s : State} (hinv : Inv s) (es : List HostEvent) : Inv { s with host := es } :=
  inv_of_sameEngine hinv ⟨rfl, rfl, rfl⟩ hinv.memory fun _ => rfl

/-- Settles O19: the engine's move keeps the invariant (`inv_engineMove`), and so does every host event (`inv_hostMove`). -/
theorem stepKeepsTheInvariant : Obligations.StepKeepsTheInvariant := by
  intro s t hinv hstep
  obtain hmove | ⟨es, -, hmove⟩ | ⟨e, es, -, -, rfl⟩ := step_cases hstep
  · exact inv_engineMove hinv hmove
  · exact inv_engineMove (inv_with_host hinv es) hmove
  · exact inv_hostMove (inv_with_host hinv es) e

end Sys2Proof.Machine
end

section
/-! What follows from the invariant: every command ends (R303), and the engine keeps to its windows (R86, R260). -/

namespace Sys2Proof.Machine

/-! ### Every command ends (R303) -/

/-- The input words a command has before it. -/
def inputLeft (s : State) : Nat := (currentRun s).icur0 + s.regs.inLen.toNat - (currentRun s).icur

theorem inputLeft_of_started {s : State} {p : Plan} {run : Run} (hstart : started s p = .ok run) :
    inputLeft s = run.icur0 + s.regs.inLen.toNat - run.icur := by
  rw [inputLeft, currentRun_of_started hstart]

theorem Inv.inputLeft_le {s : State} (hinv : Inv s) : inputLeft s ≤ s.regs.inLen.toNat := by
  rw [inputLeft, currentRun]
  cases hrun : s.scratch.run with
  | none => simp [issueRun]
  | some r =>
    have hfrom := (hinv.running r hrun).inFrom
    simp only [Option.getD_some]
    omega

/-- A move of the engine ends the command or takes some of its input. -/
theorem engineMove_ends_or_takes {s t : State} (hinv : Inv s) (hmove : engineMove s = .next t) :
    t.regs.status.busy = false ∨ inputLeft t < inputLeft s := by
  obtain ⟨hidle, rfl⟩ | ⟨-, e, -, rfl⟩ | ⟨-, i, hdec, hexec⟩ := engineMove_cases hmove
  · exact .inl hidle
  · exact .inl rfl
  obtain ⟨p, u, hcmd, rfl⟩ | ⟨-, rfl⟩ | ⟨-, r, -, rfl⟩ | ⟨-, -, rfl⟩ := exec_cases hexec
  · obtain hidle | ⟨run, d, hstart, hmore, hok, hnext, hturn⟩ := turn_ends_or_commits (s := s) hcmd
    · exact .inl hidle
    · have hat := atUnit_of_started hinv hdec hstart
      have hle := hat.used_le hok
      have hpos := used_pos hinv.config hcmd (paged_of_more_after hcmd hok hnext) hmore hok
      have hafter : inputLeft (commitUnit run d s) = run.icur0 + s.regs.inLen.toNat - (run.icur + d.used) := rfl
      rw [hturn, hafter, inputLeft_of_started hstart]
      omega
  · exact .inl rfl
  · exact .inl rfl
  · exact .inl rfl

/-- A command with at most `n` input words before it ends within `n + 1` moves. -/
theorem run_ends_of_inputLeft {s : State} (n : Nat) (hinv : Inv s) (hhost : s.host = []) (hleft : inputLeft s ≤ n) :
    ∃ m t, m ≤ n + 1 ∧ Host.Core.run Sys2Proof.core m s = .next t ∧ t.regs.status.busy = false := by
  induction n generalizing s with
  | zero =>
    obtain ⟨t, hmove⟩ := engineMove_next s
    have hstep : step s = .next t := (step_of_no_event hhost).trans hmove
    obtain hidle | hless := engineMove_ends_or_takes hinv hmove
    · exact ⟨1, t, le_rfl, run_succ_of_step hstep 0, hidle⟩
    · omega
  | succ n ih =>
    obtain ⟨t, hmove⟩ := engineMove_next s
    have hstep : step s = .next t := (step_of_no_event hhost).trans hmove
    obtain hidle | hless := engineMove_ends_or_takes hinv hmove
    · exact ⟨1, t, by omega, run_succ_of_step hstep 0, hidle⟩
    · obtain ⟨m, t', hm, hrun, hidle⟩ :=
        ih (inv_engineMove hinv hmove) ((engineKeeps_of_engineMove hmove).host.trans hhost) (by omega)
      exact ⟨m + 1, t', by omega, (run_succ_of_step hstep m).trans hrun, hidle⟩

/-- Settles O24: each move takes input or ends the command (`engineMove_ends_or_takes`), and no more than `IN_LEN` words are before
it. -/
theorem everyCommandEnds : Obligations.EveryCommandEnds := fun s hinv hhost =>
  run_ends_of_inputLeft s.regs.inLen.toNat hinv hhost hinv.inputLeft_le

/-! ### The output window (R86) -/

section
variable {i : Instr} {s : State} {p : Plan} {u : Units} {run : Run} {d : UnitDone}

theorem AddrRange.Within.trans {q r t : AddrRange} (hqr : q.Within r) (hrt : r.Within t) : q.Within t := fun hne => by
  obtain ⟨hlo, hhi⟩ := hqr hne
  obtain ⟨hlo', hhi'⟩ := hrt (by omega)
  omega

/-- A unit's output window is part of its command's. -/
theorem unitWindows_out_within (hinv : Inv s) (hdec : decode s.regs.cmd = .ok i) (hcmd : commandOf i s = some (p, u))
    (hstart : started s p = .ok run) : (unitWindows i s run).outWin.Within p.outWin := by
  have hat := atUnit_of_started hinv hdec hstart
  have hrun := currentRun_of_started hstart
  have hbase : (wordRange s.regs.outBase.toNat run.ocur (s.regs.outBound.toNat - run.ocur)).Within (baseWindows s).outWin := by
    rw [baseWindows, hrun]
    have hfrom := hat.outFrom
    have hto := hat.outTo
    exact wordRange_within hfrom (by omega)
  have hextent : ∀ n, (wordRange s.regs.outBase.toNat run.ocur (outputExtent s run n)).Within
      (wordRange s.regs.outBase.toNat run.ocur (s.regs.outBound.toNat - run.ocur)) := fun n =>
    wordRange_within le_rfl (Nat.add_le_add_left (outputExtent_le n) _)
  cases i <;> cases hcmd
  case encode.refl | decode.refl => exact (hextent _).trans hbase
  case excPatch.refl =>
    obtain rfl : run = issueRun s := (hat.fresh.resolve_left nofun).resolve_left nofun
    rw [patchPlan, patchWindows, hrun]
    exact AddrRange.within_refl _
  all_goals exact hbase

/-- A unit's output range is part of its output window. -/
theorem unitRange_within (hcmd : commandOf i s = some (p, u)) (run : Run) :
    (wordRange s.regs.outBase.toNat run.ocur (unitRange s u run).2).Within (unitWindows i s run).outWin := by
  have hroom : (unitRange s u run).2 ≤ s.regs.outBound.toNat - run.ocur := outputExtent_le _
  cases i <;> cases hcmd
  case encode.refl | decode.refl => exact AddrRange.within_refl _
  case excPatch.refl => exact wordRange_within le_rfl (Nat.add_le_add_left (Nat.min_le_left _ _) _)
  all_goals exact wordRange_within le_rfl (Nat.add_le_add_left hroom _)

theorem outside_of_within {lo n a : Nat} {r : AddrRange} (hwithin : (wordRange s.regs.outBase.toNat lo n).Within r)
    (ha : r.has a = false) : a < outAddr s lo ∨ outAddr s lo + 4 * n ≤ a := by
  by_contra hin
  rw [outAddr] at hin
  simp only [AddrRange.Within, wordRange] at hwithin
  have hbounds := hwithin (by omega)
  exact Bool.eq_false_iff.1 ha (AddrRange.has_iff.2 (by omega))

theorem byte_commitUnit_other (hm : s.mem.wf) {a : Nat}
    (ha : a < outAddr s run.ocur ∨ outAddr s run.ocur + 4 * d.words.length ≤ a) :
    (commitUnit run d s).mem.byte a = s.mem.byte a :=
  Memory.byte_setWords_other hm _ (by rwa [writtenWords_length])

theorem byte_turn_other (hinv : Inv s) (hdec : decode s.regs.cmd = .ok i) (hcmd : commandOf i s = some (p, u)) {a : Nat}
    (ha : p.outWin.has a = false) : (turn p u s).mem.byte a = s.mem.byte a := by
  have hcause : ∀ run r, started s p = .ok run → (busOutcome s p.readsOut (u.win run) = some r ∨
      (busOutcome s p.readsOut (u.win run) = none ∧ (u.unit run = .error r ∨
        ∃ d, u.unit run = .ok d ∧ writeFault s.plat (outAddr s run.ocur) d.words.length = some r))) →
      ∃ w, UnitError i s run w r := by
    rintro run r - (hbus | ⟨-, hunit | ⟨d, hunit, hfault⟩⟩)
    · exact ⟨_, unitError_of_busOutcome hcmd hbus⟩
    · exact ⟨_, unit_error hcmd hunit⟩
    · exact ⟨_, unitError_of_writeFault hcmd hunit hfault⟩
  obtain ⟨r, -, hturn⟩ | ⟨run, -, -, hturn⟩ | ⟨run, r, hstart, -, hturn, hwhy⟩ | ⟨run, d, hstart, -, -, hunit, -, hturn⟩ :=
    turn_cases p u s <;> rw [hturn]
  · rfl
  · rfl
  · obtain ⟨w, herr⟩ := hcause run r hstart hwhy
    exact byte_abortUnit_other hinv.memory hcmd herr
      (outside_of_within ((unitRange_within hcmd run).trans (unitWindows_out_within hinv hdec hcmd hstart)) ha)
  · have hout := outside_of_within ((unit_ok hcmd hunit).within.trans (unitWindows_out_within hinv hdec hcmd hstart)) ha
    split <;> exact byte_commitUnit_other hinv.memory hout

end

/-- Settles O23: a memory command writes its unit's words or loses its unit's range, both inside the output window
(`byte_turn_other`), and no other move writes memory. -/
theorem engineWritesOnlyItsOutputWindow : Obligations.EngineWritesOnlyItsOutputWindow := by
  intro s t hinv hmove a ha
  obtain ⟨-, rfl⟩ | ⟨-, e, -, rfl⟩ | ⟨hbusy, i, hdec, hexec⟩ := engineMove_cases hmove
  · rfl
  · rfl
  obtain ⟨p, u, hcmd, rfl⟩ | ⟨-, rfl⟩ | ⟨-, r, -, rfl⟩ | ⟨-, -, rfl⟩ := exec_cases hexec
  · exact byte_turn_other hinv hdec hcmd (ha i p u hbusy hdec hcmd)
  · rfl
  · rfl
  · rfl

/-! ### Where a BusError comes from (R260) -/

theorem errKind_of_no_error {i : Instr} {s t : State} (hexec : exec i s = .next t) (hok : t.regs.status.err = false) :
    t.regs.status.errKind = s.regs.status.errKind := by
  obtain ⟨p, u, -, rfl⟩ | ⟨-, rfl⟩ | ⟨-, r, -, rfl⟩ | ⟨-, -, rfl⟩ := exec_cases hexec
  · obtain ⟨r, -, hturn⟩ | ⟨run, -, -, hturn⟩ | ⟨run, r, -, -, hturn, -⟩ | ⟨run, d, -, -, -, -, -, hturn⟩ :=
      turn_cases p u s <;> rw [hturn] at hok ⊢
    · cases hok
    · rfl
    · rw [abortUnit_regs] at hok
      cases hok
    · split <;> rfl
  · rfl
  · cases hok
  · rfl

/-- Settles O28: a BusError ends a unit (`exec_error_cases`), and the unit's accesses and R260's choice keep to its windows. -/
theorem busErrorsNameAnErroringWindowAddress : Obligations.BusErrorsNameAnErroringWindowAddress := by
  intro i s t hinv hbusy hdec hexec hbus
  obtain ⟨-, hok, hkind, -, -⟩ := hinv.busyClear hbusy
  have herr : t.regs.status.err = true := by
    by_contra hno
    have hsame := errKind_of_no_error hexec (Bool.eq_false_iff.2 hno)
    cases hbus.symm.trans (hsame.trans hkind)
  obtain ⟨r, hown, -, rfl⟩ | ⟨p, u, run, r, w, hcmd, hstart, hmore, rfl, hw, hunit⟩ := exec_error_cases hok hexec herr
  · exact absurd (Option.some.inj hbus) hown
  · obtain rfl : w = u.win run := hw.elim id fun h => h.trans (win_of_started hinv hdec hcmd hstart).symm
    rw [abortUnit_errKind] at hbus
    have hindex : (abortUnit u run r s).regs.errIndex = BitVec.ofNat 32 (min r.index 0xFFFFFFFF) := by
      rw [abortUnit_regs]
      rfl
    have hdetail := abortUnit_errDetail (u := u) (run := run) (r := r) (s := s)
    refine ⟨p, u, run, r.index, hcmd, hstart, hmore, ?_, hindex, ?_⟩
    · cases hunit with
      | read _ _ herrs => exact herrs
      | write _ _ herrs => exact herrs
      | own _ hkind => exact absurd (Option.some.inj hbus) hkind
      | late _ hkind => cases (Option.some.inj hbus).symm.trans hkind
    · cases hunit with
      | read _ hd _ hin =>
        refine .inl ⟨by rw [hdetail, hd], hin.imp_right (Or.imp_right fun h => ⟨?_, h.2⟩)⟩
        obtain ⟨rfl, -⟩ := h
        cases hcmd
        rfl
      | write _ hd _ hin => exact .inr ⟨by rw [hdetail, hd], hin⟩
      | own _ hkind => exact absurd (Option.some.inj hbus) hkind
      | late _ hkind => cases (Option.some.inj hbus).symm.trans hkind

end Sys2Proof.Machine
end

section
/-! The prologue's checks in their order (R83, R85, R254). -/

namespace Sys2Proof.Machine

/-! ### What a plan checks (R84, R254) -/

section
variable {i : Instr} {s : State} {p : Plan} {u : Units}

theorem plan_inWin (hcmd : commandOf i s = some (p, u)) (hfresh : s.scratch.run = none) :
    p.inWin = wordRange s.regs.inBase.toNat s.regs.inCur.toNat s.regs.inLen.toNat := by
  have hrun : currentRun s = issueRun s := by simp [currentRun, hfresh]
  have hbase : (baseWindows s).inWin = wordRange s.regs.inBase.toNat s.regs.inCur.toNat s.regs.inLen.toNat := by
    rw [baseWindows, hrun]
    rfl
  cases i <;> cases hcmd <;> exact hbase

theorem plan_outWin (hcmd : commandOf i s = some (p, u)) (hfresh : s.scratch.run = none) :
    p.outWin = wordRange s.regs.outBase.toNat s.regs.outCur.toNat
      (if i = .excPatch then s.regs.argCount.toNat else s.regs.outBound.toNat - s.regs.outCur.toNat) := by
  have hrun : currentRun s = issueRun s := by simp [currentRun, hfresh]
  have hbase : (baseWindows s).outWin =
      wordRange s.regs.outBase.toNat s.regs.outCur.toNat (s.regs.outBound.toNat - s.regs.outCur.toNat) := by
    rw [baseWindows, hrun]
    rfl
  cases i <;> cases hcmd
  case excPatch.refl =>
    rw [if_pos rfl, patchPlan, patchWindows, hrun]
    rfl
  all_goals exact hbase

theorem plan_table (hcmd : commandOf i s = some (p, u)) : p.table = if i = .encode then some (blockCount s) else none := by
  cases i <;> cases hcmd <;> rfl

theorem plan_tabWin (hcmd : commandOf .encode s = some (p, u)) : p.tabWin = wordRange s.regs.bwBase.toNat 0 (blockCount s) := by
  cases hcmd
  rfl

/-- R190, R195: EXC_EXTRACT checks IN_LEN, EXC_PATCH checks ARG_COUNT, and no other command checks a count. -/
theorem plan_count (hcmd : commandOf i s = some (p, u)) (n : Nat) : p.count = some n ↔
    ((∃ b, i = .excExtract b) ∧ s.regs.inLen.toNat = n) ∨ (i = .excPatch ∧ s.regs.argCount.toNat = n) := by
  cases i <;> cases hcmd <;> simp [packPlan, unpackPlan, extractPlan, patchPlan, parsePlan, encodePlan, decodePlan, basePlan]

end

/-! ### The checks as conditions (R83, R85) -/

theorem badBuffer_iff (p : Platform) (base n : Nat) : badBuffer p base n = true ↔ base % 4 ≠ 0 ∨ 2 ^ p.aw < base + 4 * n := by
  simp [badBuffer]

theorem overlaps_wordRange_iff (base lo n base' lo' n' : Nat) :
    (wordRange base lo n).overlaps (wordRange base' lo' n') = true ↔
      0 < n ∧ 0 < n' ∧ base + 4 * lo < base' + 4 * lo' + 4 * n' ∧ base' + 4 * lo' < base + 4 * lo + 4 * n := by
  rw [AddrRange.overlaps_iff]
  simp only [wordRange]
  omega

theorem started_of_prologue_error {s : State} {p : Plan} {r : Raise} (hfresh : s.scratch.run = none)
    (hpro : prologue s p = some r) : started s p = .error r := by
  simp [started, hfresh, hpro]

/-- R254: a failing check is reported, and nothing else happens. -/
theorem reports_of_prologue {i : Instr} {s : State} {p : Plan} {u : Units} {r : Raise} (hcmd : commandOf i s = some (p, u))
    (hfresh : s.scratch.run = none) (hpro : prologue s p = some r) : Reports s (exec i s) r.kind r.detail r.index := by
  have hturn : turn p u s = raiseError r s := by simp [turn, started_of_prologue_error hfresh hpro]
  rw [exec_eq_turn hcmd, hturn]
  exact reports_raiseError r s

/-- Settles O30: each check of `prologue` is its condition, and the first that holds is the report (`reports_of_prologue`). -/
theorem prologueReportsItsFirstFailure : Obligations.PrologueReportsItsFirstFailure := by
  intro i s p u hcmd hfresh g nb outWords overlap c1 c2 c3 c4 c5 c6 c7 c8 c9 c10
  have h1 : g.inBound.toNat < g.inCur.toNat ↔ c1 := Iff.rfl
  have h2 : g.outBound.toNat < g.outCur.toNat ↔ c2 := Iff.rfl
  have h3 : badBuffer s.plat g.inBase.toNat g.inBound.toNat = true ↔ c3 := badBuffer_iff ..
  have h4 : badBuffer s.plat g.outBase.toNat g.outBound.toNat = true ↔ c4 := badBuffer_iff ..
  have h5 : p.table.any (badBuffer s.plat g.bwBase.toNat) = true ↔ c5 := by
    rw [plan_table hcmd]
    split
    case isTrue hi => exact (badBuffer_iff ..).trans (and_iff_right hi).symm
    case isFalse hi => exact iff_of_false Bool.false_ne_true fun h => hi h.1
  have h6 : g.inBound.toNat - g.inCur.toNat < g.inLen.toNat ↔ c6 := Iff.rfl
  have h78 : p.count.any (fun n => decide (g.actBlockSize.toNat < n)) = true ↔ c7 ∨ c8 := by
    simp only [Option.any_eq_true, plan_count hcmd, decide_eq_true_eq]
    constructor
    · rintro ⟨n, ⟨hi, rfl⟩ | ⟨hi, rfl⟩, hlt⟩
      · exact .inl ⟨hi, hlt⟩
      · exact .inr ⟨hi, hlt⟩
    · rintro (⟨hi, hlt⟩ | ⟨hi, hlt⟩)
      · exact ⟨_, .inl ⟨hi, rfl⟩, hlt⟩
      · exact ⟨_, .inr ⟨hi, rfl⟩, hlt⟩
  have h9 : p.inWin.overlaps p.outWin = true ↔ c9 := by
    rw [plan_inWin hcmd hfresh, plan_outWin hcmd hfresh]
    exact overlaps_wordRange_iff ..
  have h10 : (p.table.isSome && p.tabWin.overlaps p.outWin) = true ↔ c10 := by
    rw [plan_table hcmd, plan_outWin hcmd hfresh]
    split
    case isTrue hi =>
      subst hi
      rw [plan_tabWin hcmd]
      exact (overlaps_wordRange_iff ..).trans (and_iff_right rfl).symm
    case isFalse hi => exact iff_of_false Bool.false_ne_true fun h => hi h.1
  have hchecks : prologue s p =
      if c1 then some { kind := .invalidOffset, detail := 1, index := g.inCur.toNat }
      else if c2 then some { kind := .invalidOffset, detail := 2, index := g.outCur.toNat }
      else if c3 then some { kind := .invalidOffset, detail := 3, index := g.inBase.toNat }
      else if c4 then some { kind := .invalidOffset, detail := 4, index := g.outBase.toNat }
      else if c5 then some { kind := .invalidOffset, detail := 5, index := g.bwBase.toNat }
      else if c6 then some { kind := .invalidInput, detail := 1, index := g.inLen.toNat }
      else if c7 ∨ c8 then some { kind := .invalidInput, detail := 3, index := p.count.getD 0 }
      else if c9 then some { kind := .invalidInput, detail := 2, index := 0 }
      else if c10 then some { kind := .invalidInput, detail := 5, index := 0 }
      else none := by
    simp only [prologue, g, h1, h2, h3, h4, h5, h6, h78, h9, h10]
  have hcount : ∀ n, p.count = some n → p.count.getD 0 = n := fun n hn => by rw [hn]; rfl
  have reported : ∀ r, prologue s p = some r → Reports s (exec i s) r.kind r.detail r.index :=
    fun r => reports_of_prologue hcmd hfresh
  refine ⟨fun a1 => reported _ (by rw [hchecks, if_pos a1]),
    fun n1 a2 => reported _ (by rw [hchecks, if_neg n1, if_pos a2]),
    fun n1 n2 a3 => reported _ (by rw [hchecks, if_neg n1, if_neg n2, if_pos a3]),
    fun n1 n2 n3 a4 => reported _ (by rw [hchecks, if_neg n1, if_neg n2, if_neg n3, if_pos a4]),
    fun n1 n2 n3 n4 a5 => reported _ (by rw [hchecks, if_neg n1, if_neg n2, if_neg n3, if_neg n4, if_pos a5]),
    fun n1 n2 n3 n4 n5 a6 =>
      reported _ (by rw [hchecks, if_neg n1, if_neg n2, if_neg n3, if_neg n4, if_neg n5, if_pos a6]),
    fun n1 n2 n3 n4 n5 n6 a7 => ?_, fun n1 n2 n3 n4 n5 n6 a8 => ?_,
    fun n1 n2 n3 n4 n5 n6 n7 n8 a9 => reported _ (by
      rw [hchecks, if_neg n1, if_neg n2, if_neg n3, if_neg n4, if_neg n5, if_neg n6, if_neg (not_or.2 ⟨n7, n8⟩), if_pos a9]),
    fun n1 n2 n3 n4 n5 n6 n7 n8 n9 a10 => reported _ (by
      rw [hchecks, if_neg n1, if_neg n2, if_neg n3, if_neg n4, if_neg n5, if_neg n6, if_neg (not_or.2 ⟨n7, n8⟩), if_neg n9,
        if_pos a10]),
    fun n1 n2 n3 n4 n5 n6 n7 n8 n9 n10 => by
      rw [hchecks, if_neg n1, if_neg n2, if_neg n3, if_neg n4, if_neg n5, if_neg n6, if_neg (not_or.2 ⟨n7, n8⟩), if_neg n9,
        if_neg n10]⟩
  · rw [← hcount _ ((plan_count hcmd _).2 (.inl ⟨a7.1, rfl⟩))]
    exact reported _ (by rw [hchecks, if_neg n1, if_neg n2, if_neg n3, if_neg n4, if_neg n5, if_neg n6, if_pos (.inl a7)])
  · rw [← hcount _ ((plan_count hcmd _).2 (.inr ⟨a8.1, rfl⟩))]
    exact reported _ (by rw [hchecks, if_neg n1, if_neg n2, if_neg n3, if_neg n4, if_neg n5, if_neg n6, if_pos (.inr a8)])

end Sys2Proof.Machine
end

section
/-! A unit that nothing disturbs (R258, R259, R260): its reads give the words of memory, its error is reported, its words
are committed. -/

namespace Sys2Proof.Machine

/-! ### Reads that no bus error disturbs (R10) -/

/-- The reader of the OUT buffer that meets no bus error. -/
def plainOut (s : State) (i : Nat) : Except Raise Word := .ok (s.mem.word (outAddr s i))

/-- The reader of the bit-width table that meets no bus error. -/
def plainBw (s : State) (k : Nat) : Except Raise Word := .ok (s.mem.word (s.regs.bwBase.toNat + 4 * k))

theorem eq_word_of_memRead {s : State} {a : Nat} {w : Word} (hduty : dutyBroken s = false) (hread : memRead s a = .ok w) :
    w = s.mem.word a := by
  simp only [memRead, hduty] at hread
  split at hread
  case isTrue => cases hread
  case isFalse => exact (Except.ok.inj hread).symm

section
variable {s : State}

theorem answers_inRd_plainIn (hduty : dutyBroken s = false) : Answers (inRd s) (plainIn s) :=
  fun _ _ hread => congrArg Except.ok (eq_word_of_memRead hduty hread).symm

theorem answers_outRd_plainOut (hduty : dutyBroken s = false) : Answers (outRd s) (plainOut s) :=
  fun _ _ hread => congrArg Except.ok (eq_word_of_memRead hduty hread).symm

theorem answers_bwRd_plainBw (hduty : dutyBroken s = false) : Answers (bwRd s) (plainBw s) :=
  fun _ _ hread => congrArg Except.ok (eq_word_of_memRead hduty hread).symm

theorem neverErrs_plainIn (s : State) : NeverErrs (plainIn s) := fun _ => ⟨_, rfl⟩

/-- With no erroring address where the input is read, no read of it fails. -/
theorem same_of_calm_inRd {α : Type} {P : Nat → Prop} {out out' : Except Raise α} (h : out = out' ∨ FailedRead (inRd s) P out)
    (hcalm : ∀ x, P x → s.plat.errs (inAddr s x) = false) : out = out' := by
  refine h.resolve_right ?_
  rintro ⟨x, r, hx, hread, -⟩
  exact Bool.false_ne_true ((hcalm x hx).symm.trans (error_of_memRead hread).1)

theorem wordsAt_eq_range (s : State) (base i n : Nat) :
    wordsAt s (base + 4 * i) n = (List.range n).map fun k => s.mem.word (base + 4 * (i + k)) := by
  simp only [wordsAt, Nat.mul_add, Nat.add_assoc]

theorem readRun_plainIn (s : State) (i n : Nat) : readRun (plainIn s) i n = .ok (inWords s i n) := by
  rw [inWords, wordsAt_eq_range]
  exact readRun_ok (f := fun x => s.mem.word (inAddr s x)) fun _ _ => rfl

theorem readRun_inRd_of_calm {i n : Nat} (hduty : dutyBroken s = false)
    (hcalm : ∀ x, i ≤ x ∧ x < i + n → s.plat.errs (inAddr s x) = false) : readRun (inRd s) i n = .ok (inWords s i n) := by
  rw [← readRun_plainIn]
  exact same_of_calm_inRd (readRun_same_or_failed (answers_inRd_plainIn hduty) i n) hcalm

theorem readRun_outRd_of_calm {i n : Nat} (hduty : dutyBroken s = false)
    (hcalm : ∀ x, i ≤ x ∧ x < i + n → s.plat.errs (outAddr s x) = false) : readRun (outRd s) i n = .ok (outWords s i n) := by
  rw [outWords, outAddr, wordsAt_eq_range]
  exact readRun_ok (f := fun x => s.mem.word (outAddr s x)) fun k hk =>
    memRead_calm hduty (hcalm (i + k) ⟨Nat.le_add_right i k, Nat.add_lt_add_left hk i⟩)

end

/-! ### The unit's end (R252, R258) -/

section
variable {i : Instr} {s : State} {p : Plan} {u : Units} {run : Run} {r : Raise} {d : UnitDone}

theorem exec_eq_abortUnit (hcmd : commandOf i s = some (p, u)) (hstart : started s p = .ok run) (hmore : u.more run = true)
    (hcalm : touchesBusErr s (u.win run) = false) (hunit : u.unit run = .error r) :
    exec i s = .next (abortUnit u run r s) := by
  rw [exec_eq_turn hcmd]
  simp [turn, hstart, hmore, busOutcome_undisturbed hcalm, hunit]

/-- R252, R259: an error of the unit before its first write is reported, and nothing else happens. -/
theorem reports_of_unit_error (hcmd : commandOf i s = some (p, u)) (hstart : started s p = .ok run) (hmore : u.more run = true)
    (hcalm : touchesBusErr s (u.win run) = false) (hunit : u.unit run = .error r) (hkind : r.kind ≠ .busError)
    (hclean : r.dirty = none) : Reports s (exec i s) r.kind r.detail r.index := by
  rw [exec_eq_abortUnit hcmd hstart hmore hcalm hunit]
  exact ⟨_, rfl, abortUnit_mem_clean _ _ _ _ hkind hclean, abortUnit_plat .., abortUnit_host .., abortUnit_reply ..,
    abortUnit_held .., abortUnit_regs ..⟩

/-- R86, R260: a unit's words are written at no erroring address where its windows touch none. -/
theorem writeFault_of_calm (hcmd : commandOf i s = some (p, u)) (hwin : u.win run = unitWindows i s run)
    (hcalm : touchesBusErr s (u.win run) = false) (hunit : u.unit run = .ok d) :
    writeFault s.plat (outAddr s run.ocur) d.words.length = none := by
  refine writeFault_none fun k hk => errs_of_undisturbed hcalm (.inr (.inr ?_))
  have hwithin := (unit_ok hcmd hunit).within
  simp only [AddrRange.Within, wordRange] at hwithin
  rw [hwin, AddrRange.has_iff, outAddr]
  omega

/-- R258: what a commit leaves. -/
theorem committed_commitUnit (hm : s.mem.wf) (hduty : dutyBroken s = false) (run : Run) (d : UnitDone) :
    Committed s (commitUnit run d s) run.icur run.ocur d.words d.used d.rd d.exc s.regs.status where
  written := List.ext_getElem (wordsAt_length ..) fun k hk hk' => by
    refine (wordsAt_getElem _ _ _ k hk).trans ?_
    rw [commitUnit_mem, writtenWords_calm hduty]
    exact Memory.word_setWords hm _ _ _ hk'
  kept _ ha := byte_commitUnit_other hm ha
  memory := commitUnit_wf hm run d
  regs := rfl
  plat := rfl
  host := rfl
  reply := rfl
  held := rfl

theorem Committed.finish {t : State} {i o used rd exc : Nat} {words : List Word} {status : Status}
    (h : Committed s t i o words used rd exc status) : Committed s (Machine.finish t) i o words used rd exc status.finished where
  written := h.written
  kept := h.kept
  memory := h.memory
  regs := by rw [finish_regs, h.regs]
  plat := h.plat
  host := h.host
  reply := h.reply
  held := h.held

section
variable (hcmd : commandOf i s = some (p, u)) (hm : s.mem.wf) (hcalm : Undisturbed s (u.win run))
include hcmd hm hcalm

/-- R258: a unit that nothing disturbs is committed, and the command finishes where no unit is left. -/
theorem pageCommitted_of_unit (hstart : started s p = .ok run) (hmore : u.more run = true)
    (hwin : u.win run = unitWindows i s run) (hunit : u.unit run = .ok d) :
    ∃ t, exec i s = .next t ∧ PageCommitted s t run u.more d := by
  have hturn := turn_of_unit hstart hmore (busOutcome_undisturbed hcalm.1) hunit (writeFault_of_calm hcmd hwin hcalm.1 hunit)
  have hcommit := committed_commitUnit hm hcalm.2 run d
  rw [exec_eq_turn hcmd, hturn]
  unfold PageCommitted
  split
  case isTrue => exact ⟨_, rfl, hcommit, rfl⟩
  case isFalse => exact ⟨_, rfl, hcommit.finish, rfl⟩

end

/-- R258: a command of one unit that nothing disturbs completes. -/
theorem completed_of_unit (hcmd : commandOf i s = some (p, u)) (hi : ¬(i = .encode ∨ i = .decode)) (hm : s.mem.wf)
    (hfresh : s.scratch.run = none) (hpass : prologue s p = none) (hcalm : Undisturbed s (u.win (issueRun s)))
    (hmore : u.more (issueRun s) = true) (hunit : u.unit (issueRun s) = .ok d) :
    ∃ t, exec i s = .next t ∧ Completed s t d.words d.used d.rd d.exc := by
  obtain ⟨t, hexec, ht⟩ := pageCommitted_of_unit hcmd hm hcalm (started_of_prologue hfresh hpass) hmore
    (win_issueRun hcmd hfresh) hunit
  have hlast : ¬u.more ((issueRun s).after d) = true := fun hnext => hi (paged_of_more_after hcmd (unit_ok hcmd hunit) hnext)
  rw [PageCommitted, if_neg hlast] at ht
  exact ⟨t, hexec, ht⟩

end

end Sys2Proof.Machine
end

section
/-! The commands of one unit without a page: PACK, UNPACK, EXC_EXTRACT, EXC_PATCH (R164, R165, R190, R195). -/

namespace Sys2Proof.Machine

/-! ### Calm windows (R260) -/

section
variable {s : State} {w : Windows} {lo n x : Nat} (hcalm : touchesBusErr s w = false)
include hcalm

theorem errs_of_calm_inWin (hwin : w.inWin = wordRange s.regs.inBase.toNat lo n) (hx : lo ≤ x ∧ x < lo + n) :
    s.plat.errs (inAddr s x) = false := by
  refine errs_of_undisturbed hcalm (.inl ?_)
  rw [hwin, has_wordRange_iff, inAddr]
  omega

theorem errs_of_calm_outWin (hwin : w.outWin = wordRange s.regs.outBase.toNat lo n) (hx : lo ≤ x ∧ x < lo + n) :
    s.plat.errs (outAddr s x) = false := by
  refine errs_of_undisturbed hcalm (.inr (.inr ?_))
  rw [hwin, has_wordRange_iff, outAddr]
  omega

theorem errs_of_calm_tabWin (hwin : w.tabWin = wordRange s.regs.bwBase.toNat lo n) (hx : lo ≤ x ∧ x < lo + n) :
    s.plat.errs (s.regs.bwBase.toNat + 4 * x) = false := by
  refine errs_of_undisturbed hcalm (.inr (.inl ?_))
  rw [hwin, has_wordRange_iff]
  omega

end

section
variable {i : Instr} {s : State} {p : Plan} {u : Units}

/-- The input window of a command about to run has no erroring address. -/
theorem errs_in_of_ready (hcmd : commandOf i s = some (p, u)) (hready : Ready s p) {x : Nat}
    (hx : s.regs.inCur.toNat ≤ x ∧ x < s.regs.inCur.toNat + s.regs.inLen.toNat) : s.plat.errs (inAddr s x) = false :=
  errs_of_calm_inWin hready.2.2.1 (plan_inWin hcmd hready.1) hx

/-- What a command about to run reads of its input. -/
theorem readRun_of_ready (hcmd : commandOf i s = some (p, u)) (hready : Ready s p) {n : Nat} (hn : n ≤ s.regs.inLen.toNat) :
    readRun (inRd s) s.regs.inCur.toNat n = .ok (inWords s s.regs.inCur.toNat n) :=
  readRun_inRd_of_calm hready.2.2.2 fun _ hx => errs_in_of_ready hcmd hready ⟨hx.1, by omega⟩

/-- An error of the unit of a command about to run, before its first write. -/
theorem reports_of_ready {r : Raise} (hcmd : commandOf i s = some (p, u)) (hready : Ready s p)
    (hmore : u.more (issueRun s) = true) (hwin : (u.win (issueRun s)).Within p.toWindows)
    (hunit : u.unit (issueRun s) = .error r) (hkind : r.kind ≠ .busError) (hclean : r.dirty = none) :
    Reports s (exec i s) r.kind r.detail r.index :=
  reports_of_unit_error hcmd (started_of_prologue hready.1 hready.2.1) hmore (touchesBusErr_mono hwin hready.2.2.1) hunit hkind
    hclean

theorem Windows.within_refl (w : Windows) : w.Within w :=
  ⟨AddrRange.within_refl _, AddrRange.within_refl _, AddrRange.within_refl _⟩

/-- The unit of a one-unit command about to run. -/
theorem completed_of_ready {d : UnitDone} (hcmd : commandOf i s = some (p, u)) (hi : ¬(i = .encode ∨ i = .decode)) (hm : s.mem.wf)
    (hready : Ready s p) (hunit : u.unit (issueRun s) = .ok d) :
    ∃ t, exec i s = .next t ∧ Completed s t d.words d.used d.rd d.exc := by
  obtain ⟨hfresh, hpass, hcalm⟩ := hready
  have hone : u.more (issueRun s) = true ∧ u.win (issueRun s) = p.toWindows := by
    cases i <;> cases hcmd
    case encode.refl => exact absurd (.inl rfl) hi
    case decode.refl => exact absurd (.inr rfl) hi
    all_goals exact ⟨rfl, rfl⟩
  exact completed_of_unit hcmd hi hm hfresh hpass (hone.2 ▸ hcalm) hone.1 hunit

end

/-! ### The units -/

section
variable {s : State} {run : Run} {b : Nat}

theorem packUnit_noSpace (hfull : s.regs.outBound.toNat < run.ocur + packedLen s.regs.inLen.toNat b) :
    packUnit b s run = .error (noSpace (run.ocur + packedLen s.regs.inLen.toNat b)) := by
  simp only [packUnit, if_pos hfull]

theorem packUnit_eq_ok {vals : List Word} (hfits : run.ocur + packedLen s.regs.inLen.toNat b ≤ s.regs.outBound.toNat)
    (hread : readRun (inRd s) run.icur s.regs.inLen.toNat = .ok vals) : packUnit b s run =
      .ok { words := pack vals b, used := s.regs.inLen.toNat, rd := s.regs.inLen.toNat, exc := 0, units := 1 } := by
  simp only [packUnit, if_neg (not_lt.2 hfits), hread]

theorem unpackUnit_pastWindow (hpast : s.regs.inLen.toNat < packedLen s.regs.argCount.toNat b) :
    unpackUnit b s run = .error (corrupt 1 (run.icur + s.regs.inLen.toNat)) := by
  simp only [unpackUnit, if_pos hpast]

theorem unpackUnit_noSpace (hin : packedLen s.regs.argCount.toNat b ≤ s.regs.inLen.toNat)
    (hfull : s.regs.outBound.toNat < run.ocur + s.regs.argCount.toNat) :
    unpackUnit b s run = .error (noSpace (run.ocur + s.regs.argCount.toNat)) := by
  simp only [unpackUnit, if_neg (not_lt.2 hin), if_pos hfull]

theorem unpackUnit_eq_ok {words : List Word} (hin : packedLen s.regs.argCount.toNat b ≤ s.regs.inLen.toNat)
    (hfits : run.ocur + s.regs.argCount.toNat ≤ s.regs.outBound.toNat)
    (hread : readRun (inRd s) run.icur (packedLen s.regs.argCount.toNat b) = .ok words) : unpackUnit b s run =
      .ok { words := unpack words s.regs.argCount.toNat b, used := packedLen s.regs.argCount.toNat b,
            rd := packedLen s.regs.argCount.toNat b, exc := 0, units := 1 } := by
  simp only [unpackUnit, if_neg (not_lt.2 hin), if_neg (not_lt.2 hfits), hread]

section
variable {vals : List Word} (hread : readRun (inRd s) run.icur s.regs.inLen.toNat = .ok vals)
include hread

theorem extractUnit_noSpace (hfull : s.regs.outBound.toNat < run.ocur + (record (posWidth s) vals b).length) :
    extractUnit b s run = .error (noSpace (run.ocur + (record (posWidth s) vals b).length)) := by
  simp only [extractUnit, hread, if_pos hfull]

theorem extractUnit_eq_ok (hfits : run.ocur + (record (posWidth s) vals b).length ≤ s.regs.outBound.toNat) :
    extractUnit b s run =
      .ok { words := record (posWidth s) vals b, used := s.regs.inLen.toNat, rd := s.regs.inLen.toNat,
            exc := exceptionCount (buckets vals b), units := 1, groups := [groupOf b (buckets vals b)],
            buckets := buckets vals b } := by
  simp only [extractUnit, hread, if_neg (not_lt.2 hfits)]

end

theorem patchUnit_noSpace (hfull : s.regs.outBound.toNat < run.ocur + s.regs.argCount.toNat) :
    patchUnit s run = .error (noSpace (run.ocur + s.regs.argCount.toNat)) := by
  simp only [patchUnit, if_pos hfull]

section
variable {r : Raise} {g : Group} {x : List Word} (hfits : run.ocur + s.regs.argCount.toNat ≤ s.regs.outBound.toNat)
include hfits

theorem patchUnit_of_group_error
    (hgroup : readGroup (inRd s) (actBS s) (run.icur + s.regs.inLen.toNat) run.icur = .error r) :
    patchUnit s run = .error r := by
  simp only [patchUnit, if_neg (not_lt.2 hfits), hgroup]

variable (hgroup : readGroup (inRd s) (actBS s) (run.icur + s.regs.inLen.toNat) run.icur = .ok g)
include hgroup

theorem patchUnit_pastWindow
    (hpast : run.icur + s.regs.inLen.toNat < run.icur + groupLen g + xlen (posWidth s) g.buckets) :
    patchUnit s run = .error (corrupt 1 (run.icur + s.regs.inLen.toNat)) := by
  simp only [patchUnit, if_neg (not_lt.2 hfits), hgroup, if_pos hpast]

variable (hin : run.icur + groupLen g + xlen (posWidth s) g.buckets ≤ run.icur + s.regs.inLen.toNat)
include hin

theorem patchUnit_of_outRd_error (hread : readRun (outRd s) run.ocur s.regs.argCount.toNat = .error r) :
    patchUnit s run = .error r := by
  simp only [patchUnit, if_neg (not_lt.2 hfits), hgroup, if_neg (not_lt.2 hin), hread]

variable (hread : readRun (outRd s) run.ocur s.regs.argCount.toNat = .ok x)
include hread

theorem patchUnit_of_patch_error
    (hpatch : patch (inRd s) s.regs.argCount.toNat g.b (posWidth s) (run.icur + groupLen g) g.buckets x = .error r) :
    patchUnit s run = .error r := by
  simp only [patchUnit, if_neg (not_lt.2 hfits), hgroup, if_neg (not_lt.2 hin), hread, hpatch]

theorem patchUnit_eq_ok {x' : List Word}
    (hpatch : patch (inRd s) s.regs.argCount.toNat g.b (posWidth s) (run.icur + groupLen g) g.buckets x = .ok x') :
    patchUnit s run =
      .ok { words := x', used := groupLen g + xlen (posWidth s) g.buckets, rd := groupLen g + xlen (posWidth s) g.buckets,
            exc := groupExceptions g.buckets, units := 1, groups := [g] } := by
  simp only [patchUnit, if_neg (not_lt.2 hfits), hgroup, if_neg (not_lt.2 hin), hread, hpatch]

end

end

/-- Settles O31: each unit checks its room before it writes, and UNPACK its run's extent before that. -/
theorem outputThatDoesNotFitIsRefused : Obligations.OutputThatDoesNotFitIsRefused := by
  refine ⟨?pack, ?unpack, ?extract, ?patch⟩
  case pack =>
    intro b s hready bound hfull
    exact reports_of_ready (r := noSpace bound) (i := .pack b) rfl hready rfl (Windows.within_refl _) (packUnit_noSpace hfull) nofun rfl
  case unpack =>
    intro b s hready n
    refine ⟨fun hpast => ?_, fun hin hfull => ?_⟩
    · exact reports_of_ready (r := corrupt 1 (s.regs.inCur.toNat + s.regs.inLen.toNat)) (i := .unpack b) rfl hready rfl
        (Windows.within_refl _) (unpackUnit_pastWindow hpast) nofun rfl
    · exact reports_of_ready (r := noSpace (s.regs.outCur.toNat + n)) (i := .unpack b) rfl hready rfl (Windows.within_refl _)
        (unpackUnit_noSpace hin hfull) nofun rfl
  case extract =>
    intro b s hready bound hfull
    exact reports_of_ready (r := noSpace bound) (i := .excExtract b) rfl hready rfl (Windows.within_refl _)
      (extractUnit_noSpace (readRun_of_ready (i := .excExtract b) rfl hready le_rfl) hfull) nofun rfl
  case patch =>
    intro s hready bound hfull
    exact reports_of_ready (r := noSpace bound) (i := .excPatch) rfl hready rfl (Windows.within_refl _) (patchUnit_noSpace hfull)
      nofun rfl

/-- Settles O35: PACK's input is read as memory holds it, and its unit completes. -/
theorem packWritesThePackedRun : Obligations.PackWritesThePackedRun := by
  intro b s hm hready n hfits
  have hread := readRun_of_ready (i := .pack b) rfl hready le_rfl
  exact completed_of_ready (i := .pack b) rfl nofun hm hready (packUnit_eq_ok hfits hread)

/-- Settles O36: UNPACK's run is read as memory holds it, and its unit completes. -/
theorem unpackWritesTheValues : Obligations.UnpackWritesTheValues := by
  intro b s hm hready n m hin hfits
  have hread := readRun_of_ready (i := .unpack b) rfl hready hin
  exact completed_of_ready (i := .unpack b) rfl nofun hm hready (unpackUnit_eq_ok hin hfits hread)

/-- Settles O37: EXC_EXTRACT's input is read as memory holds it, and its buckets hold every exception once
(`exceptionCount_buckets`). -/
theorem excExtractWritesTheRecord : Obligations.ExcExtractWritesTheRecord := by
  intro b s hm hwidth hready n vals rec' hfits
  have hread := readRun_of_ready (i := .excExtract b) rfl hready le_rfl
  have hcount : exceptionCount (buckets vals b.toNat) = countAbove b.toNat vals :=
    exceptionCount_buckets vals (of_decide_eq_true hwidth)
  rw [← hcount]
  exact completed_of_ready (i := .excExtract b) rfl nofun hm hready (extractUnit_eq_ok hread hfits)

/-! ### EXC_PATCH (R195) -/

section
variable {s : State} (hready : Ready s (patchPlan s))
include hready

theorem readGroup_of_ready : readGroup (inRd s) (actBS s) (s.regs.inCur.toNat + s.regs.inLen.toNat) s.regs.inCur.toNat =
    readGroup (plainIn s) (actBS s) (s.regs.inCur.toNat + s.regs.inLen.toNat) s.regs.inCur.toNat :=
  same_of_calm_inRd (readGroup_same_or_failed (answers_inRd_plainIn hready.2.2.2) ..)
    fun _ hx => errs_in_of_ready (i := .excPatch) rfl hready ⟨hx.1, hx.2.1⟩

theorem patch_of_ready {g : Group} (hin : s.regs.inCur.toNat + groupLen g + xlen (posWidth s) g.buckets ≤
      s.regs.inCur.toNat + s.regs.inLen.toNat) (n : Nat) (x : List Word) :
    patch (inRd s) n g.b (posWidth s) (s.regs.inCur.toNat + groupLen g) g.buckets x =
      patch (plainIn s) n g.b (posWidth s) (s.regs.inCur.toNat + groupLen g) g.buckets x :=
  same_of_calm_inRd (patch_same_or_failed (answers_inRd_plainIn hready.2.2.2) ..)
    fun _ hx => errs_in_of_ready (i := .excPatch) rfl hready (by omega)

theorem readTargets_of_ready : readRun (outRd s) s.regs.outCur.toNat s.regs.argCount.toNat =
    .ok (outWords s s.regs.outCur.toNat s.regs.argCount.toNat) :=
  readRun_outRd_of_calm hready.2.2.2 fun _ hx =>
    errs_of_calm_outWin hready.2.2.1 (plan_outWin (i := .excPatch) rfl hready.1) hx

end

/-- Settles O38: the group, the targets and the runs are read as memory holds them, and the patch completes. -/
theorem excPatchRewritesTheTargets : Obligations.ExcPatchRewritesTheTargets := by
  intro s g x hm hready n j wend used hfits hgroup hin hpatch
  rw [Nat.add_assoc] at hpatch
  have hruns : j + groupLen g + xlen (posWidth s) g.buckets ≤ wend := by rwa [Nat.add_assoc]
  have hunit := patchUnit_eq_ok (run := issueRun s) hfits ((readGroup_of_ready hready).trans hgroup) hruns
    (readTargets_of_ready hready) ((patch_of_ready hready hruns n _).trans hpatch)
  exact completed_of_ready (i := .excPatch) rfl nofun hm hready hunit

end Sys2Proof.Machine
end

section
/-! The page header (R221, R222) in HDR_PARSE and DECODE: what its parse raises, and the metadata table (R230). -/

namespace Sys2Proof.Machine

/-! ### The header's parse (R221) -/

section
variable {rd : Nat → Except Raise Word} {bs ps wend j : Nat} {h : Word} {r : Raise}

theorem readHeader_past_window (hend : wend ≤ j) : readHeader rd bs ps wend j = .error (corrupt 1 wend) := by
  simp only [readHeader, if_pos hend]

theorem readHeader_of_read_error (hin : j < wend) (hread : rd j = .error r) : readHeader rd bs ps wend j = .error r := by
  simp only [readHeader, if_neg (not_le.2 hin), hread]

section
variable (hin : j < wend) (hread : rd j = .ok h)
include hin hread

theorem readHeader_invalid (hbad : validH0 bs ps h = false) : readHeader rd bs ps wend j = .error (corrupt 2 j) := by
  simp [readHeader, not_le.2 hin, hread, hbad]

variable (hvalid : validH0 bs ps h = true)
include hvalid

theorem readHeader_of_groups_error (hgroups : readGroups rd bs wend (j + 1) (field h 8 24) = .error r) :
    readHeader rd bs ps wend j = .error r := by
  simp [readHeader, not_le.2 hin, hread, hvalid, hgroups]

theorem readHeader_of_groups {gs : List Group} (hgroups : readGroups rd bs wend (j + 1) (field h 8 24) = .ok gs) :
    readHeader rd bs ps wend j = if wend < j + Header.plen bs ⟨h, gs⟩ then .error (corrupt 1 wend) else .ok ⟨h, gs⟩ := by
  simp [readHeader, not_le.2 hin, hread, hvalid, hgroups]

end

theorem readGroups_of_first_error {n : Nat} (hn : 0 < n) (hgroup : readGroup rd bs wend j = .error r) :
    readGroups rd bs wend j n = .error r := by
  obtain ⟨n, rfl⟩ := Nat.exists_eq_succ_of_ne_zero hn.ne'
  simp only [readGroups, hgroup]

/-- R221: a page has at least one group, so an error of the first is the header's. -/
theorem readHeader_of_first_group_error (hin : j < wend) (hread : rd j = .ok h) (hvalid : validH0 bs ps h = true)
    (hgroup : readGroup rd bs wend (j + 1) = .error r) : readHeader rd bs ps wend j = .error r :=
  readHeader_of_groups_error hin hread hvalid (readGroups_of_first_error ((validH0_iff bs ps h).1 hvalid).2.2.1 hgroup)

/-- R221: behind groups that parse the parse goes on with the rest. -/
theorem readGroups_append {gs : List Group}
    (hgs : ∀ i g, gs[i]? = some g → readGroup rd bs wend (j + ((gs.take i).map groupLen).sum) = .ok g) (n : Nat) :
    readGroups rd bs wend j (gs.length + n) =
      (readGroups rd bs wend (j + (gs.map groupLen).sum) n).map (gs ++ ·) := by
  induction gs generalizing j with
  | nil => cases hrest : readGroups rd bs wend j n <;> simp [hrest, Except.map]
  | cons g gs ih =>
    have hfirst : readGroup rd bs wend j = .ok g := hgs 0 g rfl
    have hrest := ih (j := j + groupLen g) fun i g' hg' => by
      have := hgs (i + 1) g' hg'
      rwa [List.take_succ_cons, List.map_cons, List.sum_cons, ← Nat.add_assoc] at this
    rw [List.length_cons, Nat.add_right_comm, List.map_cons, List.sum_cons, ← Nat.add_assoc]
    simp only [readGroups, hfirst, hrest]
    cases readGroups rd bs wend (j + groupLen g + (gs.map groupLen).sum) n <;> rfl

end

theorem Corrupts.not_bus {ds : List Nat} {r : Raise} (h : Corrupts ds r) : r.kind ≠ .busError := by
  obtain ⟨d, -, x, rfl⟩ := h
  exact nofun

theorem Corrupts.clean {ds : List Nat} {r : Raise} (h : Corrupts ds r) : r.dirty = none := by
  obtain ⟨d, -, x, rfl⟩ := h
  rfl

/-- R222: a page whose groups parse and whose extent passes the window's end is refused. -/
theorem readHeader_of_pageAt {s : State} {wend j : Nat} {gs : List Group} (hpage : PageAt s wend j gs)
    (hpast : wend < j + pageLen (actBS s) gs) :
    readHeader (plainIn s) (actBS s) (actPS s) wend j = .error (corrupt 1 wend) := by
  obtain ⟨hin, hvalid, hcount, hgroups⟩ := hpage
  have hall := readGroups_append hgroups 0
  rw [Nat.add_zero, hcount] at hall
  rw [readHeader_of_groups hin rfl hvalid (hall.trans (congrArg Except.ok (List.append_nil gs)))]
  exact if_pos hpast

/-! ### HDR_PARSE's unit (R230) -/

section
variable {s : State} {run : Run}

theorem parseUnit_of_header_error {r : Raise}
    (hheader : readHeader (inRd s) (actBS s) (actPS s) (run.icur + s.regs.inLen.toNat) run.icur = .error r) :
    parseUnit s run = .error r := by
  simp only [parseUnit, hheader]

section
variable {p : Header}
  (hheader : readHeader (inRd s) (actBS s) (actPS s) (run.icur + s.regs.inLen.toNat) run.icur = .ok p)
include hheader

theorem parseUnit_noSpace (hfull : s.regs.outBound.toNat < run.ocur + (3 + 3 * p.groups.length)) :
    parseUnit s run = .error (noSpace (run.ocur + (3 + 3 * p.groups.length))) := by
  simp only [parseUnit, hheader, metaTable_length, if_pos hfull]

theorem parseUnit_eq_ok (hfits : run.ocur + (3 + 3 * p.groups.length) ≤ s.regs.outBound.toNat) : parseUnit s run =
    .ok { words := metaTable (actBS s) p, used := p.hlen, rd := p.hlen, exc := 0, units := 1, groups := p.groups } := by
  simp only [parseUnit, hheader, metaTable_length, if_neg (not_lt.2 hfits)]

end

/-- R260: HDR_PARSE about to run reads the header as memory holds it. -/
theorem readHeader_of_ready (hready : Ready s (parsePlan s)) (ps : Nat) :
    readHeader (inRd s) (actBS s) ps (s.regs.inCur.toNat + s.regs.inLen.toNat) s.regs.inCur.toNat =
      readHeader (plainIn s) (actBS s) ps (s.regs.inCur.toNat + s.regs.inLen.toNat) s.regs.inCur.toNat :=
  same_of_calm_inRd (readHeader_same_or_failed (answers_inRd_plainIn hready.2.2.2) ..)
    fun _ hx => errs_in_of_ready (i := .hdrParse) rfl hready ⟨hx.1, hx.2.1⟩

/-- HDR_PARSE reports an error of its header. -/
theorem hdrParse_reports_header_error {r : Raise} (hready : Ready s (parsePlan s))
    (hheader : readHeader (plainIn s) (actBS s) (actPS s) (s.regs.inCur.toNat + s.regs.inLen.toNat) s.regs.inCur.toNat = .error r) :
    Reports s (exec .hdrParse s) r.kind r.detail r.index := by
  have hown := readHeader_error_corrupts (neverErrs_plainIn s) hheader
  exact reports_of_ready (i := .hdrParse) rfl hready rfl (Windows.within_refl _)
    (parseUnit_of_header_error ((readHeader_of_ready hready _).trans hheader)) hown.not_bus hown.clean

end

/-! ### The metadata table (R126) -/

theorem getElem?_flatMap_three {α β : Type} {f : α → List β} (hf : ∀ a, (f a).length = 3) (l : List α) (i : Nat) {k : Nat}
    (hk : k < 3) : (l.flatMap f)[3 * i + k]? = l[i]?.bind fun a => (f a)[k]? := by
  induction l generalizing i with
  | nil => simp
  | cons a l ih =>
    rw [List.flatMap_cons]
    cases i with
    | zero => rw [List.getElem?_append_left (by rw [hf]; omega), Nat.mul_zero, Nat.zero_add]; rfl
    | succ i =>
      rw [List.getElem?_append_right (by rw [hf]; omega), hf, show 3 * (i + 1) + k - 3 = 3 * i + k by omega, ih]
      rfl

/-- R126: the entries of block `i`. -/
theorem metaTable_entries {bs i : Nat} {p : Header} {g : Group} (hg : p.groups[i]? = some g) :
    (metaTable bs p)[3 + 3 * i]? = some g.d ∧
      (metaTable bs p)[4 + 3 * i]? = some (BitVec.ofNat 32 (p.hlen + ((p.groups.take i).map (blen bs)).sum)) ∧
      (metaTable bs p)[5 + 3 * i]? = some (BitVec.ofNat 32 (blen bs g)) := by
  have hi : i < p.groups.length := (List.getElem?_eq_some_iff.1 hg).1
  have hblock : (p.groups.zip (p.offsets bs))[i]? = some (g, p.hlen + ((p.groups.take i).map (blen bs)).sum) :=
    List.getElem?_zip_eq_some.2 ⟨hg, bodyOffsets_getElem? bs p.hlen p.groups hi⟩
  have hentry (k : Nat) (hk : k < 3) : (metaTable bs p)[3 * i + k + 3]? =
      [g.d, BitVec.ofNat 32 (p.hlen + ((p.groups.take i).map (blen bs)).sum), BitVec.ofNat 32 (blen bs g)][k]? := by
    rw [metaTable, List.getElem?_cons_succ, List.getElem?_cons_succ, List.getElem?_cons_succ,
      getElem?_flatMap_three (fun _ => rfl) _ i hk, hblock]
    rfl
  refine ⟨?_, ?_, ?_⟩
  · rw [Nat.add_comm]
    exact hentry 0 (by decide)
  · rw [show 4 + 3 * i = 3 * i + 1 + 3 by omega]
    exact hentry 1 (by decide)
  · rw [show 5 + 3 * i = 3 * i + 2 + 3 by omega]
    exact hentry 2 (by decide)

/-- Settles O39: the header is read as memory holds it, and the table's entries are those of its blocks (`metaTable_entries`). -/
theorem hdrParseWritesTheTable : Obligations.HdrParseWritesTheTable := by
  intro s p hm hready j hheader hfits blen' hlen
  have hread := (readHeader_of_ready hready _).trans hheader
  obtain ⟨t, hexec, hdone⟩ :=
    completed_of_ready (i := .hdrParse) rfl nofun hm hready (parseUnit_eq_ok (run := issueRun s) hread hfits)
  obtain ⟨-, hword, -⟩ := readHeader_eq_ok_iff.1 hheader
  exact ⟨t, metaTable (actBS s) p, hexec, hdone, metaTable_length _ p, congrArg some (Except.ok.inj hword).symm, rfl, rfl,
    fun i g hg => metaTable_entries hg⟩

/-! ### DECODE's header (R223, R260) -/

section
variable {s : State} {run : Run}

theorem decodeUnitWindows_inWin_of_error {r : Raise} (hquiet : quietHeader s run = .error r) :
    (decodeUnitWindows s run).inWin =
      wordRange s.regs.inBase.toNat run.icur (run.icur0 + s.regs.inLen.toNat - run.icur) := by
  simp only [decodeUnitWindows, hquiet]

theorem decodeUnitWindows_inWin_of_ok {p : Header} (hquiet : quietHeader s run = .ok p) :
    (decodeUnitWindows s run).inWin = wordRange s.regs.inBase.toNat run.icur (p.plen (actBS s)) := by
  simp only [decodeUnitWindows, hquiet]

/-- R260: in windows that touch no erroring address the header is read as memory holds it. -/
theorem readHeader_of_undisturbed (hcalm : Undisturbed s (decodeUnitWindows s run)) :
    readHeader (inRd s) (actBS s) (actPS s) (run.icur0 + s.regs.inLen.toNat) run.icur =
      readHeader (plainIn s) (actBS s) (actPS s) (run.icur0 + s.regs.inLen.toNat) run.icur := by
  have hquiet : readHeader (inRd s) (actBS s) (actPS s) (run.icur0 + s.regs.inLen.toNat) run.icur = quietHeader s run := by
    refine same_of_calm_inRd (readHeader_same_or_failed (answers_inRd_quietIn s) ..) fun x ⟨hlo, hwin, hwords⟩ => ?_
    cases hheader : quietHeader s run with
    | error r => exact errs_of_calm_inWin hcalm.1 (decodeUnitWindows_inWin_of_error hheader) (by omega)
    | ok p =>
      have hlt := hwords p hheader
      have hlen := hlen_le_plen (actBS s) p
      exact errs_of_calm_inWin hcalm.1 (decodeUnitWindows_inWin_of_ok hheader) (by omega)
  obtain hsame | ⟨x, r, ⟨hlo, hwin, -⟩, hread, hout⟩ :=
    readHeader_same_or_failed (answers_inRd_plainIn hcalm.2) (actBS s) (actPS s) (run.icur0 + s.regs.inLen.toNat) run.icur
  · exact hsame
  · have hcorrupt := decodeUnitWindows_inWin_of_error (hquiet.symm.trans hout)
    have hnone := errs_of_calm_inWin (x := x) hcalm.1 hcorrupt (by omega)
    exact absurd (hnone.symm.trans (error_of_memRead hread).1) Bool.false_ne_true

theorem decodeUnit_of_header_error {r : Raise}
    (hheader : readHeader (inRd s) (actBS s) (actPS s) (run.icur0 + s.regs.inLen.toNat) run.icur = .error r) :
    decodeUnit s run = .error r := by
  simp only [decodeUnit, hheader]

/-- DECODE reports an error of its next page's header. -/
theorem decode_reports_header_error {r : Raise} (hstart : started s (decodePlan s) = .ok run)
    (hcalm : Undisturbed s (decodeUnitWindows s run)) (hmore : run.icur < run.icur0 + s.regs.inLen.toNat)
    (hheader : readHeader (plainIn s) (actBS s) (actPS s) (run.icur0 + s.regs.inLen.toNat) run.icur = .error r) :
    Reports s (exec .decode s) r.kind r.detail r.index := by
  have hown := readHeader_error_corrupts (neverErrs_plainIn s) hheader
  exact reports_of_unit_error (i := .decode) rfl hstart (decide_eq_true hmore) hcalm.1
    (decodeUnit_of_header_error ((readHeader_of_undisturbed hcalm).trans hheader)) hown.not_bus hown.clean

/-- R84: at issue a page's own windows are part of DECODE's. -/
theorem decodeUnitWindows_within_baseWindows (hfresh : s.scratch.run = none) :
    (decodeUnitWindows s (issueRun s)).Within (baseWindows s) := by
  have hrun : currentRun s = issueRun s := by simp [currentRun, hfresh]
  rw [baseWindows, hrun]
  refine ⟨?_, wordRange_within le_rfl (Nat.add_le_add_left (outputExtent_le _) _), AddrRange.within_refl _⟩
  cases hquiet : quietHeader s (issueRun s) with
  | error r =>
    rw [decodeUnitWindows_inWin_of_error hquiet]
    exact wordRange_within le_rfl (by simp only [issueRun]; omega)
  | ok p =>
    obtain ⟨-, -, -, -, hfit⟩ := readHeader_eq_ok_iff.1 hquiet
    rw [decodeUnitWindows_inWin_of_ok hquiet]
    exact wordRange_within le_rfl hfit

/-- HDR_PARSE and DECODE about to run on a nonempty window report an error of the header. -/
theorem both_report_header_error {r : Raise} (hready : Ready s (basePlan s)) (hsome : 0 < s.regs.inLen.toNat)
    (hheader : readHeader (plainIn s) (actBS s) (actPS s) (s.regs.inCur.toNat + s.regs.inLen.toNat) s.regs.inCur.toNat = .error r) :
    Reports s (exec .hdrParse s) r.kind r.detail r.index ∧ Reports s (exec .decode s) r.kind r.detail r.index := by
  refine ⟨hdrParse_reports_header_error hready hheader, ?_⟩
  obtain ⟨hfresh, hpass, hcalm⟩ := hready
  exact decode_reports_header_error (started_of_prologue hfresh hpass)
    ⟨touchesBusErr_mono (decodeUnitWindows_within_baseWindows hfresh) hcalm.1, hcalm.2⟩ (by simp only [issueRun]; omega) hheader

end

/-- Settles O32: each is the first failing check of `readHeader`. -/
theorem corruptHeadersAreReported : Obligations.CorruptHeadersAreReported := by
  intro s hready j h d
  refine ⟨fun hzero => ?empty, fun hsome hbad => ?badH0, fun hone hvalid => ?noGroup, fun htwo hvalid hbad => ?badD⟩
  case empty =>
    have hlen : s.regs.inLen.toNat = 0 := by rw [hzero]; rfl
    have hend : readHeader (plainIn s) (actBS s) (actPS s) (j + s.regs.inLen.toNat) j = .error (corrupt 1 j) := by
      rw [hlen]
      exact readHeader_past_window le_rfl
    exact hdrParse_reports_header_error hready hend
  case badH0 =>
    exact both_report_header_error hready hsome (r := corrupt 2 j) (readHeader_invalid (by omega) rfl hbad)
  case noGroup =>
    have hlen : s.regs.inLen.toNat = 1 := by rw [hone]; rfl
    have hend : readHeader (plainIn s) (actBS s) (actPS s) (j + s.regs.inLen.toNat) j = .error (corrupt 1 (j + 1)) := by
      rw [hlen]
      exact readHeader_of_first_group_error (by omega) rfl hvalid (readGroup_past_window le_rfl)
    exact both_report_header_error hready (by omega) hend
  case badD =>
    exact both_report_header_error hready (by omega) (r := corrupt 3 (j + 1))
      (readHeader_of_first_group_error (by omega) rfl hvalid (readGroup_invalid (by omega) rfl hbad))

end Sys2Proof.Machine
end

section
/-! DECODE's page (R223, R236): its blocks one by one, what it commits, and the stream errors of EXC_PATCH, HDR_PARSE and DECODE. -/

namespace Sys2Proof.Machine

/-! ### The blocks of a page (R223) -/

section
variable {rd : Nat → Except Raise Word} {p : Platform} {bs : Nat} {dirty : Nat × Nat} {i o : Nat}

theorem decodeBlocks_cons {ga : Group × Nat} {x : List Word} (hblock : decodeBlock rd bs ga.2 ga.1 = .ok x)
    (hcalm : ∀ k < bs, p.errs (o + 4 * k) = false) (gas : List (Group × Nat)) :
    decodeBlocks rd p bs dirty i o (ga :: gas) = (decodeBlocks rd p bs dirty (i + 1) (o + 4 * bs) gas).map (x ++ ·) := by
  obtain ⟨g, a⟩ := ga
  simp only [decodeBlocks, hblock, writeFault_none hcalm]
  cases decodeBlocks rd p bs dirty (i + 1) (o + 4 * bs) gas <;> rfl

/-- Blocks that all decode, written at no erroring address. -/
theorem decodeBlocks_eq_ok {gas : List (Group × Nat)} {xs : List (List Word)}
    (hblocks : List.Forall₂ (fun ga x => decodeBlock rd bs ga.2 ga.1 = .ok x) gas xs)
    (hcalm : ∀ k < gas.length * bs, p.errs (o + 4 * k) = false) : decodeBlocks rd p bs dirty i o gas = .ok xs.flatten := by
  induction hblocks generalizing i o with
  | nil => rfl
  | cons hblock _ ih =>
    rw [List.length_cons, Nat.succ_mul] at hcalm
    rw [decodeBlocks_cons hblock fun k hk => hcalm k (by omega), ih fun k hk => ?_]
    · rfl
    · have := hcalm (bs + k) (by omega)
      rwa [show o + 4 * (bs + k) = o + 4 * bs + 4 * k by omega] at this

/-- Behind blocks that decode, an error of the rest is the page's. -/
theorem decodeBlocks_append_error {gas rest : List (Group × Nat)} {r : Raise}
    (hblocks : ∀ ga ∈ gas, ∃ x, decodeBlock rd bs ga.2 ga.1 = .ok x)
    (hcalm : ∀ k < gas.length * bs, p.errs (o + 4 * k) = false)
    (hrest : decodeBlocks rd p bs dirty (i + gas.length) (o + 4 * (gas.length * bs)) rest = .error r) :
    decodeBlocks rd p bs dirty i o (gas ++ rest) = .error r := by
  induction gas generalizing i o with
  | nil => simpa using hrest
  | cons ga gas ih =>
    obtain ⟨⟨x, hx⟩, hblocks⟩ := List.forall_mem_cons.1 hblocks
    rw [List.length_cons, Nat.succ_mul gas.length] at hcalm hrest
    rw [List.cons_append, decodeBlocks_cons hx fun k hk => hcalm k (by omega), ih hblocks ?_ ?_]
    · rfl
    · intro k hk
      have := hcalm (bs + k) (by omega)
      rwa [show o + 4 * (bs + k) = o + 4 * bs + 4 * k by omega] at this
    · rwa [show i + 1 + gas.length = i + (gas.length + 1) by omega,
        show o + 4 * bs + 4 * (gas.length * bs) = o + 4 * (gas.length * bs + bs) by omega]

theorem decodeBlocks_of_block_error {ga : Group × Nat} {r : Raise} (hblock : decodeBlock rd bs ga.2 ga.1 = .error r)
    (gas : List (Group × Nat)) :
    decodeBlocks rd p bs dirty i o (ga :: gas) = .error { r with dirty := if i = 0 then none else some dirty } := by
  obtain ⟨g, a⟩ := ga
  simp only [decodeBlocks, hblock]

end

theorem Header.bodies_getElem?_iff {bs j i : Nat} {p : Header} {ga : Group × Nat} :
    (p.bodies bs j)[i]? = some ga ↔ ∃ o, p.groups[i]? = some ga.1 ∧ (p.offsets bs)[i]? = some o ∧ ga.2 = j + o := by
  rw [Header.bodies, List.getElem?_zip_eq_some, List.getElem?_map, Option.map_eq_some_iff]
  exact ⟨fun ⟨hg, o, ho, ha⟩ => ⟨o, hg, ho, ha.symm⟩, fun ⟨o, hg, ho, ha⟩ => ⟨hg, o, ho, ha.symm⟩⟩

/-! ### DECODE's unit (R223) -/

section
variable {s : State} {run : Run} {p : Header}
  (hheader : readHeader (inRd s) (actBS s) (actPS s) (run.icur0 + s.regs.inLen.toNat) run.icur = .ok p)
include hheader

theorem decodeUnit_noSpace (hfull : s.regs.outBound.toNat < run.ocur + p.groups.length * actBS s) :
    decodeUnit s run = .error (noSpace (run.ocur + p.groups.length * actBS s)) := by
  simp only [decodeUnit, hheader, if_pos hfull]

variable (hfits : run.ocur + p.groups.length * actBS s ≤ s.regs.outBound.toNat)
include hfits

theorem decodeUnit_of_blocks_error {r : Raise} (hblocks : decodeBlocks (inRd s) s.plat (actBS s)
      (run.ocur, p.groups.length * actBS s) 0 (outAddr s run.ocur) (p.bodies (actBS s) run.icur) = .error r) :
    decodeUnit s run = .error r := by
  rw [Header.bodies] at hblocks
  simp only [decodeUnit, hheader, if_neg (not_lt.2 hfits), hblocks]

theorem decodeUnit_eq_ok {xs : List Word} (hblocks : decodeBlocks (inRd s) s.plat (actBS s)
      (run.ocur, p.groups.length * actBS s) 0 (outAddr s run.ocur) (p.bodies (actBS s) run.icur) = .ok xs) :
    decodeUnit s run =
      .ok { words := xs, used := p.plen (actBS s), rd := p.plen (actBS s),
            exc := (p.groups.map fun g => groupExceptions g.buckets).sum, units := 1, groups := p.groups } := by
  rw [Header.bodies] at hblocks
  simp only [decodeUnit, hheader, if_neg (not_lt.2 hfits), hblocks]

end

/-! ### A page that nothing disturbs (R260) -/

section
variable {s : State} {run : Run} {p : Header} (hcalm : Undisturbed s (decodeUnitWindows s run))
  (hheader : readHeader (inRd s) (actBS s) (actPS s) (run.icur0 + s.regs.inLen.toNat) run.icur = .ok p)
include hcalm hheader

theorem decodeBlock_of_undisturbed {ga : Group × Nat} (hga : ga ∈ p.bodies (actBS s) run.icur) :
    decodeBlock (inRd s) (actBS s) ga.2 ga.1 = decodeBlock (plainIn s) (actBS s) ga.2 ga.1 := by
  obtain ⟨hlo, hhi⟩ := Header.bodies_bounds hga
  exact same_of_calm_inRd (decodeBlock_same_or_failed (answers_inRd_plainIn hcalm.2) ..) fun x hx =>
    errs_of_calm_inWin hcalm.1 (decodeUnitWindows_inWin_of_ok (quietHeader_of_readHeader hheader)) (by omega)

theorem errs_out_of_undisturbed (hfits : run.ocur + p.groups.length * actBS s ≤ s.regs.outBound.toNat) {k : Nat}
    (hk : k < p.groups.length * actBS s) : s.plat.errs (outAddr s run.ocur + 4 * k) = false := by
  have hwin := decodeWindow_out s run
  rw [decodeRange_of_readHeader hheader hfits] at hwin
  have hnone := errs_of_calm_outWin (x := run.ocur + k) hcalm.1 hwin (by omega)
  rwa [outAddr, Nat.mul_add, ← Nat.add_assoc] at hnone

end

/-- Settles O41: the header and the blocks are read as memory holds them, and the page's values are committed. -/
theorem decodeWritesItsNextPage : Obligations.DecodeWritesItsNextPage := by
  intro s run p blks hinv hbusy hdec hstart hcalm bs wend hmore hplain hfits hcount hdecodes
  have hheader := (readHeader_of_undisturbed hcalm).trans hplain
  have hlen := p.bodies_length bs run.icur
  have hblocks : List.Forall₂ (fun ga x => decodeBlock (inRd s) bs ga.2 ga.1 = .ok x) (p.bodies bs run.icur) blks := by
    refine List.forall₂_iff_get.2 ⟨hlen.trans hcount.symm, fun i hi hi' => ?_⟩
    rw [decodeBlock_of_undisturbed hcalm hheader (List.get_mem _ _)]
    obtain ⟨o, hg, ho, ha⟩ := Header.bodies_getElem?_iff.1 (List.getElem?_eq_getElem hi)
    rw [List.get_eq_getElem, List.get_eq_getElem, ha]
    exact hdecodes i _ o _ hg ho (List.getElem?_eq_getElem hi')
  have hall := decodeBlocks_eq_ok (p := s.plat) (dirty := (run.ocur, p.groups.length * bs)) (i := 0) (o := outAddr s run.ocur) hblocks
    fun k hk => errs_out_of_undisturbed hcalm hheader hfits (hlen ▸ hk)
  obtain ⟨t, hexec, ht⟩ := pageCommitted_of_unit (i := .decode) rfl hinv.memory hcalm hstart (decide_eq_true hmore)
    (win_of_started hinv hdec rfl hstart) (decodeUnit_eq_ok hheader hfits hall)
  have hwords : blks.flatten.length = p.groups.length * bs := (decodeBlocks_length hall).trans (congrArg (· * bs) hlen)
  exact ⟨t, _, hexec, rfl, rfl, rfl, hwords, rfl, ht⟩

/-! ### The stream errors (R188, R189, R221) -/

/-- R259: an error of the unit after its first write, outside the range it names. -/
theorem reportsDirty_of_unit_error {i : Instr} {s : State} {p : Plan} {u : Units} {run : Run} {r : Raise} {o n : Nat}
    (hm : s.mem.wf) (hcmd : commandOf i s = some (p, u)) (hstart : started s p = .ok run) (hmore : u.more run = true)
    (hcalm : touchesBusErr s (u.win run) = false) (hunit : u.unit run = .error r) (hkind : r.kind ≠ .busError)
    (hdirty : r.dirty = none ∨ r.dirty = some (o, n)) : ReportsDirty s (exec i s) r.kind r.detail r.index o n := by
  rw [exec_eq_abortUnit hcmd hstart hmore hcalm hunit]
  refine ⟨_, rfl, fun a ha => ?_, abortUnit_plat .., abortUnit_host .., abortUnit_reply .., abortUnit_held .., abortUnit_regs ..⟩
  obtain ⟨m, habort, rfl | ⟨lo, k, rfl, hrange⟩⟩ := abortUnit_eq u run r s
  · rw [habort]
    rfl
  · rw [if_neg hkind] at hrange
    obtain ⟨rfl, rfl⟩ : lo = o ∧ k = n := by simpa [hrange] using hdirty
    rw [habort]
    exact byte_scramble_other hm ha

/-- R189, R223: a block that does not decode behind blocks that do. -/
theorem decodeUnit_of_block_error {s : State} {run : Run} {p : Header} {i : Nat} {ga : Group × Nat} {r : Raise}
    (hheader : readHeader (inRd s) (actBS s) (actPS s) (run.icur0 + s.regs.inLen.toNat) run.icur = .ok p)
    (hfits : run.ocur + p.groups.length * actBS s ≤ s.regs.outBound.toNat)
    (hcalm : ∀ k < i * actBS s, s.plat.errs (outAddr s run.ocur + 4 * k) = false)
    (hbefore : ∀ j < i, ∀ ga, (p.bodies (actBS s) run.icur)[j]? = some ga → ∃ x, decodeBlock (inRd s) (actBS s) ga.2 ga.1 = .ok x)
    (hga : (p.bodies (actBS s) run.icur)[i]? = some ga) (hblock : decodeBlock (inRd s) (actBS s) ga.2 ga.1 = .error r) :
    decodeUnit s run =
      .error { r with dirty := if i = 0 then none else some (run.ocur, p.groups.length * actBS s) } := by
  obtain ⟨hi, rfl⟩ := List.getElem?_eq_some_iff.1 hga
  have hlen : ((p.bodies (actBS s) run.icur).take i).length = i := List.length_take_of_le hi.le
  refine decodeUnit_of_blocks_error hheader hfits ?_
  rw [← List.take_append_drop i (p.bodies (actBS s) run.icur), List.drop_eq_getElem_cons hi]
  refine decodeBlocks_append_error (fun ga hga' => ?_) (by rwa [hlen]) ?_
  · obtain ⟨j, hj, rfl⟩ := List.mem_take_iff_getElem.1 hga'
    exact hbefore j (by omega) _ (List.getElem?_eq_getElem (by omega))
  · rw [hlen, Nat.zero_add]
    exact decodeBlocks_of_block_error hblock _

theorem excPatch_reports {s : State} {r : Raise} (hready : Ready s (patchPlan s))
    (hunit : patchUnit s (issueRun s) = .error r) (hkind : r.kind ≠ .busError) (hclean : r.dirty = none) :
    Reports s (exec .excPatch s) r.kind r.detail r.index :=
  reports_of_ready (i := .excPatch) rfl hready rfl (Windows.within_refl _) hunit hkind hclean

/-- Settles O42: the procedures read what memory holds, so their error is the unit's; a page past the window is the header's
(`readHeader_of_pageAt`), and a later block's error leaves the page's output range (`decodeUnit_of_block_error`). -/
theorem streamErrorsEndTheCommand : Obligations.StreamErrorsEndTheCommand := by
  refine ⟨?patch, ?parse, ?parsePage, ?decodePage, ?decode⟩
  case patch =>
    intro s hready n j wend hfits
    refine ⟨fun r hgroup => ?_, fun g hgroup => ?_⟩
    · have hown := readGroup_error_corrupts (neverErrs_plainIn s) hgroup
      exact excPatch_reports hready (patchUnit_of_group_error hfits ((readGroup_of_ready hready).trans hgroup)) hown.not_bus
        hown.clean
    intro x0
    have hread := (readGroup_of_ready hready).trans hgroup
    have hx0 : x0 = j + groupLen g := Nat.add_assoc ..
    refine ⟨fun hpast => ?_, fun hin r hpatch => ?_⟩
    · exact excPatch_reports (r := corrupt 1 wend) hready (patchUnit_pastWindow (run := issueRun s) hfits hread (hx0 ▸ hpast))
        nofun rfl
    · have hown := patch_error_corrupts (neverErrs_plainIn s) hpatch
      rw [hx0] at hin hpatch
      exact excPatch_reports hready (patchUnit_of_patch_error (run := issueRun s) hfits hread hin (readTargets_of_ready hready)
        ((patch_of_ready hready hin n _).trans hpatch)) hown.not_bus hown.clean
  case parse =>
    intro s hready j read
    refine ⟨fun r => hdrParse_reports_header_error hready, fun p hheader => ?_⟩
    intro bound hfull
    have hread := (readHeader_of_ready hready _).trans hheader
    exact reports_of_ready (r := noSpace bound) (i := .hdrParse) rfl hready rfl (Windows.within_refl _)
      (parseUnit_noSpace (run := issueRun s) hread hfull) nofun rfl
  case parsePage =>
    intro s gs hready j wend hpage hpast
    exact hdrParse_reports_header_error hready (readHeader_of_pageAt hpage hpast)
  case decodePage =>
    intro s run gs hinv hbusy hdec hstart hcalm wend hpage hpast
    exact decode_reports_header_error hstart hcalm hpage.1 (readHeader_of_pageAt hpage hpast)
  case decode =>
    intro s run hinv hbusy hdec hstart hcalm hmore read
    refine ⟨fun r => decode_reports_header_error hstart hcalm hmore, fun p hplain => ?_⟩
    intro bound
    have hheader := (readHeader_of_undisturbed hcalm).trans hplain
    refine ⟨fun hfull => ?_, fun hfits i g o r hbefore hg ho hblock => ?_⟩
    · exact reports_of_unit_error (r := noSpace bound) (i := .decode) rfl hstart (decide_eq_true hmore) hcalm.1
        (decodeUnit_noSpace hheader hfull) nofun rfl
    have hown := decodeBlock_error_corrupts (neverErrs_plainIn s) hblock
    have hga : (p.bodies (actBS s) run.icur)[i]? = some (g, run.icur + o) := Header.bodies_getElem?_iff.2 ⟨o, hg, ho, rfl⟩
    have hi : i < p.groups.length := (List.getElem?_eq_some_iff.1 hg).1
    have hplainBlock {ga : Group × Nat} (hmem : ga ∈ p.bodies (actBS s) run.icur) :=
      decodeBlock_of_undisturbed hcalm hheader hmem
    have hunit := decodeUnit_of_block_error hheader hfits
      (fun k hk => errs_out_of_undisturbed hcalm hheader hfits (hk.trans_le (Nat.mul_le_mul_right _ hi.le)))
      (fun j hj ga hga' => by
        obtain ⟨o', hg', ho', ha⟩ := Header.bodies_getElem?_iff.1 hga'
        rw [hplainBlock (List.mem_of_getElem? hga'), ha]
        exact hbefore j ga.1 o' hj hg' ho')
      hga ((hplainBlock (List.mem_of_getElem? hga)).trans hblock)
    have hkind : r.kind = .corruptStream ∧ r.detail = 5 := by
      obtain ⟨d, hd, x, rfl⟩ := hown
      exact ⟨rfl, List.mem_singleton.1 hd⟩
    have hdirty := reportsDirty_of_unit_error (i := .decode) (o := run.ocur) (n := p.groups.length * actBS s) hinv.memory rfl hstart
      (decide_eq_true hmore) hcalm.1 hunit hown.not_bus (ite_eq_or_eq ..)
    refine ⟨hkind.1, hkind.2, fun hzero => ?_, hdirty⟩
    have hreports := reports_of_unit_error (i := .decode) rfl hstart (decide_eq_true hmore) hcalm.1 hunit hown.not_bus
    exact hreports (if_pos hzero)

end Sys2Proof.Machine
end

section
/-! ENCODE's page (R232): what it reads, writes and refuses. -/

namespace Sys2Proof.Machine

/-! ### The page's operands (R210, R232) -/

section
variable {rd : Nat → Except Raise Word} {k n : Nat} {r : Raise}

theorem readWidths_cons {w : Word} (hread : rd k = .ok w) (hvalid : validBW w = true) (n : Nat) :
    readWidths rd k (n + 1) = (readWidths rd (k + 1) n).map (field w 0 6 :: ·) := by
  simp only [readWidths, hread, hvalid, Bool.not_true, Bool.false_eq_true, if_false]
  cases readWidths rd (k + 1) n <;> rfl

/-- R232: valid entries are read. -/
theorem readWidths_of_valid (hvalid : ∀ i < n, ∃ w, rd (k + i) = .ok w ∧ validBW w = true) :
    ∃ ws, readWidths rd k n = .ok ws := by
  induction n generalizing k with
  | zero => exact ⟨[], rfl⟩
  | succ n ih =>
    obtain ⟨w, hread, hw⟩ := hvalid 0 (Nat.succ_pos n)
    obtain ⟨ws, hws⟩ := ih (k := k + 1) fun i hi => by
      have := hvalid (i + 1) (Nat.succ_lt_succ hi)
      rwa [show k + (i + 1) = k + 1 + i by omega] at this
    exact ⟨field w 0 6 :: ws, by rw [readWidths_cons (k := k) hread hw, hws]; rfl⟩

/-- R232: behind valid entries, an error of the rest is the table's. -/
theorem readWidths_append_error {m : Nat} (hvalid : ∀ i < m, ∃ w, rd (k + i) = .ok w ∧ validBW w = true)
    (hrest : readWidths rd (k + m) n = .error r) : readWidths rd k (m + n) = .error r := by
  induction m generalizing k with
  | zero => simpa using hrest
  | succ m ih =>
    obtain ⟨w, hread, hw⟩ := hvalid 0 (Nat.succ_pos m)
    have herr := ih (k := k + 1) (fun i hi => by
      have := hvalid (i + 1) (Nat.succ_lt_succ hi)
      rwa [show k + (i + 1) = k + 1 + i by omega] at this) (by rwa [show k + 1 + m = k + (m + 1) by omega])
    rw [Nat.add_right_comm, readWidths_cons (k := k) hread hw, herr]
    rfl

theorem readWidths_of_read_error (hn : 0 < n) (hread : rd k = .error r) : readWidths rd k n = .error r := by
  obtain ⟨n, rfl⟩ := Nat.exists_eq_succ_of_ne_zero hn.ne'
  simp only [readWidths, hread]

theorem readWidths_of_invalid {w : Word} (hn : 0 < n) (hread : rd k = .ok w) (hbad : validBW w = false) :
    readWidths rd k n = .error { kind := .invalidInput, detail := 4, index := k } := by
  obtain ⟨n, rfl⟩ := Nat.exists_eq_succ_of_ne_zero hn.ne'
  simp [readWidths, hread, hbad]

/-- R125: the widths read are the fields of the entries. -/
theorem eq_fields_of_readWidths {f : Nat → Word} (hf : ∀ x w, rd x = .ok w → w = f x) {ws : List Nat}
    (hok : readWidths rd k n = .ok ws) : ws = (List.range n).map fun i => field (f (k + i)) 0 6 := by
  induction n generalizing k ws with
  | zero => exact (Except.ok.inj hok).symm
  | succ n ih =>
    simp only [readWidths] at hok
    split at hok
    case h_1 => cases hok
    case h_2 w hw =>
      split at hok
      case isTrue => cases hok
      case isFalse =>
        split at hok
        case h_1 => cases hok
        case h_2 ws' hws =>
          rw [← Except.ok.inj hok, ih hws, hf k w hw, List.range_succ_eq_map, List.map_cons, List.map_map]
          refine congrArg _ (List.map_congr_left fun i _ => ?_)
          rw [Function.comp_apply, Nat.succ_eq_add_one, show k + 1 + i = k + (i + 1) by omega]

end

/-- R232: the blocks of ENCODE's next page with their widths, as memory holds them. -/
def pageOperands (s : State) (run : Run) : List (List Word × Nat) :=
  (blocksOf (actBS s) (pageCount s run) (inWords s run.icur (pageCount s run * actBS s))).zip
    ((tableWords s run.k (pageCount s run)).map fun w => field w 0 6)

theorem tableWords_getD {s : State} {k n i : Nat} (hi : i < n) :
    (tableWords s k n).getD i 0#32 = s.mem.word (s.regs.bwBase.toNat + 4 * (k + i)) := by
  rw [tableWords, wordsAt_eq_range, List.getD_eq_getElem _ _ (by simpa using hi), List.getElem_map, List.getElem_range]

section
variable {s : State} {run : Run}

/-- Where every access of a page answers and the host has kept its duty, the page read is the one memory holds. -/
theorem eq_pageOperands_of_readPage {blks : List (List Word × Nat)} (hduty : dutyBroken s = false)
    (hok : readPage (bwRd s) (inRd s) s run = .ok blks) : blks = pageOperands s run := by
  simp only [readPage] at hok
  split at hok
  case h_1 => cases hok
  case h_2 ws hws =>
    split at hok
    case h_1 => cases hok
    case h_2 vals hvals =>
      have hfields := eq_fields_of_readWidths (f := fun x => s.mem.word (s.regs.bwBase.toNat + 4 * x))
        (fun x w hread => eq_word_of_memRead hduty hread) hws
      rw [← Except.ok.inj hok, eq_inWords_of_readRun hduty hvals, hfields, pageOperands, tableWords, wordsAt_eq_range, List.map_map]
      rfl

theorem readPage_of_widths_error {r : Raise} (hwidths : readWidths (bwRd s) run.k (pageCount s run) = .error r) :
    readPage (bwRd s) (inRd s) s run = .error r := by
  simp only [readPage, hwidths]

theorem readPage_of_values_error {r : Raise} {ws : List Nat} (hwidths : readWidths (bwRd s) run.k (pageCount s run) = .ok ws)
    (hvals : readRun (inRd s) run.icur (pageCount s run * actBS s) = .error r) :
    readPage (bwRd s) (inRd s) s run = .error r := by
  simp only [readPage, hwidths, hvals]

theorem readPage_of_reads {ws : List Nat} {vals : List Word} (hwidths : readWidths (bwRd s) run.k (pageCount s run) = .ok ws)
    (hvals : readRun (inRd s) run.icur (pageCount s run * actBS s) = .ok vals) :
    readPage (bwRd s) (inRd s) s run = .ok ((blocksOf (actBS s) (pageCount s run) vals).zip ws) := by
  simp only [readPage, hwidths, hvals]

theorem encodeUnit_of_page_error {r : Raise} (hpage : readPage (bwRd s) (inRd s) s run = .error r) :
    encodeUnit s run = .error r := by
  simp only [encodeUnit, hpage]

section
variable {blks : List (List Word × Nat)} (hpage : readPage (bwRd s) (inRd s) s run = .ok blks)
include hpage

theorem encodeUnit_noSpace (hfull : s.regs.outBound.toNat < run.ocur + (encPage (actBS s) blks).length) :
    encodeUnit s run = .error (noSpace (run.ocur + (encPage (actBS s) blks).length)) := by
  simp only [encodeUnit, hpage, if_pos hfull]

/-- R232: what a page leaves when it fits, its exceptions counted. -/
theorem encodeUnit_eq_ok (hduty : dutyBroken s = false)
    (hfits : run.ocur + (encPage (actBS s) blks).length ≤ s.regs.outBound.toNat) :
    ∃ d, encodeUnit s run = .ok d ∧ d.words = encPage (actBS s) blks ∧ d.used = pageCount s run * actBS s ∧
      d.rd = pageCount s run * actBS s + pageCount s run ∧ d.units = pageCount s run ∧
      d.exc = (blks.map fun x => countAbove x.2 x.1).sum := by
  obtain ⟨-, hlegal, -⟩ := readPage_ok hduty hpage
  have hunit : ∃ d, encodeUnit s run = .ok d ∧ d.words = encPage (actBS s) blks ∧ d.used = pageCount s run * actBS s ∧
      d.rd = pageCount s run * actBS s + pageCount s run ∧ d.units = pageCount s run ∧
      d.exc = ((blks.map fun x => buckets x.1 x.2).map exceptionCount).sum := by
    simp only [encodeUnit, hpage, if_neg (not_lt.2 hfits)]
    exact ⟨_, rfl, rfl, rfl, rfl, rfl, rfl⟩
  have hexc : (blks.map fun x => buckets x.1 x.2).map exceptionCount = blks.map fun x => countAbove x.2 x.1 := by
    rw [List.map_map]
    exact List.map_congr_left fun x hx => exceptionCount_buckets x.1 (hlegal x hx).2
  rwa [hexc] at hunit

end

section
variable (hcalm : Undisturbed s (encodeUnitWindows s run))
include hcalm

theorem bwRd_of_undisturbed {i : Nat} (hi : i < pageCount s run) :
    bwRd s (run.k + i) = .ok (s.mem.word (s.regs.bwBase.toNat + 4 * (run.k + i))) :=
  memRead_calm hcalm.2 (errs_of_calm_tabWin hcalm.1 rfl (by omega))

/-- R232: in windows that touch no erroring address a page with valid entries is read as memory holds it. -/
theorem readPage_of_undisturbed
    (hvalid : ∀ i < pageCount s run, validBW (s.mem.word (s.regs.bwBase.toNat + 4 * (run.k + i))) = true) :
    readPage (bwRd s) (inRd s) s run = .ok (pageOperands s run) := by
  obtain ⟨ws, hws⟩ := readWidths_of_valid fun i hi => ⟨_, bwRd_of_undisturbed hcalm hi, hvalid i hi⟩
  have hvals := readRun_inRd_of_calm hcalm.2 fun x hx => errs_of_calm_inWin (w := encodeUnitWindows s run) hcalm.1 rfl hx
  have hpage := readPage_of_reads hws hvals
  rwa [← eq_pageOperands_of_readPage hcalm.2 hpage]

end

end

/-- Settles O40: the page is read as memory holds it (`readPage_of_undisturbed`), and its unit commits it. -/
theorem encodeWritesItsNextPage : Obligations.EncodeWritesItsNextPage := by
  intro s run hinv hbusy hdec hstart hcalm bs nb n blks page hmore hvalid hfits
  have hpage := readPage_of_undisturbed hcalm fun i hi => by
    have hlt : i < (tableWords s run.k (pageCount s run)).length := hi.trans_eq (wordsAt_length ..).symm
    rw [← tableWords_getD hi, List.getD_eq_getElem _ _ hlt]
    exact hvalid _ (List.getElem_mem hlt)
  obtain ⟨d, hunit, hwords, hused, hrd, hunits, hexc⟩ := encodeUnit_eq_ok hpage hcalm.2 hfits
  obtain ⟨t, hexec, ht⟩ := pageCommitted_of_unit (i := .encode) rfl hinv.memory hcalm hstart (decide_eq_true hmore)
    (win_of_started hinv hdec rfl hstart) hunit
  exact ⟨t, d, hexec, hwords, hused, hrd, hunits, hexc, ht⟩

/-- Settles O43: the first invalid entry is where the table's reading ends (`readWidths_append_error`), and the page's room is checked
behind it. -/
theorem encodeRefusesBadEntriesAndFullOutput : Obligations.EncodeRefusesBadEntriesAndFullOutput := by
  intro s run hinv hbusy hdec hstart hcalm bs nb n entry page hmore
  have hentry : ∀ i < n, entry i = s.mem.word (s.regs.bwBase.toNat + 4 * (run.k + i)) := fun i hi => tableWords_getD hi
  refine ⟨fun j hj hbefore hbad => ?badEntry, fun hvalid hfull => ?full⟩
  case badEntry =>
    have hwidths : readWidths (bwRd s) run.k (j + (n - j)) = .error { kind := .invalidInput, detail := 4, index := run.k + j } := by
      refine readWidths_append_error (fun i hi => ?_) (readWidths_of_invalid (by omega) (bwRd_of_undisturbed hcalm hj) ?_)
      · exact ⟨_, bwRd_of_undisturbed hcalm (hi.trans hj), hentry i (hi.trans hj) ▸ hbefore i hi⟩
      · exact hentry j hj ▸ hbad
    rw [Nat.add_sub_cancel' hj.le] at hwidths
    exact reports_of_unit_error (i := .encode) rfl hstart (decide_eq_true hmore) hcalm.1
      (encodeUnit_of_page_error (readPage_of_widths_error hwidths)) nofun rfl
  case full =>
    have hpage := readPage_of_undisturbed hcalm fun i hi => hentry i hi ▸ hvalid i hi
    exact reports_of_unit_error (r := noSpace (run.ocur + page.length)) (i := .encode) rfl hstart (decide_eq_true hmore) hcalm.1
      (encodeUnit_noSpace hpage hfull) nofun rfl

/-! ### ENCODE is a function of its operands (R240) -/

/-- A move of ENCODE without an error, with a page left, commits the page of its operands. -/
theorem encode_commits_operands {s t : State} {run : Run} (hinv : Inv s) (hdec : decode s.regs.cmd = .ok .encode)
    (hstart : started s (encodePlan s) = .ok run) (hduty : dutyBroken s = false) (hmore : run.k < blockCount s)
    (hexec : exec .encode s = .next t) (hok : t.regs.status.err = false) :
    t.regs.outCur.toNat = run.ocur + (encPage (actBS s) (pageOperands s run)).length ∧
      t.regs.inCur.toNat = run.icur + pageCount s run * actBS s ∧
      outWords t run.ocur (encPage (actBS s) (pageOperands s run)).length = encPage (actBS s) (pageOperands s run) := by
  obtain rfl : turn (encodePlan s) (encodeUnits s) s = t := Host.Outcome.next.inj hexec
  obtain ⟨r, hstart', -⟩ | ⟨run', hstart', hnone, -⟩ | ⟨run', r, -, -, hturn, -⟩ | ⟨run', d, hstart', -, -, hunit, -, hturn⟩ :=
    turn_cases (encodePlan s) (encodeUnits s) s
  · cases hstart.symm.trans hstart'
  · obtain rfl := Except.ok.inj (hstart.symm.trans hstart')
    exact absurd (hnone.symm.trans (decide_eq_true hmore)) Bool.false_ne_true
  · rw [hturn, abortUnit_regs] at hok
    cases hok
  obtain rfl := Except.ok.inj (hstart.symm.trans hstart')
  obtain ⟨hin, hout⟩ := (atUnit_of_started hinv hdec hstart).cursors_commitUnit (unit_ok (i := .encode) rfl hunit)
  have hwritten := (committed_commitUnit hinv.memory hduty run d).written
  obtain ⟨hwords, hused⟩ : d.words = encPage (actBS s) (pageOperands s run) ∧ d.used = pageCount s run * actBS s := by
    cases hpage : readPage (bwRd s) (inRd s) s run with
    | error r => cases hunit.symm.trans (encodeUnit_of_page_error hpage)
    | ok blks =>
      obtain rfl := eq_pageOperands_of_readPage hduty hpage
      by_cases hfits : run.ocur + (encPage (actBS s) (pageOperands s run)).length ≤ s.regs.outBound.toNat
      · obtain ⟨d', hunit', hwords, hused, -⟩ := encodeUnit_eq_ok hpage hduty hfits
        obtain rfl := Except.ok.inj (hunit.symm.trans hunit')
        exact ⟨hwords, hused⟩
      · cases hunit.symm.trans (encodeUnit_noSpace hpage (not_le.1 hfits))
  rw [hwords] at hout hwritten
  rw [hused] at hin
  rw [hturn]
  split <;> exact ⟨hout, hin, hwritten⟩

/-- Settles O58: both moves commit the page of their operands (`encode_commits_operands`), which are the same. -/
theorem encodeDependsOnItsOperandsOnly : Obligations.EncodeDependsOnItsOperandsOnly := by
  intro s t s' t' run run' hinv hbusy hdec hstart hcalm hinv' hbusy' hdec' hstart' hcalm' hbs hps hk hmore hblocks n hin htable
    hexec hok hexec' hok'
  have hcount : blockCount s' = blockCount s := by rw [blockCount, hbs, hblocks, blockCount]
  have hpages : pageCount s' run' = pageCount s run := by simp only [pageCount, pageBlocks, hcount, hbs, hps, hk]
  have hsame : pageOperands s' run' = pageOperands s run := by
    have hin' : inWords s' run'.icur (pageCount s run * actBS s) = inWords s run.icur (pageCount s run * actBS s) := hin
    have htable' : tableWords s' run.k (pageCount s run) = tableWords s run.k (pageCount s run) := htable
    simp only [pageOperands, hpages, hbs, hk, hin', htable']
  obtain ⟨hout, hcur, hwritten⟩ := encode_commits_operands hinv hdec hstart hcalm.2 hmore hexec hok
  obtain ⟨hout', hcur', hwritten'⟩ := encode_commits_operands hinv' hdec' hstart' hcalm'.2 (by rwa [hcount, hk]) hexec' hok'
  rw [hsame, hbs] at hout' hwritten'
  rw [hpages, hbs] at hcur'
  exact ⟨_, hout, hout', hcur, hcur', hwritten'.trans hwritten.symm⟩

end Sys2Proof.Machine
end

section
/-! A read or a write at an erroring address (R10, R260): each procedure that comes to it ends with a BusError. -/

namespace Sys2Proof.Machine

/-! ### BusErrors -/

/-- `r` is a BusError at an erroring address (R250 code 7). -/
def IsBusError (s : State) (r : Raise) : Prop := r.kind = .busError ∧ (r.detail = 1 ∨ r.detail = 2) ∧ s.plat.errs r.index = true

/-- `out` is a BusError at an erroring address. -/
def BusFails {α : Type} (s : State) (out : Except Raise α) : Prop := ∃ r, out = .error r ∧ IsBusError s r

section
variable {s : State} {α : Type} {r : Raise}

theorem isBusError_busRaise {a : Nat} (side : Config.BusSide) (herrs : s.plat.errs a = true) : IsBusError s (busRaise side a) := by
  cases side
  · exact ⟨rfl, .inl rfl, herrs⟩
  · exact ⟨rfl, .inr rfl, herrs⟩

theorem memRead_of_errs {a : Nat} (herrs : s.plat.errs a = true) : memRead s a = .error (busRaise .read a) := by
  simp [memRead, herrs]

theorem isBusError_of_memRead {a : Nat} (hread : memRead s a = .error r) : IsBusError s r := by
  obtain ⟨herrs, rfl⟩ := error_of_memRead hread
  exact isBusError_busRaise .read herrs

theorem isBusError_of_writeFault {a n : Nat} (hfault : writeFault s.plat a n = some r) : IsBusError s r := by
  obtain ⟨k, -, herrs, rfl⟩ := writeFault_some hfault
  exact isBusError_busRaise .write herrs

theorem errs_of_writeFault_none {p : Platform} {a n : Nat} (hnone : writeFault p a n = none) : ∀ k < n, p.errs (a + 4 * k) = false := by
  induction n generalizing a with
  | zero => nofun
  | succ n ih =>
    rw [writeFault] at hnone
    split at hnone
    case isTrue => cases hnone
    case isFalse hfirst =>
      rintro (_ | k) hk
      · exact Bool.eq_false_iff.2 hfirst
      · have := ih hnone k (Nat.lt_of_succ_lt_succ hk)
        rwa [show a + 4 + 4 * k = a + 4 * (k + 1) by omega] at this

theorem writeFault_of_errs {a n k : Nat} (hk : k < n) (herrs : s.plat.errs (a + 4 * k) = true) :
    ∃ r, writeFault s.plat a n = some r ∧ IsBusError s r := by
  cases hfault : writeFault s.plat a n with
  | none => exact absurd ((errs_of_writeFault_none hfault k hk).symm.trans herrs) Bool.false_ne_true
  | some r => exact ⟨r, rfl, isBusError_of_writeFault hfault⟩

/-- The same outcome as another reader's, or a BusError. -/
theorem same_or_busFails {rd : Nat → Except Raise Word} {P : Nat → Prop} {out out' : Except Raise α}
    (hbus : ∀ x r, rd x = .error r → IsBusError s r) (h : out = out' ∨ FailedRead rd P out) : out = out' ∨ BusFails s out := by
  refine h.imp_right ?_
  rintro ⟨x, r, -, hread, hout⟩
  exact ⟨r, hout, hbus x r hread⟩

theorem bus_inRd (x : Nat) (r : Raise) : inRd s x = .error r → IsBusError s r := isBusError_of_memRead
theorem bus_outRd (x : Nat) (r : Raise) : outRd s x = .error r → IsBusError s r := isBusError_of_memRead
theorem bus_bwRd (x : Nat) (r : Raise) : bwRd s x = .error r → IsBusError s r := isBusError_of_memRead

theorem readRun_plainOut (s : State) (i n : Nat) : readRun (plainOut s) i n = .ok (outWords s i n) := by
  rw [outWords, outAddr, wordsAt_eq_range]
  exact readRun_ok (f := fun x => s.mem.word (outAddr s x)) fun _ _ => rfl

/-! ### Runs of reads -/

section
variable {rd : Nat → Except Raise Word} (hbus : ∀ x r, rd x = .error r → IsBusError s r)
include hbus

theorem readRun_busFails {i n k : Nat} (hk : k < n) (hread : rd (i + k) = .error r) : BusFails s (readRun rd i n) := by
  induction n generalizing i k with
  | zero => cases hk
  | succ n ih =>
    cases hfirst : rd i with
    | error r' => exact ⟨r', by simp only [readRun, hfirst], hbus i r' hfirst⟩
    | ok w =>
      cases k with
      | zero => cases hfirst.symm.trans hread
      | succ k =>
        obtain ⟨r', hrest, hr'⟩ := ih (i := i + 1) (Nat.lt_of_succ_lt_succ hk) (by rwa [show i + 1 + k = i + (k + 1) by omega])
        exact ⟨r', by simp only [readRun, hfirst, hrest], hr'⟩

theorem readRun_ok_or_busFails (i n : Nat) : (∃ ws, readRun rd i n = .ok ws) ∨ BusFails s (readRun rd i n) := by
  induction n generalizing i with
  | zero => exact .inl ⟨[], rfl⟩
  | succ n ih =>
    cases hfirst : rd i with
    | error r' => exact .inr ⟨r', by simp only [readRun, hfirst], hbus i r' hfirst⟩
    | ok w =>
      obtain ⟨ws, hws⟩ | ⟨r', hrest, hr'⟩ := ih (i + 1)
      · exact .inl ⟨w :: ws, by simp only [readRun, hfirst, hws]⟩
      · exact .inr ⟨r', by simp only [readRun, hfirst, hrest], hr'⟩

end

theorem readRun_inRd_busFails {i n k : Nat} (hk : k < n) (herrs : s.plat.errs (inAddr s (i + k)) = true) :
    BusFails s (readRun (inRd s) i n) :=
  readRun_busFails bus_inRd hk (memRead_of_errs herrs)

/-! ### Patching (R189) -/

/-- The runs of the buckets up to the first that does not patch are read. -/
theorem patch_busFails (hduty : dutyBroken s = false) {n b pw q m k : Nat} {ks : List BucketInfo} {x x' : List Word}
    (hplain : patch (plainIn s) n b pw q (ks.take m) x = .ok x') (hk : k < xlen pw (ks.take (m + 1)))
    (herrs : s.plat.errs (inAddr s (q + k)) = true) : BusFails s (patch (inRd s) n b pw q ks x) := by
  induction ks generalizing q m k x with
  | nil => cases hk
  | cons t ts ih =>
    have hlen : xlen pw ((t :: ts).take (m + 1)) = packedLen t.c pw + packedLen t.c t.e + xlen pw (ts.take m) := rfl
    rw [hlen] at hk
    obtain hdeltas | ⟨r, hdeltas, hr⟩ :=
      same_or_busFails bus_inRd (readRun_same_or_failed (answers_inRd_plainIn hduty) q (packedLen t.c pw))
    case inr => exact ⟨r, by simp only [patch, hdeltas], hr⟩
    obtain hhigh | ⟨r, hhigh, hr⟩ := same_or_busFails bus_inRd
      (readRun_same_or_failed (answers_inRd_plainIn hduty) (q + packedLen t.c pw) (packedLen t.c t.e))
    case inr => exact ⟨r, by simp only [patch, hdeltas, readRun_plainIn, hhigh], hr⟩
    by_cases hin : k < packedLen t.c pw + packedLen t.c t.e
    · have hboth : BusFails s (readRun (inRd s) q (packedLen t.c pw)) ∨
          BusFails s (readRun (inRd s) (q + packedLen t.c pw) (packedLen t.c t.e)) := by
        by_cases hfirst : k < packedLen t.c pw
        · exact .inl (readRun_inRd_busFails hfirst herrs)
        · exact .inr (readRun_inRd_busFails (k := k - packedLen t.c pw) (by omega)
            (by rwa [show q + packedLen t.c pw + (k - packedLen t.c pw) = q + k by omega]))
      obtain ⟨r, herr, -⟩ | ⟨r, herr, -⟩ := hboth
      · cases herr.symm.trans (hdeltas.trans (readRun_plainIn ..))
      · cases herr.symm.trans (hhigh.trans (readRun_plainIn ..))
    · cases m with
      | zero =>
        rw [List.take_zero] at hk
        exact absurd hk hin
      | succ m =>
        simp only [List.take_succ_cons, patch, readRun_plainIn] at hplain
        split at hplain
        case h_1 => cases hplain
        case h_2 x1 hbucket =>
          have hrest := ih (k := k - (packedLen t.c pw + packedLen t.c t.e)) hplain (by omega)
            (by rwa [show q + packedLen t.c pw + packedLen t.c t.e + (k - (packedLen t.c pw + packedLen t.c t.e)) = q + k by omega])
          simpa only [patch, hdeltas, hhigh, readRun_plainIn, hbucket] using hrest

/-- R223: the main run and the runs of the buckets up to the first that does not patch are read. -/
theorem decodeBlock_busFails (hduty : dutyBroken s = false) {bs a m k : Nat} {g : Group} {x : List Word}
    (hplain : decodeBlock (plainIn s) bs a { g with buckets := g.buckets.take m } = .ok x)
    (hk : k < bs * g.b / 32 + xlen bs.log2 (g.buckets.take (m + 1))) (herrs : s.plat.errs (inAddr s (a + k)) = true) :
    BusFails s (decodeBlock (inRd s) bs a g) := by
  by_cases hmain : k < bs * g.b / 32
  · obtain ⟨r, hread, hr⟩ := readRun_inRd_busFails hmain herrs
    exact ⟨r, by simp only [decodeBlock, hread], hr⟩
  · obtain hread | ⟨r, hread, hr⟩ :=
      same_or_busFails bus_inRd (readRun_same_or_failed (answers_inRd_plainIn hduty) a (bs * g.b / 32))
    · simp only [decodeBlock, readRun_plainIn] at hplain
      have hpatch := patch_busFails (k := k - bs * g.b / 32) hduty hplain (by omega)
        (by rwa [show a + bs * g.b / 32 + (k - bs * g.b / 32) = a + k by omega])
      simpa only [decodeBlock, hread, readRun_plainIn] using hpatch
    · exact ⟨r, by simp only [decodeBlock, hread], hr⟩

/-! ### Descriptor groups and headers (R188, R221) -/

section
variable (hduty : dutyBroken s = false)
include hduty

/-- A word read is the word of memory, or the read is a BusError. -/
theorem inRd_word_or_busError (x : Nat) :
    inRd s x = .ok (s.mem.word (inAddr s x)) ∨ ∃ r, inRd s x = .error r ∧ IsBusError s r := by
  cases hread : inRd s x with
  | ok w => exact .inl (congrArg _ (eq_word_of_memRead hduty hread))
  | error r => exact .inr ⟨r, rfl, bus_inRd x r hread⟩

theorem readBuckets_busFails {bs wend b j nb m : Nat} (hm : m < nb) (hin : j + m < wend)
    (hvalid : ∀ t < m, validB bs (s.mem.word (inAddr s (j + t))) b = true) (herrs : s.plat.errs (inAddr s (j + m)) = true) :
    BusFails s (readBuckets (inRd s) bs wend b j nb) := by
  induction m generalizing j nb with
  | zero =>
    obtain ⟨nb, rfl⟩ := Nat.exists_eq_succ_of_ne_zero hm.ne'
    rw [Nat.add_zero] at hin herrs
    have hread : inRd s j = .error (busRaise .read (inAddr s j)) := memRead_of_errs herrs
    exact ⟨_, by simp only [readBuckets, if_neg (not_le.2 hin), hread], isBusError_busRaise .read herrs⟩
  | succ m ih =>
    obtain ⟨nb, rfl⟩ := Nat.exists_eq_succ_of_ne_zero (Nat.zero_lt_of_lt hm).ne'
    have hend : ¬wend ≤ j := by omega
    obtain hread | ⟨r, hread, hr⟩ := inRd_word_or_busError hduty j
    · obtain ⟨r, hrest, hr⟩ := ih (j := j + 1) (Nat.lt_of_succ_lt_succ hm) (by omega)
        (fun t ht => by
          have := hvalid (t + 1) (Nat.succ_lt_succ ht)
          rwa [show j + (t + 1) = j + 1 + t by omega] at this)
        (by rwa [show j + 1 + m = j + (m + 1) by omega])
      have hfirst : validB bs (s.mem.word (inAddr s j)) b = true := hvalid 0 (Nat.succ_pos m)
      exact ⟨r, by simp [readBuckets, hend, hread, hfirst, hrest], hr⟩
    · exact ⟨r, by simp [readBuckets, hend, hread], hr⟩

/-- R188: the words of a group up to the first invalid one are read. -/
theorem readGroup_busFails {wend j k : Nat} (hreach : GroupReaches s wend j k) (herrs : s.plat.errs (inAddr s (j + k)) = true) :
    BusFails s (readGroup (inRd s) (actBS s) wend j) := by
  obtain ⟨hin, hwords⟩ := hreach
  have hend : ¬wend ≤ j := by omega
  obtain hread | ⟨r, hread, hr⟩ := inRd_word_or_busError hduty j
  case inr => exact ⟨r, by simp only [readGroup, if_neg hend, hread], hr⟩
  cases k with
  | zero => cases hread.symm.trans (memRead_of_errs herrs)
  | succ k =>
    obtain ⟨hvalidD, hcount, hvalidB⟩ := hwords (Nat.succ_ne_zero k)
    obtain ⟨r, hbuckets, hr⟩ := readBuckets_busFails (wend := wend) (j := j + 1) (m := k) hduty hcount (by omega)
      (fun t ht => by
        have := hvalidB (t + 1) (by omega) (by omega)
        rwa [show j + (t + 1) = j + 1 + t by omega] at this)
      (by rwa [show j + 1 + k = j + (k + 1) by omega])
    exact ⟨r, by rw [readGroup_valid (not_le.1 hend) hread hvalidD, hbuckets]; rfl, hr⟩

/-- R221: behind groups that parse, the words of the next one up to the first invalid one are read. -/
theorem readGroups_busFails {wend j n k : Nat} {gs : List Group} (hgs : GroupsAt s wend j gs) (hmore : gs.length < n)
    (hreach : GroupReaches s wend (j + (gs.map groupLen).sum) k)
    (herrs : s.plat.errs (inAddr s (j + (gs.map groupLen).sum + k)) = true) :
    BusFails s (readGroups (inRd s) (actBS s) wend j n) := by
  induction gs generalizing j n with
  | nil =>
    obtain ⟨r, hgroup, hr⟩ := readGroup_busFails hduty hreach herrs
    exact ⟨r, readGroups_of_first_error hmore hgroup, hr⟩
  | cons g gs ih =>
    obtain ⟨n, rfl⟩ := Nat.exists_eq_succ_of_ne_zero (Nat.zero_lt_of_lt hmore).ne'
    rw [List.map_cons, List.sum_cons, ← Nat.add_assoc] at hreach herrs
    have hplain : readGroup (plainIn s) (actBS s) wend j = .ok g := hgs 0 g rfl
    obtain hgroup | ⟨r, hgroup, hr⟩ :=
      same_or_busFails bus_inRd (readGroup_same_or_failed (answers_inRd_plainIn hduty) (actBS s) wend j)
    · obtain ⟨r, hrest, hr⟩ := ih (j := j + groupLen g)
        (fun i g' hg' => by
          have := hgs (i + 1) g' hg'
          rwa [List.take_succ_cons, List.map_cons, List.sum_cons, ← Nat.add_assoc] at this)
        (Nat.lt_of_succ_lt_succ hmore) hreach herrs
      exact ⟨r, by simp only [readGroups, hgroup, hplain, hrest], hr⟩
    · exact ⟨r, by simp only [readGroups, hgroup], hr⟩

theorem readHeader_busFails {ps wend j k : Nat} {gs : List Group} (hin : j < wend)
    (hvalid : validH0 (actBS s) ps (s.mem.word (inAddr s j)) = true) (hgs : GroupsAt s wend (j + 1) gs)
    (hmore : gs.length < field (s.mem.word (inAddr s j)) 8 24) (hreach : GroupReaches s wend (j + 1 + (gs.map groupLen).sum) k)
    (herrs : s.plat.errs (inAddr s (j + 1 + (gs.map groupLen).sum + k)) = true) :
    BusFails s (readHeader (inRd s) (actBS s) ps wend j) := by
  obtain hread | ⟨r, hread, hr⟩ := inRd_word_or_busError hduty j
  · obtain ⟨r, hgroups, hr⟩ := readGroups_busFails hduty hgs hmore hreach herrs
    exact ⟨r, readHeader_of_groups_error hin hread hvalid hgroups, hr⟩
  · exact ⟨r, readHeader_of_read_error hin hread, hr⟩

/-- R221: the header of a page inside its window is read, or one of its reads is a BusError. -/
theorem readHeader_ok_or_busFails {ps wend j : Nat} {gs : List Group} (hin : j < wend)
    (hvalid : validH0 (actBS s) ps (s.mem.word (inAddr s j)) = true) (hgs : GroupsAt s wend (j + 1) gs)
    (hcount : gs.length = field (s.mem.word (inAddr s j)) 8 24)
    (hfit : j + 1 + (gs.map groupLen).sum + (gs.map (blen (actBS s))).sum ≤ wend) :
    readHeader (inRd s) (actBS s) ps wend j = .ok ⟨s.mem.word (inAddr s j), gs⟩ ∨
      BusFails s (readHeader (inRd s) (actBS s) ps wend j) := by
  have hgroups := readGroups_append hgs 0
  rw [Nat.add_zero, hcount] at hgroups
  have hplen : j + Header.plen (actBS s) ⟨s.mem.word (inAddr s j), gs⟩ ≤ wend := by
    simp only [Header.plen, Header.hlen]
    omega
  have hplain : readHeader (plainIn s) (actBS s) ps wend j = .ok ⟨s.mem.word (inAddr s j), gs⟩ := by
    rw [readHeader_of_groups hin rfl hvalid (hgroups.trans (congrArg Except.ok (List.append_nil gs)))]
    exact if_neg (not_lt.2 hplen)
  rw [← hplain]
  exact same_or_busFails bus_inRd (readHeader_same_or_failed (answers_inRd_plainIn hduty) (actBS s) ps wend j)

end

theorem readHeader_busFails_of_first {bs ps wend j : Nat} (hin : j < wend) (herrs : s.plat.errs (inAddr s j) = true) :
    BusFails s (readHeader (inRd s) bs ps wend j) :=
  ⟨_, readHeader_of_read_error hin (memRead_of_errs herrs), isBusError_busRaise .read herrs⟩

/-! ### The blocks of a page (R223) -/

section
variable {bs i o : Nat} {dirty : Nat × Nat}

theorem decodeBlocks_busFails_of_block {ga : Group × Nat} (hblock : BusFails s (decodeBlock (inRd s) bs ga.2 ga.1))
    (gas : List (Group × Nat)) : BusFails s (decodeBlocks (inRd s) s.plat bs dirty i o (ga :: gas)) := by
  obtain ⟨r, hblock, hkind, hdetail, herrs⟩ := hblock
  exact ⟨_, decodeBlocks_of_block_error hblock gas, hkind, hdetail, herrs⟩

theorem decodeBlocks_busFails_of_write {ga : Group × Nat} {x : List Word} (hblock : decodeBlock (inRd s) bs ga.2 ga.1 = .ok x)
    (hfault : writeFault s.plat o bs = some r) (gas : List (Group × Nat)) :
    BusFails s (decodeBlocks (inRd s) s.plat bs dirty i o (ga :: gas)) := by
  obtain ⟨g, a⟩ := ga
  exact ⟨r, by simp only [decodeBlocks, hblock, hfault], isBusError_of_writeFault hfault⟩

/-- Behind blocks that decode as memory holds them, a BusError of the rest is the page's, unless there was one before. -/
theorem decodeBlocks_append_busFails (hduty : dutyBroken s = false) {gas rest : List (Group × Nat)}
    (hblocks : ∀ ga ∈ gas, ∃ x, decodeBlock (plainIn s) bs ga.2 ga.1 = .ok x)
    (hrest : BusFails s (decodeBlocks (inRd s) s.plat bs dirty (i + gas.length) (o + 4 * (gas.length * bs)) rest)) :
    BusFails s (decodeBlocks (inRd s) s.plat bs dirty i o (gas ++ rest)) := by
  induction gas generalizing i o with
  | nil => simpa using hrest
  | cons ga gas ih =>
    obtain ⟨⟨x, hplain⟩, hblocks⟩ := List.forall_mem_cons.1 hblocks
    obtain hblock | hblock :=
      same_or_busFails bus_inRd (decodeBlock_same_or_failed (answers_inRd_plainIn hduty) bs ga.2 ga.1)
    case inr => exact decodeBlocks_busFails_of_block hblock _
    cases hfault : writeFault s.plat o bs with
    | some r => exact decodeBlocks_busFails_of_write (hblock.trans hplain) hfault _
    | none =>
      rw [List.length_cons, Nat.succ_mul gas.length, show i + (gas.length + 1) = i + 1 + gas.length by omega,
        show o + 4 * (gas.length * bs + bs) = o + 4 * bs + 4 * (gas.length * bs) by omega] at hrest
      obtain ⟨r, hrest, hr⟩ := ih hblocks hrest
      rw [List.cons_append, decodeBlocks_cons (hblock.trans hplain) (errs_of_writeFault_none hfault), hrest]
      exact ⟨r, rfl, hr⟩

end

end

end Sys2Proof.Machine
end

section
/-! Bus errors are reported (R10, R260): a command whose unit accesses an erroring word ends with a BusError, by either outcome. -/

namespace Sys2Proof.Machine

/-! ### The command's end -/

section
variable {i : Instr} {s : State} {p : Plan} {u : Units} {run : Run} {r : Raise}

theorem endsInBusError_abortUnit (hr : IsBusError s r) : EndsInBusError s (.next (abortUnit u run r s)) := by
  obtain ⟨hkind, hdetail, herrs⟩ := hr
  refine ⟨_, r.index, BitVec.ofNat 8 r.detail, rfl, herrs, ?_, abortUnit_plat .., abortUnit_host .., abortUnit_reply ..,
    abortUnit_held .., ?_⟩
  · exact hdetail.imp (fun h => by rw [h]) fun h => by rw [h]
  · rw [abortUnit_regs, ← hkind]
    rfl

/-- The unit's words, when it succeeds, reach an erroring address. -/
def WritesErr (s : State) (run : Run) (out : Except Raise UnitDone) : Prop :=
  ∃ d, out = .ok d ∧ ∃ k < d.words.length, s.plat.errs (outAddr s (run.ocur + k)) = true

/-- R260: by outcome (a) the unit's own access, by outcome (b) the one it picks ends the command. -/
theorem endsInBusError_of_unit (hcmd : commandOf i s = some (p, u)) (hstart : started s p = .ok run) (hmore : u.more run = true)
    (hunit : BusFails s (u.unit run) ∨ WritesErr s run (u.unit run)) : EndsInBusError s (exec i s) := by
  rw [exec_eq_turn hcmd]
  cases hbus : busOutcome s p.readsOut (u.win run) with
  | some r =>
    have hr : IsBusError s r := by
      obtain ⟨k, hk, rfl⟩ := busOutcome_some hbus
      simp only [admitsPick, Bool.and_eq_true] at hk
      exact isBusError_busRaise k.side hk.1.2
    have hturn : turn p u s = abortUnit u run r s := by simp [turn, hstart, hmore, hbus]
    exact hturn ▸ endsInBusError_abortUnit hr
  | none =>
    obtain ⟨r, hunit, hr⟩ | ⟨d, hunit, k, hk, herrs⟩ := hunit
    · have hturn : turn p u s = abortUnit u run r s := by simp [turn, hstart, hmore, hbus, hunit]
      exact hturn ▸ endsInBusError_abortUnit hr
    · rw [outAddr, Nat.mul_add, ← Nat.add_assoc] at herrs
      obtain ⟨r, hfault, hr⟩ := writeFault_of_errs (a := outAddr s run.ocur) hk herrs
      have hturn : turn p u s = abortUnit u run r s := by simp [turn, hstart, hmore, hbus, hunit, hfault]
      exact hturn ▸ endsInBusError_abortUnit hr

/-- The same for a command of one unit about to run. -/
theorem endsInBusError_of_fresh (hcmd : commandOf i s = some (p, u)) (hfresh : s.scratch.run = none) (hpass : prologue s p = none)
    (hmore : u.more (issueRun s) = true)
    (hunit : BusFails s (u.unit (issueRun s)) ∨ WritesErr s (issueRun s) (u.unit (issueRun s))) : EndsInBusError s (exec i s) :=
  endsInBusError_of_unit hcmd (started_of_prologue hfresh hpass) hmore hunit

end

/-! ### PACK, UNPACK, EXC_EXTRACT -/

section
variable {s : State} {run : Run} {b : Nat}

theorem packUnit_busFails (hfits : run.ocur + packedLen s.regs.inLen.toNat b ≤ s.regs.outBound.toNat)
    (hread : BusFails s (readRun (inRd s) run.icur s.regs.inLen.toNat)) : BusFails s (packUnit b s run) := by
  obtain ⟨r, hread, hr⟩ := hread
  exact ⟨r, by simp only [packUnit, if_neg (not_lt.2 hfits), hread], hr⟩

theorem unpackUnit_busFails (hin : packedLen s.regs.argCount.toNat b ≤ s.regs.inLen.toNat)
    (hfits : run.ocur + s.regs.argCount.toNat ≤ s.regs.outBound.toNat)
    (hread : BusFails s (readRun (inRd s) run.icur (packedLen s.regs.argCount.toNat b))) : BusFails s (unpackUnit b s run) := by
  obtain ⟨r, hread, hr⟩ := hread
  exact ⟨r, by simp only [unpackUnit, if_neg (not_lt.2 hin), if_neg (not_lt.2 hfits), hread], hr⟩

theorem extractUnit_busFails (hread : BusFails s (readRun (inRd s) run.icur s.regs.inLen.toNat)) :
    BusFails s (extractUnit b s run) := by
  obtain ⟨r, hread, hr⟩ := hread
  exact ⟨r, by simp only [extractUnit, hread], hr⟩

theorem parseUnit_busFails
    (hheader : BusFails s (readHeader (inRd s) (actBS s) (actPS s) (run.icur + s.regs.inLen.toNat) run.icur)) :
    BusFails s (parseUnit s run) := by
  obtain ⟨r, hheader, hr⟩ := hheader
  exact ⟨r, parseUnit_of_header_error hheader, hr⟩

theorem decodeUnit_busFails
    (hheader : BusFails s (readHeader (inRd s) (actBS s) (actPS s) (run.icur0 + s.regs.inLen.toNat) run.icur)) :
    BusFails s (decodeUnit s run) := by
  obtain ⟨r, hheader, hr⟩ := hheader
  exact ⟨r, decodeUnit_of_header_error hheader, hr⟩

end

section
variable {s : State} {b : BitVec 6} (hfresh : s.scratch.run = none)
include hfresh

theorem pack_endsInBusError (hpass : prologue s (packPlan s) = none)
    (hfits : s.regs.outCur.toNat + packedLen s.regs.inLen.toNat b.toNat ≤ s.regs.outBound.toNat)
    (herr : (∃ k, k < s.regs.inLen.toNat ∧ s.plat.errs (inAddr s (s.regs.inCur.toNat + k)) = true) ∨
      ∃ k, k < packedLen s.regs.inLen.toNat b.toNat ∧ s.plat.errs (outAddr s (s.regs.outCur.toNat + k)) = true) :
    EndsInBusError s (exec (.pack b) s) := by
  refine endsInBusError_of_fresh (i := .pack b) rfl hfresh hpass rfl ?_
  obtain ⟨vals, hread⟩ | hread := readRun_ok_or_busFails bus_inRd s.regs.inCur.toNat s.regs.inLen.toNat
  case inr => exact .inl (packUnit_busFails hfits hread)
  obtain ⟨k, hk, herrs⟩ | ⟨k, hk, herrs⟩ := herr
  · exact .inl (packUnit_busFails hfits (readRun_inRd_busFails hk herrs))
  · have hlen : (pack vals b.toNat).length = packedLen s.regs.inLen.toNat b.toNat := by rw [pack_length, readRun_length hread]
    exact .inr ⟨_, packUnit_eq_ok (run := issueRun s) hfits hread, k, hk.trans_eq hlen.symm, herrs⟩

theorem unpack_endsInBusError (hpass : prologue s (unpackPlan s) = none)
    (hin : packedLen s.regs.argCount.toNat b.toNat ≤ s.regs.inLen.toNat)
    (hfits : s.regs.outCur.toNat + s.regs.argCount.toNat ≤ s.regs.outBound.toNat)
    (herr : (∃ k, k < packedLen s.regs.argCount.toNat b.toNat ∧ s.plat.errs (inAddr s (s.regs.inCur.toNat + k)) = true) ∨
      ∃ k, k < s.regs.argCount.toNat ∧ s.plat.errs (outAddr s (s.regs.outCur.toNat + k)) = true) :
    EndsInBusError s (exec (.unpack b) s) := by
  refine endsInBusError_of_fresh (i := .unpack b) rfl hfresh hpass rfl ?_
  obtain ⟨words, hread⟩ | hread :=
    readRun_ok_or_busFails bus_inRd s.regs.inCur.toNat (packedLen s.regs.argCount.toNat b.toNat)
  case inr => exact .inl (unpackUnit_busFails hin hfits hread)
  obtain ⟨k, hk, herrs⟩ | ⟨k, hk, herrs⟩ := herr
  · exact .inl (unpackUnit_busFails hin hfits (readRun_inRd_busFails hk herrs))
  · exact .inr ⟨_, unpackUnit_eq_ok (run := issueRun s) hin hfits hread, k, hk.trans_eq (unpack_length ..).symm, herrs⟩

theorem excExtract_endsInBusError (hpass : prologue s (extractPlan s) = none)
    (herr : (∃ k, k < s.regs.inLen.toNat ∧ s.plat.errs (inAddr s (s.regs.inCur.toNat + k)) = true) ∨
      (dutyBroken s = false ∧
        s.regs.outCur.toNat + (record (posWidth s) (inWords s s.regs.inCur.toNat s.regs.inLen.toNat) b.toNat).length ≤
          s.regs.outBound.toNat ∧
        ∃ k, k < (record (posWidth s) (inWords s s.regs.inCur.toNat s.regs.inLen.toNat) b.toNat).length ∧
          s.plat.errs (outAddr s (s.regs.outCur.toNat + k)) = true)) :
    EndsInBusError s (exec (.excExtract b) s) := by
  refine endsInBusError_of_fresh (i := .excExtract b) rfl hfresh hpass rfl ?_
  obtain ⟨vals, hread⟩ | hread := readRun_ok_or_busFails bus_inRd s.regs.inCur.toNat s.regs.inLen.toNat
  case inr => exact .inl (extractUnit_busFails hread)
  obtain ⟨k, hk, herrs⟩ | ⟨hduty, hfits, k, hk, herrs⟩ := herr
  · exact .inl (extractUnit_busFails (readRun_inRd_busFails hk herrs))
  · obtain rfl := eq_inWords_of_readRun hduty hread
    exact .inr ⟨_, extractUnit_eq_ok (run := issueRun s) hread hfits, k, hk, herrs⟩

/-! ### EXC_PATCH -/

section
variable (hpass : prologue s (patchPlan s) = none) (hduty : dutyBroken s = false)
  (hfits : s.regs.outCur.toNat + s.regs.argCount.toNat ≤ s.regs.outBound.toNat)
include hpass hduty hfits

theorem excPatch_endsInBusError_of_group {k : Nat}
    (hreach : GroupReaches s (s.regs.inCur.toNat + s.regs.inLen.toNat) s.regs.inCur.toNat k)
    (herrs : s.plat.errs (inAddr s (s.regs.inCur.toNat + k)) = true) : EndsInBusError s (exec .excPatch s) := by
  obtain ⟨r, hgroup, hr⟩ := readGroup_busFails hduty hreach herrs
  exact endsInBusError_of_fresh (i := .excPatch) rfl hfresh hpass rfl
    (.inl ⟨r, patchUnit_of_group_error (run := issueRun s) hfits hgroup, hr⟩)

/-- Behind a group that parses EXC_PATCH reads its targets and then its runs. -/
theorem excPatch_endsInBusError_of_targets {g : Group}
    (hgroup : readGroup (plainIn s) (actBS s) (s.regs.inCur.toNat + s.regs.inLen.toNat) s.regs.inCur.toNat = .ok g)
    (hin : s.regs.inCur.toNat + groupLen g + xlen (posWidth s) g.buckets ≤ s.regs.inCur.toNat + s.regs.inLen.toNat)
    (hfails : BusFails s (readRun (outRd s) s.regs.outCur.toNat s.regs.argCount.toNat) ∨
      BusFails s (patch (inRd s) s.regs.argCount.toNat g.b (posWidth s) (s.regs.inCur.toNat + groupLen g) g.buckets
        (outWords s s.regs.outCur.toNat s.regs.argCount.toNat))) :
    EndsInBusError s (exec .excPatch s) := by
  refine endsInBusError_of_fresh (i := .excPatch) rfl hfresh hpass rfl (.inl ?_)
  obtain hread | ⟨r, hread, hr⟩ := same_or_busFails bus_inRd (readGroup_same_or_failed (answers_inRd_plainIn hduty) (actBS s)
    (s.regs.inCur.toNat + s.regs.inLen.toNat) s.regs.inCur.toNat)
  case inr => exact ⟨r, patchUnit_of_group_error (run := issueRun s) hfits hread, hr⟩
  have hparsed := hread.trans hgroup
  obtain htargets | ⟨r, htargets, hr⟩ := same_or_busFails bus_outRd
    (readRun_same_or_failed (answers_outRd_plainOut hduty) s.regs.outCur.toNat s.regs.argCount.toNat)
  case inr => exact ⟨r, patchUnit_of_outRd_error (run := issueRun s) hfits hparsed hin htargets, hr⟩
  rw [readRun_plainOut] at htargets
  obtain ⟨r, hread', -⟩ | ⟨r, hpatch, hr⟩ := hfails
  · cases hread'.symm.trans htargets
  · exact ⟨r, patchUnit_of_patch_error (run := issueRun s) hfits hparsed hin htargets hpatch, hr⟩

end

/-! ### HDR_PARSE -/

theorem hdrParse_endsInBusError (hpass : prologue s (parsePlan s) = none)
    (hunit : BusFails s (readHeader (inRd s) (actBS s) (actPS s) (s.regs.inCur.toNat + s.regs.inLen.toNat) s.regs.inCur.toNat) ∨
      ∃ p, readHeader (inRd s) (actBS s) (actPS s) (s.regs.inCur.toNat + s.regs.inLen.toNat) s.regs.inCur.toNat = .ok p ∧
        s.regs.outCur.toNat + (3 + 3 * p.groups.length) ≤ s.regs.outBound.toNat ∧
        ∃ k < 3 + 3 * p.groups.length, s.plat.errs (outAddr s (s.regs.outCur.toNat + k)) = true) :
    EndsInBusError s (exec .hdrParse s) := by
  refine endsInBusError_of_fresh (i := .hdrParse) rfl hfresh hpass rfl ?_
  obtain hheader | ⟨p, hheader, hfits, k, hk, herrs⟩ := hunit
  · exact .inl (parseUnit_busFails hheader)
  · exact .inr ⟨_, parseUnit_eq_ok (run := issueRun s) hheader hfits, k, hk.trans_eq (metaTable_length ..).symm, herrs⟩

end

/-! ### ENCODE -/

section
variable {s : State} {run : Run}

theorem encodeUnit_busFails (hpage : BusFails s (readPage (bwRd s) (inRd s) s run)) : BusFails s (encodeUnit s run) := by
  obtain ⟨r, hpage, hr⟩ := hpage
  exact ⟨r, encodeUnit_of_page_error hpage, hr⟩

/-- R232: the table's entries are read up to the first invalid one. -/
theorem readPage_busFails_of_entry {k : Nat} (hk : k < pageCount s run)
    (hvalid : ∀ j < k, ∃ w, bwRd s (run.k + j) = .ok w ∧ validBW w = true)
    (herrs : s.plat.errs (s.regs.bwBase.toNat + 4 * (run.k + k)) = true) : BusFails s (readPage (bwRd s) (inRd s) s run) := by
  have hread : bwRd s (run.k + k) = .error _ := memRead_of_errs herrs
  have hwidths := readWidths_append_error hvalid (readWidths_of_read_error (n := pageCount s run - k) (by omega) hread)
  rw [Nat.add_sub_cancel' hk.le] at hwidths
  exact ⟨_, readPage_of_widths_error hwidths, isBusError_busRaise .read herrs⟩

/-- R232: behind valid entries the page's values are read. -/
theorem readPage_busFails_of_value {k : Nat} (hvalid : ∀ j < pageCount s run, ∃ w, bwRd s (run.k + j) = .ok w ∧ validBW w = true)
    (hk : k < pageCount s run * actBS s) (herrs : s.plat.errs (inAddr s (run.icur + k)) = true) :
    BusFails s (readPage (bwRd s) (inRd s) s run) := by
  obtain ⟨ws, hwidths⟩ := readWidths_of_valid hvalid
  obtain ⟨r, hvals, hr⟩ := readRun_inRd_busFails hk herrs
  exact ⟨r, readPage_of_values_error hwidths hvals, hr⟩

/-- R232: a page with valid entries is read as memory holds it, or one of its reads is a BusError. -/
theorem readPage_ok_or_busFails (hduty : dutyBroken s = false)
    (hvalid : ∀ j < pageCount s run, validBW (s.mem.word (s.regs.bwBase.toNat + 4 * (run.k + j))) = true) :
    readPage (bwRd s) (inRd s) s run = .ok (pageOperands s run) ∨ BusFails s (readPage (bwRd s) (inRd s) s run) := by
  obtain ⟨ws, hplain⟩ := readWidths_of_valid (rd := plainBw s) fun j hj => ⟨_, rfl, hvalid j hj⟩
  obtain hwidths | ⟨r, hwidths, hr⟩ := same_or_busFails bus_bwRd
    (readWidths_same_or_failed (answers_bwRd_plainBw hduty) run.k (pageCount s run))
  case inr => exact .inr ⟨r, readPage_of_widths_error hwidths, hr⟩
  obtain ⟨vals, hvals⟩ | ⟨r, hvals, hr⟩ := readRun_ok_or_busFails bus_inRd run.icur (pageCount s run * actBS s)
  case inr => exact .inr ⟨r, readPage_of_values_error (hwidths.trans hplain) hvals, hr⟩
  have hpage := readPage_of_reads (hwidths.trans hplain) hvals
  exact .inl (eq_pageOperands_of_readPage hduty hpage ▸ hpage)

/-! ### DECODE -/

/-- A block's BusError, or one of its writes, behind blocks that decode as memory holds them. -/
theorem decodeUnit_busFails_of_block {p : Header} {i : Nat} {ga : Group × Nat} (hduty : dutyBroken s = false)
    (hheader : readHeader (inRd s) (actBS s) (actPS s) (run.icur0 + s.regs.inLen.toNat) run.icur = .ok p)
    (hfits : run.ocur + p.groups.length * actBS s ≤ s.regs.outBound.toNat)
    (hbefore : ∀ j < i, ∀ ga, (p.bodies (actBS s) run.icur)[j]? = some ga →
      ∃ x, decodeBlock (plainIn s) (actBS s) ga.2 ga.1 = .ok x)
    (hga : (p.bodies (actBS s) run.icur)[i]? = some ga)
    (hblock : BusFails s (decodeBlock (inRd s) (actBS s) ga.2 ga.1) ∨ ∃ x k, decodeBlock (plainIn s) (actBS s) ga.2 ga.1 = .ok x ∧
      k < actBS s ∧ s.plat.errs (outAddr s (run.ocur + i * actBS s + k)) = true) : BusFails s (decodeUnit s run) := by
  obtain ⟨hi, rfl⟩ := List.getElem?_eq_some_iff.1 hga
  have hlen : ((p.bodies (actBS s) run.icur).take i).length = i := List.length_take_of_le hi.le
  have hblocks : BusFails s (decodeBlocks (inRd s) s.plat (actBS s) (run.ocur, p.groups.length * actBS s) 0 (outAddr s run.ocur)
      (p.bodies (actBS s) run.icur)) := by
    rw [← List.take_append_drop i (p.bodies (actBS s) run.icur), List.drop_eq_getElem_cons hi]
    refine decodeBlocks_append_busFails hduty (fun ga hga' => ?_) ?_
    · obtain ⟨j, hj, rfl⟩ := List.mem_take_iff_getElem.1 hga'
      exact hbefore j (by omega) _ (List.getElem?_eq_getElem (by omega))
    rw [hlen]
    obtain hblock | ⟨x, k, hplain, hk, herrs⟩ := hblock
    · exact decodeBlocks_busFails_of_block hblock _
    obtain hread | hread := same_or_busFails bus_inRd (decodeBlock_same_or_failed (answers_inRd_plainIn hduty) (actBS s)
      (p.bodies (actBS s) run.icur)[i].2 (p.bodies (actBS s) run.icur)[i].1)
    · have haddr : outAddr s (run.ocur + i * actBS s + k) = outAddr s run.ocur + 4 * (i * actBS s) + 4 * k := by
        simp only [outAddr]
        omega
      obtain ⟨r, hfault, -⟩ := writeFault_of_errs hk (haddr ▸ herrs)
      exact decodeBlocks_busFails_of_write (hread.trans hplain) hfault _
    · exact decodeBlocks_busFails_of_block hread _
  obtain ⟨r, hblocks, hr⟩ := hblocks
  exact ⟨r, decodeUnit_of_blocks_error hheader hfits hblocks, hr⟩

/-- R222: block `i` of a page stands behind the header and the bodies before it. -/
theorem bodies_getElem?_of_groups {bs j i : Nat} {p : Header} {g : Group} (hg : p.groups[i]? = some g) :
    (p.bodies bs j)[i]? = some (g, j + 1 + (p.groups.map groupLen).sum + ((p.groups.take i).map (blen bs)).sum) := by
  refine Header.bodies_getElem?_iff.2
    ⟨_, hg, bodyOffsets_getElem? bs p.hlen p.groups (List.getElem?_eq_some_iff.1 hg).1, ?_⟩
  simp only [Header.hlen]
  omega

end

/-- Settles O29: the access that errs ends the procedure that makes it with a BusError (`patch_busFails`, `readHeader_busFails`,
`decodeBlocks_append_busFails` and the like), or the write of the unit's words does, and so the unit and its command. -/
theorem busErrorsAreReported : Obligations.BusErrorsAreReported := by
  refine ⟨fun b s => pack_endsInBusError, fun b s hfresh hpass => unpack_endsInBusError hfresh hpass,
    fun b s hfresh hpass => excExtract_endsInBusError hfresh hpass, ?patch, ?parse, ?encode, ?decode⟩
  case patch =>
    intro s hfresh hpass hduty n j wend hfits
    refine ⟨fun k => excPatch_endsInBusError_of_group hfresh hpass hduty hfits, fun g hgroup => ?_⟩
    intro x0 hin
    have hx0 : x0 = j + groupLen g := Nat.add_assoc ..
    rw [hx0] at hin
    refine ⟨fun k hk herrs => ?_, fun m x k hm hpatch hk herrs => ?_⟩
    · exact excPatch_endsInBusError_of_targets hfresh hpass hduty hfits hgroup hin
        (.inl (readRun_busFails bus_outRd hk (memRead_of_errs herrs)))
    · rw [hx0] at hpatch herrs
      exact excPatch_endsInBusError_of_targets hfresh hpass hduty hfits hgroup hin (.inr (patch_busFails hduty hpatch hk herrs))
  case parse =>
    intro s hfresh hpass hsome j wend h
    have hin : j < wend := by omega
    refine ⟨fun herrs => hdrParse_endsInBusError hfresh hpass (.inl (readHeader_busFails_of_first hin herrs)),
      fun hduty hvalid gs hgs => ?_⟩
    intro j'
    refine ⟨fun k hmore hreach herrs => ?_, fun k hcount hfit hfits hk herrs => ?_⟩
    · exact hdrParse_endsInBusError hfresh hpass (.inl (readHeader_busFails hduty hin hvalid hgs hmore hreach herrs))
    · obtain hheader | hheader := readHeader_ok_or_busFails hduty hin hvalid hgs hcount hfit
      · exact hdrParse_endsInBusError hfresh hpass (.inr ⟨_, hheader, hfits, k, hk, herrs⟩)
      · exact hdrParse_endsInBusError hfresh hpass (.inl hheader)
  case encode =>
    intro s run hinv hbusy hdec hstart bs nb n entry page hmore
    have hends := endsInBusError_of_unit (i := .encode) rfl hstart (decide_eq_true hmore)
    refine ⟨fun k hk hvalid herrs => ?_, fun k hvalid hk herrs => ?_, fun k hduty hvalid hfits hk herrs => ?_⟩
    · exact hends (.inl (encodeUnit_busFails (readPage_busFails_of_entry hk hvalid herrs)))
    · exact hends (.inl (encodeUnit_busFails (readPage_busFails_of_value hvalid hk herrs)))
    · obtain hpage | hpage := readPage_ok_or_busFails hduty hvalid
      · obtain ⟨d, hunit, hwords, -⟩ := encodeUnit_eq_ok hpage hduty hfits
        exact hends (.inr ⟨d, hunit, k, by rwa [hwords], herrs⟩)
      · exact hends (.inl (encodeUnit_busFails hpage))
  case decode =>
    intro s run hinv hbusy hdec hstart bs wend h hin
    have hends := endsInBusError_of_unit (i := .decode) rfl hstart (decide_eq_true hin)
    refine ⟨fun herrs => hends (.inl (decodeUnit_busFails (readHeader_busFails_of_first hin herrs))), fun hduty hvalid gs hgs => ?_⟩
    intro j'
    refine ⟨fun k hmore hreach herrs => ?_, fun hcount hfit hfits => ?_⟩
    · exact hends (.inl (decodeUnit_busFails (readHeader_busFails hduty hin hvalid hgs hmore hreach herrs)))
    intro at' i g hg hbefore
    obtain hheader | hheader := readHeader_ok_or_busFails hduty hin hvalid hgs hcount hfit
    case inr => exact ⟨fun _ _ _ _ _ _ => hends (.inl (decodeUnit_busFails hheader)),
      fun _ _ _ _ _ => hends (.inl (decodeUnit_busFails hheader))⟩
    have hbody {i' : Nat} {g' : Group} (hg' : gs[i']? = some g') :=
      bodies_getElem?_of_groups (bs := bs) (j := run.icur) (p := ⟨h, gs⟩) hg'
    have hblocks : ∀ j < i, ∀ ga, (Header.bodies bs run.icur ⟨h, gs⟩)[j]? = some ga →
        ∃ x, decodeBlock (plainIn s) bs ga.2 ga.1 = .ok x := by
      intro j hj ga hga
      obtain ⟨o, hg', -, -⟩ := Header.bodies_getElem?_iff.1 hga
      have hplace := congrArg Prod.snd (Option.some.inj ((hbody hg').symm.trans hga))
      exact hplace ▸ hbefore j ga.1 hj hg'
    have hfails := fun hblock => hends (.inl (decodeUnit_busFails_of_block hduty hheader hfits hblocks (hbody hg) hblock))
    refine ⟨fun m x k hplain hk herrs => hfails (.inl (decodeBlock_busFails hduty hplain hk herrs)),
      fun x k hplain hk herrs => hfails (.inr ⟨x, k, hplain, hk, herrs⟩)⟩

end Sys2Proof.Machine
end
